-- ==== Sys2Proof/Word.lean ====
section
/-! DEFINITION. The word types of the CRSCE encode core: bytes, command words, request words, and what a port carries.
Bit 0 of a word is its least significant bit (00_scope R9); every quantity is unsigned. -/

namespace Sys2Proof

/-- A byte of the input or output stream. -/
abbrev Byte := BitVec 8

/-- A 16-bit field or register: a dimension, a coordinate, a value to pack. -/
abbrev Half := BitVec 16

/-- A cross-sum counter: 16 bits wide, the constant `CW` (00_scope R6, 10_state R33). -/
abbrev Counter := BitVec 16

/-- A 32-bit command word of port `cmd` (30_encoding R122), and the data of a response (R121). -/
abbrev Word := BitVec 32

/-- A 64-bit request word of port `csm` (30_encoding R132). -/
abbrev Request := BitVec 64

/-- One transaction's word, with the port that carries it (30_encoding R120, R132). -/
inductive PortWord where
  | cmd (w : Word)
  | csm (q : Request)
deriving DecidableEq, Repr

end Sys2Proof
end

