-- ==== Sys2Proof/Config.lean ====
section
/-! DEFINITION. What an implementation of the encode core fixes (00_scope R6): the constants the source states, the
digest function `H`, and the type of the parameters `S_MAX` and `HAS_CSM`. -/

namespace Sys2Proof.Config

/-- `DLEN`: bytes per digest (00_scope R6). -/
def dlen : Nat := 32

/-- `CW`: bits per cross-sum counter (00_scope R6). -/
def cw : Nat := 16

/-- `WMAX`: the largest pack width (00_scope R6). -/
def wmax : Nat := 16

/-- A digest: `DLEN` bytes, byte 0 first (10_state R37, 20_memory R87). -/
abbrev Digest := Vector Byte 32

/-- `H`, the digest function. The source names no algorithm (42_row_hash R227, decision D9, U1), so it has no body
here: the model uses only that it is a function. Log entry 3. -/
opaque H : List Byte → Digest

/-- The placeholder of a row that is not captured yet: 32 zero bytes (42_row_hash R229). -/
def zeroDigest : Digest := Vector.replicate 32 0

/-- The parameters that an implementation chooses and that never change (00_scope R6). `S_MAX` is at most 65535, so 16
bits hold it. Log entry 2. -/
structure Params where
  sMax : Half
  hasCsm : Bool
deriving DecidableEq, Repr

/-- The defaults of 00_scope R6: `S_MAX` 65535, `HAS_CSM` false. -/
def defaultParams : Params := { sMax := 65535, hasCsm := false }

end Sys2Proof.Config
end

