-- ==== Sys2Proof/Syntax.lean ====
section
/-! DEFINITION. The instructions of the encode core: one constructor per row of the opcode table, with the operand fields
of its format at the width the format gives them (30_encoding R123, R125, R132). Then the assembler's lines, whose
operands are unbounded numbers, and its pseudo-instructions (30_encoding R129, R130). -/

namespace Sys2Proof

/-- The commands of port `cmd` and the requests of port `csm`. `CFG` and `CFG.A` are one command with two rows
(30_encoding R128). -/
inductive Instr where
  | cfg (n : Half) (b : BitVec 5)
  | cfgA (n : Half)
  | clr
  | rst
  | rd (sel : BitVec 4) (idx : BitVec 20)
  | pushb (v : Byte)
  | pushbit (v : Byte)
  | bitx (byte : Byte) (p : BitVec 4)
  | xtr (val : Half) (w : BitVec 5)
  | pkw (val : Half) (w : BitVec 5)
  | pkf
  | ser
  | csmResize (n : Half)
  | csmGet (r c : Half)
  | csmSet (r c : Half) (v : Byte)
  | csmLock (r c : Half)
  | csmIslocked (r c : Half)
  | csmSize
deriving DecidableEq, Repr

/-- The read windows that `RD` knows (45_control R330). -/
inductive Window where
  | csr | row | col | diag | anti | dig | hbuf
deriving DecidableEq, Repr

/-- The control and status registers of window 0 (10_state R43). -/
inductive Csr where
  | config | status | pos | hcur | pkst | pkcnt | outcnt | esticky | ecode | einfo | ecmd | limits
deriving DecidableEq, Repr

/-- One line of the assembler, its operands numbers as written (30_encoding R129, R132). The operand order is the
syntax's. -/
inductive AsmLine where
  | cfg (n b : Nat)
  | cfgA (n : Nat)
  | clr
  | rst
  | rd (sel idx : Nat)
  | pushb (v : Nat)
  | pushbit (v : Nat)
  | bitx (byte p : Nat)
  | xtr (val w : Nat)
  | pkw (val w : Nat)
  | pkf
  | ser
  | csmResize (n : Nat)
  | csmGet (r c : Nat)
  | csmSet (r c v : Nat)
  | csmLock (r c : Nat)
  | csmIslocked (r c : Nat)
  | csmSize
deriving DecidableEq, Repr

/-- The pseudo-instructions (30_encoding R130). -/
inductive Pseudo where
  | block (bytes : List Nat)
  | bits (digits : List Bool)
  | rdcsr (reg : Csr)
  | rddig (r j : Nat)
  | encode (bytes : List Nat)
deriving DecidableEq, Repr

end Sys2Proof
end

