-- ==== Sys2Proof/WellFormed.lean ====
section
/-! DEFINITION. Which terms are well formed. A term of Instr needs no check: each operand has the type of its field, so an
operand that does not fit cannot be written down (30_encoding R123). What can be ill formed is an assembler line, whose
operands are plain numbers (R129), a pseudo-instruction, through its expansion (R130), and a choice of parameters
(00_scope R6). -/

namespace Sys2Proof

/-- The parameter table's range: `S_MAX` is 1 to 65535 (00_scope R6). -/
abbrev Config.Params.wf (p : Config.Params) : Prop := p.sMax ≠ 0

/-- Each operand fits the field that carries it (30_encoding R123, R129, R132). -/
def AsmLine.wf : AsmLine → Bool
  | .cfg n b => decide (n < 2 ^ 16) && decide (b < 2 ^ 5)
  | .cfgA n => decide (n < 2 ^ 16)
  | .clr | .rst | .pkf | .ser | .csmSize => true
  | .rd sel idx => decide (sel < 2 ^ 4) && decide (idx < 2 ^ 20)
  | .pushb v | .pushbit v => decide (v < 2 ^ 8)
  | .bitx byte p => decide (byte < 2 ^ 8) && decide (p < 2 ^ 4)
  | .xtr val w | .pkw val w => decide (val < 2 ^ 16) && decide (w < 2 ^ 5)
  | .csmResize n => decide (n < 2 ^ 16)
  | .csmGet r c | .csmLock r c | .csmIslocked r c => decide (r < 2 ^ 16) && decide (c < 2 ^ 16)
  | .csmSet r c v => decide (r < 2 ^ 16) && decide (c < 2 ^ 16) && decide (v < 2 ^ 8)

end Sys2Proof
end

