-- ==== Sys2Proof/Decode.lean ====
section
/-! DEFINITION. Decoding of command words and request words (30_encoding R122 to R128, R132), the encoder written from the
same formats, the numbers of windows and registers (45_control R330, 10_state R43), and the assembler's words and
expansions (R129, R130). -/

namespace Sys2Proof

/-! ## Opcodes (30_encoding R125, R132) -/

def opCfg : Byte := 0x01
def opClr : Byte := 0x02
def opRst : Byte := 0x03
def opRd : Byte := 0x04
def opPushb : Byte := 0x10
def opPushbit : Byte := 0x11
def opBitx : Byte := 0x12
def opXtr : Byte := 0x20
def opPkw : Byte := 0x21
def opPkf : Byte := 0x22
def opSer : Byte := 0x30
def copResize : Byte := 0x40
def copGet : Byte := 0x41
def copSet : Byte := 0x42
def copLock : Byte := 0x43
def copIslocked : Byte := 0x44
def copSize : Byte := 0x45

/-! ## Decoding -/

/-- Why a word does not decode, one name for each step of 30_encoding R126 and for the two of R132. -/
inductive DecodeError where
  | unknownOpcode
  | nonzeroField
  | autoWithWidth
  | unknownOperation
  | nonzeroRequestField
deriving DecidableEq, Repr

/-- Answers `i` when the `zero` bits of the word are zero (30_encoding R126 step 2). -/
def whenZero (zero : Prop) [Decidable zero] (i : Except DecodeError Instr) : Except DecodeError Instr :=
  if zero then i else .error .nonzeroField

/-- Format Z: `[23:0]` zero (30_encoding R123). -/
def decodeZ (i : Instr) (w : Word) : Except DecodeError Instr :=
  whenZero (w.extractLsb' 0 24 = 0) (.ok i)

/-- Format C, with step 3 of 30_encoding R126: with `auto` set the `b` field must be zero. -/
def decodeC (w : Word) : Except DecodeError Instr :=
  let n := w.extractLsb' 0 16
  let b := w.extractLsb' 16 5
  whenZero (w.extractLsb' 21 2 = 0)
    (if w.extractLsb' 23 1 = 0 then .ok (.cfg n b)
     else if b = 0 then .ok (.cfgA n) else .error .autoWithWidth)

/-- Format V: `[23:8]` zero, `[7:0]` the value (30_encoding R123). -/
def decodeV (i : Byte → Instr) (w : Word) : Except DecodeError Instr :=
  whenZero (w.extractLsb' 8 16 = 0) (.ok (i (w.extractLsb' 0 8)))

/-- Format X: `[23:12]` zero, `[11:8]` the position, `[7:0]` the byte (30_encoding R123). -/
def decodeX (i : Byte → BitVec 4 → Instr) (w : Word) : Except DecodeError Instr :=
  whenZero (w.extractLsb' 12 12 = 0) (.ok (i (w.extractLsb' 0 8) (w.extractLsb' 8 4)))

/-- Format W: `[23:21]` zero, `[20:16]` the width, `[15:0]` the value (30_encoding R123). -/
def decodeW (i : Half → BitVec 5 → Instr) (w : Word) : Except DecodeError Instr :=
  whenZero (w.extractLsb' 21 3 = 0) (.ok (i (w.extractLsb' 0 16) (w.extractLsb' 16 5)))

/-- Format A: `[23:20]` the window, `[19:0]` the index (30_encoding R123). -/
def decodeA (i : BitVec 4 → BitVec 20 → Instr) (w : Word) : Except DecodeError Instr :=
  .ok (i (w.extractLsb' 20 4) (w.extractLsb' 0 20))

/-- The decoder of port `cmd`: opcode first, then the format's zero fields, then `CFG`'s own check (30_encoding R126). -/
def decodeCmd (w : Word) : Except DecodeError Instr :=
  let op := w.extractLsb' 24 8
  if op = opCfg then decodeC w
  else if op = opClr then decodeZ .clr w
  else if op = opRst then decodeZ .rst w
  else if op = opRd then decodeA .rd w
  else if op = opPushb then decodeV .pushb w
  else if op = opPushbit then decodeV .pushbit w
  else if op = opBitx then decodeX .bitx w
  else if op = opXtr then decodeW .xtr w
  else if op = opPkw then decodeW .pkw w
  else if op = opPkf then decodeZ .pkf w
  else if op = opSer then decodeZ .ser w
  else .error .unknownOpcode

/-- Answers `i` when the must-be-zero bits of the request are zero (30_encoding R132). -/
def whenRequestZero (zero : Prop) [Decidable zero] (i : Instr) : Except DecodeError Instr :=
  if zero then .ok i else .error .nonzeroRequestField

/-- The decoder of port `csm` (30_encoding R132): format Q. -/
def decodeCsm (q : Request) : Except DecodeError Instr :=
  let cop := q.extractLsb' 56 8
  let gap := q.extractLsb' 40 16
  let v := q.extractLsb' 32 8
  let r := q.extractLsb' 16 16
  let c := q.extractLsb' 0 16
  if cop = copResize then whenRequestZero (gap = 0 ∧ v = 0 ∧ r = 0) (.csmResize c)
  else if cop = copGet then whenRequestZero (gap = 0 ∧ v = 0) (.csmGet r c)
  else if cop = copSet then whenRequestZero (gap = 0) (.csmSet r c v)
  else if cop = copLock then whenRequestZero (gap = 0 ∧ v = 0) (.csmLock r c)
  else if cop = copIslocked then whenRequestZero (gap = 0 ∧ v = 0) (.csmIslocked r c)
  else if cop = copSize then whenRequestZero (gap = 0 ∧ v = 0 ∧ r = 0 ∧ c = 0) .csmSize
  else .error .unknownOperation

/-- The decoder: total on every word of either port, and independent of any state (30_encoding R126). -/
def decode : PortWord → Except DecodeError Instr
  | .cmd w => decodeCmd w
  | .csm q => decodeCsm q

/-! ## Encoding -/

/-- Format Z (30_encoding R123). -/
def wordZ (op : Byte) : Word := op ++ 0#24

/-- Format C (30_encoding R123). -/
def wordC (auto : BitVec 1) (b : BitVec 5) (n : Half) : Word := opCfg ++ auto ++ 0#2 ++ b ++ n

/-- Format V (30_encoding R123). -/
def wordV (op v : Byte) : Word := op ++ 0#16 ++ v

/-- Format X (30_encoding R123). -/
def wordX (op : Byte) (p : BitVec 4) (byte : Byte) : Word := op ++ 0#12 ++ p ++ byte

/-- Format W (30_encoding R123). -/
def wordW (op : Byte) (width : BitVec 5) (val : Half) : Word := op ++ 0#3 ++ width ++ val

/-- Format A (30_encoding R123). -/
def wordA (op : Byte) (sel : BitVec 4) (idx : BitVec 20) : Word := op ++ sel ++ idx

/-- Format Q (30_encoding R132). -/
def requestQ (cop v : Byte) (r c : Half) : Request := cop ++ 0#16 ++ v ++ r ++ c

/-- The word of an instruction, on its own port (30_encoding R125, R132). Every instruction has exactly one. -/
def encode : Instr → PortWord
  | .cfg n b => .cmd (wordC 0 b n)
  | .cfgA n => .cmd (wordC 1 0 n)
  | .clr => .cmd (wordZ opClr)
  | .rst => .cmd (wordZ opRst)
  | .rd sel idx => .cmd (wordA opRd sel idx)
  | .pushb v => .cmd (wordV opPushb v)
  | .pushbit v => .cmd (wordV opPushbit v)
  | .bitx byte p => .cmd (wordX opBitx p byte)
  | .xtr val w => .cmd (wordW opXtr w val)
  | .pkw val w => .cmd (wordW opPkw w val)
  | .pkf => .cmd (wordZ opPkf)
  | .ser => .cmd (wordZ opSer)
  | .csmResize n => .csm (requestQ copResize 0 0 n)
  | .csmGet r c => .csm (requestQ copGet 0 r c)
  | .csmSet r c v => .csm (requestQ copSet v r c)
  | .csmLock r c => .csm (requestQ copLock 0 r c)
  | .csmIslocked r c => .csm (requestQ copIslocked 0 r c)
  | .csmSize => .csm (requestQ copSize 0 0 0)

/-! ## The table of match and mask values (30_encoding R128) -/

/-- One row of the opcode table. -/
structure TableRow (n : Nat) where
  mnemonic : String
  matchBits : BitVec n
  maskBits : BitVec n
deriving DecidableEq, Repr

/-- A word is an instance of a row when `w & mask = match` (30_encoding R128). -/
abbrev TableRow.covers {n : Nat} (row : TableRow n) (w : BitVec n) : Prop := w &&& row.maskBits = row.matchBits

/-- The rows of port `cmd` (30_encoding R128). -/
def cmdRows : List (TableRow 32) :=
  [⟨"CFG", 0x01000000, 0xFFE00000⟩,
   ⟨"CFG.A", 0x01800000, 0xFFFF0000⟩,
   ⟨"CLR", 0x02000000, 0xFFFFFFFF⟩,
   ⟨"RST", 0x03000000, 0xFFFFFFFF⟩,
   ⟨"RD", 0x04000000, 0xFF000000⟩,
   ⟨"PUSHB", 0x10000000, 0xFFFFFF00⟩,
   ⟨"PUSHBIT", 0x11000000, 0xFFFFFF00⟩,
   ⟨"BITX", 0x12000000, 0xFFFFF000⟩,
   ⟨"XTR", 0x20000000, 0xFFE00000⟩,
   ⟨"PKW", 0x21000000, 0xFFE00000⟩,
   ⟨"PKF", 0x22000000, 0xFFFFFFFF⟩,
   ⟨"SER", 0x30000000, 0xFFFFFFFF⟩]

/-- The rows of port `csm` (opcode_table.json, format Q; 30_encoding R132). -/
def csmRows : List (TableRow 64) :=
  [⟨"CSM.RESIZE", 0x4000000000000000, 0xFFFFFFFFFFFF0000⟩,
   ⟨"CSM.GET", 0x4100000000000000, 0xFFFFFFFF00000000⟩,
   ⟨"CSM.SET", 0x4200000000000000, 0xFFFFFF0000000000⟩,
   ⟨"CSM.LOCK", 0x4300000000000000, 0xFFFFFFFF00000000⟩,
   ⟨"CSM.ISLOCKED", 0x4400000000000000, 0xFFFFFFFF00000000⟩,
   ⟨"CSM.SIZE", 0x4500000000000000, 0xFFFFFFFFFFFFFFFF⟩]

/-- The mnemonic of an instruction's row in the opcode table. -/
def mnemonicOf : Instr → String
  | .cfg _ _ => "CFG"
  | .cfgA _ => "CFG.A"
  | .clr => "CLR"
  | .rst => "RST"
  | .rd _ _ => "RD"
  | .pushb _ => "PUSHB"
  | .pushbit _ => "PUSHBIT"
  | .bitx _ _ => "BITX"
  | .xtr _ _ => "XTR"
  | .pkw _ _ => "PKW"
  | .pkf => "PKF"
  | .ser => "SER"
  | .csmResize _ => "CSM.RESIZE"
  | .csmGet _ _ => "CSM.GET"
  | .csmSet _ _ _ => "CSM.SET"
  | .csmLock _ _ => "CSM.LOCK"
  | .csmIslocked _ _ => "CSM.ISLOCKED"
  | .csmSize => "CSM.SIZE"

/-! ## Numbers of windows and registers -/

/-- The window an `RD` selects; `sel` 7 to 15 are reserved (45_control R330). -/
def windowOf (sel : BitVec 4) : Option Window :=
  if sel = 0 then some .csr
  else if sel = 1 then some .row
  else if sel = 2 then some .col
  else if sel = 3 then some .diag
  else if sel = 4 then some .anti
  else if sel = 5 then some .dig
  else if sel = 6 then some .hbuf
  else none

/-- The number of a control and status register (10_state R43). -/
def csrNumber : Csr → Nat
  | .config => 0x00
  | .status => 0x01
  | .pos => 0x02
  | .hcur => 0x03
  | .pkst => 0x04
  | .pkcnt => 0x05
  | .outcnt => 0x06
  | .esticky => 0x07
  | .ecode => 0x08
  | .einfo => 0x09
  | .ecmd => 0x0A
  | .limits => 0x0B

/-- All control and status registers, in number order (10_state R43). -/
def allCsrs : List Csr :=
  [.config, .status, .pos, .hcur, .pkst, .pkcnt, .outcnt, .esticky, .ecode, .einfo, .ecmd, .limits]

/-- The register with a number; 0x0C and above are reserved (10_state R43). -/
def csrOf (idx : Nat) : Option Csr := allCsrs[idx]?

/-! ## The assembler (30_encoding R129, R130, R132) -/

/-- The number that an assembler line stands for, by the sums of 30_encoding R129 and the layout of R132, and the port
it is for (true for `csm`). -/
def asmNumber : AsmLine → Bool × Nat
  | .cfg n b => (false, 0x01000000 + b * 2 ^ 16 + n)
  | .cfgA n => (false, 0x01800000 + n)
  | .clr => (false, 0x02000000)
  | .rst => (false, 0x03000000)
  | .rd sel idx => (false, 0x04000000 + sel * 2 ^ 20 + idx)
  | .pushb v => (false, 0x10000000 + v)
  | .pushbit v => (false, 0x11000000 + v)
  | .bitx byte p => (false, 0x12000000 + p * 2 ^ 8 + byte)
  | .xtr val w => (false, 0x20000000 + w * 2 ^ 16 + val)
  | .pkw val w => (false, 0x21000000 + w * 2 ^ 16 + val)
  | .pkf => (false, 0x22000000)
  | .ser => (false, 0x30000000)
  | .csmResize n => (true, 0x4000000000000000 + n)
  | .csmGet r c => (true, 0x4100000000000000 + r * 2 ^ 16 + c)
  | .csmSet r c v => (true, 0x4200000000000000 + v * 2 ^ 32 + r * 2 ^ 16 + c)
  | .csmLock r c => (true, 0x4300000000000000 + r * 2 ^ 16 + c)
  | .csmIslocked r c => (true, 0x4400000000000000 + r * 2 ^ 16 + c)
  | .csmSize => (true, 0x4500000000000000)

/-- The word of a well-formed line; an ill-formed line has none (30_encoding R129). -/
def assemble (l : AsmLine) : Option PortWord :=
  if l.wf then
    match asmNumber l with
    | (false, n) => some (.cmd (BitVec.ofNat 32 n))
    | (true, n) => some (.csm (BitVec.ofNat 64 n))
  else none

/-- The instruction a line names, each operand in its field (30_encoding R124, R129). -/
def instrOf : AsmLine → Instr
  | .cfg n b => .cfg (BitVec.ofNat 16 n) (BitVec.ofNat 5 b)
  | .cfgA n => .cfgA (BitVec.ofNat 16 n)
  | .clr => .clr
  | .rst => .rst
  | .rd sel idx => .rd (BitVec.ofNat 4 sel) (BitVec.ofNat 20 idx)
  | .pushb v => .pushb (BitVec.ofNat 8 v)
  | .pushbit v => .pushbit (BitVec.ofNat 8 v)
  | .bitx byte p => .bitx (BitVec.ofNat 8 byte) (BitVec.ofNat 4 p)
  | .xtr val w => .xtr (BitVec.ofNat 16 val) (BitVec.ofNat 5 w)
  | .pkw val w => .pkw (BitVec.ofNat 16 val) (BitVec.ofNat 5 w)
  | .pkf => .pkf
  | .ser => .ser
  | .csmResize n => .csmResize (BitVec.ofNat 16 n)
  | .csmGet r c => .csmGet (BitVec.ofNat 16 r) (BitVec.ofNat 16 c)
  | .csmSet r c v => .csmSet (BitVec.ofNat 16 r) (BitVec.ofNat 16 c) (BitVec.ofNat 8 v)
  | .csmLock r c => .csmLock (BitVec.ofNat 16 r) (BitVec.ofNat 16 c)
  | .csmIslocked r c => .csmIslocked (BitVec.ofNat 16 r) (BitVec.ofNat 16 c)
  | .csmSize => .csmSize

/-- The lines a pseudo-instruction expands to (30_encoding R130). -/
def expand : Pseudo → List AsmLine
  | .block bytes => bytes.map .pushb
  | .bits digits => digits.map fun d => .pushbit d.toNat
  | .rdcsr reg => [.rd 0 (csrNumber reg)]
  | .rddig r j => [.rd 5 (8 * r + j)]
  | .encode bytes => bytes.map .pushb ++ [.ser]

/-- A pseudo-instruction is well formed when every line of its expansion is. -/
def pseudoWf (p : Pseudo) : Bool := (expand p).all AsmLine.wf

/-! ## The host's question -/

/-- The word of `nbits` bits on the port that has words of that width: 32 for `cmd`, 64 for `csm` (30_encoding R122,
R132). -/
def tableWord (nbits w : Nat) : Option PortWord :=
  if nbits = 32 then some (.cmd (BitVec.ofNat 32 w))
  else if nbits = 64 then some (.csm (BitVec.ofNat 64 w))
  else none

/-- The instruction the decoder reads from an opcode-table word. A transaction carries its word whole, so there is no
byte order to lay out (20_memory R88, 30_encoding R120). -/
def decodeTableWord (nbits w : Nat) : Option Instr :=
  match tableWord nbits w with
  | some p => (decode p).toOption
  | none => none

end Sys2Proof
end

