-- ==== Sys2Proof/Machine/State.lean ====
section
/-! DEFINITION. The state of the encode core (10_state R31 to R48), with the parameters, the inputs and the records that
the spec puts beside it (10_state R40, R45), its reset value (10_state R47), and the ways a step can stop. -/

namespace Sys2Proof.Machine

open Sys2Proof.Config (Digest Params)

/-- The value of `PHASE` (10_state R34). Its two bits never hold 3, so a closed set of names holds it. -/
inductive Phase where
  /-- 0: no configuration yet -/
  | uncfg
  /-- 1: configured, a block is being accumulated -/
  | active
  /-- 2: an output write failed -/
  | abort
deriving DecidableEq, Repr

/-- The error kinds (60_exceptions R400). -/
inductive ErrorKind where
  | rangeError
  | invalidValue
  | constructionError
  | ioError
  | sequenceError
  | illegalCommand
deriving DecidableEq, Repr

/-- A response: 4 bits of status and 32 bits of data (30_encoding R121). -/
structure Response where
  status : BitVec 4
  data : Word
deriving DecidableEq, Repr

/-- The sink's answer to one `Emit` (00_scope R14). -/
inductive SinkAnswer where
  | accept
  | fail
deriving DecidableEq, Repr

/-- What the sink will answer: the queued answers, oldest first, then the same answer for ever, or no answer at all
(00_scope R14; `none` is the sink of U9 that never answers). Log entries 4 and 5. -/
structure Sink where
  queued : List SinkAnswer
  thereafter : Option SinkAnswer
deriving DecidableEq, Repr

/-- What the outside world can hand to the block between two commands: a word on a port, or a hardware reset (00_scope
R15, 10_state R30). -/
inductive Input where
  | word (p : PortWord)
  | reset
deriving DecidableEq, Repr

/-- The state. The field names are the spec's register names in lower case; the two records and the three inputs that
are the model's own stand at the end. -/
structure State where
  /-- `CFGD` (10_state R31) -/
  cfgd : Bool
  /-- `S`, the matrix dimension (10_state R31) -/
  dim : Half
  /-- `B`, the pack width (10_state R31) -/
  width : BitVec 5
  /-- `AUTO` (10_state R31) -/
  auto : Bool
  /-- `PHASE` (10_state R34) -/
  phase : Phase
  /-- `R`, the row of the next bit (10_state R35) -/
  r : Half
  /-- `C`, the column of the next bit (10_state R35) -/
  c : Half
  /-- `ROW` (10_state R33) -/
  row : List Counter
  /-- `COL` (10_state R33) -/
  col : List Counter
  /-- `DIAG` (10_state R33) -/
  diag : List Counter
  /-- `ANTI` (10_state R33) -/
  anti : List Counter
  /-- `DIG`, the digest store (10_state R37) -/
  dig : List Digest
  /-- `HBUF`, the row buffer (10_state R38) -/
  hbuf : List Byte
  /-- `HBIT` (10_state R38) -/
  hbit : BitVec 3
  /-- `HBYTE` (10_state R38) -/
  hbyte : Half
  /-- `PKBYTE` (10_state R39) -/
  pkbyte : Byte
  /-- `PKBIT` (10_state R39) -/
  pkbit : BitVec 3
  /-- `PKCNT` (10_state R39) -/
  pkcnt : Word
  /-- `OUT`, the record of accepted bytes (10_state R40) -/
  out : List Byte
  /-- `OUTCNT` (10_state R40) -/
  outcnt : Word
  /-- `ESTICKY` (10_state R41) -/
  esticky : BitVec 7
  /-- `ECODE` (10_state R41) -/
  ecode : BitVec 4
  /-- `EINFO` (10_state R41) -/
  einfo : Word
  /-- `ECMD` (10_state R41) -/
  ecmd : Word
  /-- `CSZ` (10_state R48) -/
  csz : Half
  /-- `CVAL`: the keys of the cells whose bit is 1, strictly rising (10_state R48, log entry 11) -/
  cval : List Nat
  /-- `CLK`: the keys of the locked cells, strictly rising (10_state R48, log entry 11) -/
  clk : List Nat
  /-- `S_MAX` and `HAS_CSM` (00_scope R6, log entry 2) -/
  params : Params
  /-- the transactions not yet taken, oldest first (30_encoding R120, log entry 1) -/
  inputs : List Input
  /-- the sink's answers (00_scope R14, log entry 4) -/
  sink : Sink
  /-- the responses given on port `rsp`, oldest first (30_encoding R121, log entry 6) -/
  rsp : List Response
  /-- the responses given on port `csm`, oldest first (30_encoding R132, log entry 6) -/
  csmRsp : List Response
deriving DecidableEq, Repr

/-- The machine stops. No input word and no operand stops the block (60_exceptions R413), so there is one reason only. -/
inductive Fault where
  /-- Raised by `SER`, `PKW` and `PKF` when the sink never answers an `Emit`: the command then never ends
  (93_implementation_defined U9, treatment 'stuck'; 70_reset R481 assumes that it does not happen). Safe: the machine
  does nothing more. Log entry 5. -/
  | sinkSilent
deriving DecidableEq, Repr

/-- The model gives a transaction no meaning. -/
inductive Refusal where
  /-- Raised by an arm of exec whose instruction has no meaning yet. Safe. No arm raises it in this model. -/
  | notModelled (mnemonic : String)
  /-- Raised for a request on port `csm` of a block without that port, which 30_encoding R132 says does not exist.
  Safe: no such transaction can occur. Log entry 12. -/
  | csmAbsent
deriving DecidableEq, Repr

/-- A sink that accepts every byte. -/
def Sink.accepting : Sink := { queued := [], thereafter := some .accept }

/-- The machine after hardware reset: every element at its reset value (10_state R47), the parameters at their defaults
(00_scope R6), no transaction delivered, no response given, and a sink that accepts every byte (log entries 1, 2, 4,
6). -/
def State.reset : State where
  cfgd := false
  dim := 0
  width := 0
  auto := false
  phase := .uncfg
  r := 0
  c := 0
  row := []
  col := []
  diag := []
  anti := []
  dig := []
  hbuf := []
  hbit := 0
  hbyte := 0
  pkbyte := 0
  pkbit := 0
  pkcnt := 0
  out := []
  outcnt := 0
  esticky := 0
  ecode := 0
  einfo := 0
  ecmd := 0
  csz := 0
  cval := []
  clk := []
  params := Config.defaultParams
  inputs := []
  sink := Sink.accepting
  rsp := []
  csmRsp := []

end Sys2Proof.Machine
end

