-- ==== Sys2Proof/Machine/Flags.lean ====
section
/-! DEFINITION. Codes and flags: the phase and error codes (10_state R34, 60_exceptions R400), the sticky error bits
(10_state R41), and the two derived status flags (10_state R42). -/

namespace Sys2Proof.Machine

/-- The two bits of `PHASE` (10_state R34). -/
def phaseCode : Phase → BitVec 2
  | .uncfg => 0
  | .active => 1
  | .abort => 2

/-- The code of an error kind: the status of its response and its bit number in `ESTICKY` (60_exceptions R400). -/
def errorCode : ErrorKind → BitVec 4
  | .rangeError => 1
  | .invalidValue => 2
  | .constructionError => 3
  | .ioError => 4
  | .sequenceError => 5
  | .illegalCommand => 6

/-- `ESTICKY` with the bit of kind `k` set (60_exceptions R405). -/
def stickyWith (k : ErrorKind) (sticky : BitVec 7) : BitVec 7 := sticky ||| (1#7 <<< (errorCode k).toNat)

/-- `FULL`: the block is complete (10_state R42). -/
def flagFull (s : State) : Bool := s.cfgd && (s.r == s.dim)

/-- `PKPEND`: an unflushed packer stream is pending (10_state R42). -/
def flagPkpend (s : State) : Bool := s.pkbit != 0

end Sys2Proof.Machine
end

