-- ==== Sys2Proof/Machine/Operands.lean ====
section
/-! DEFINITION. The pure functions the commands are made of: bit extraction (40_bit_extractor R160), the index maps
(41_cross_sum R191 to R194), element access, the packer's extraction (43_bit_packer R250), the derived width (00_scope
R12), and what `RD` returns (10_state R43, 45_control R330). -/

namespace Sys2Proof.Machine

open Sys2Proof.Config (Digest)

/-! ## Bits of a byte -/

/-- `BitAt(byte, p)`: position `p` counts from the most significant end, so it is bit `7 - p` (40_bit_extractor R160,
00_scope R10). Used for `p` at most 7. -/
def bitAt (byte : Byte) (p : Nat) : Bool := byte.getLsbD (7 - p)

/-- A byte with `bit` at position `p` and zeros elsewhere (00_scope R10). -/
def byteWithBit (bit : Bool) (p : Nat) : Byte := (BitVec.ofBool bit).setWidth 8 <<< (7 - p)

/-! ## Elements of a register file (00_scope R11) -/

/-- Element `i` of a file. Every rule checks `i` first, so the default is never met in a state the machine reaches
(log entry 10). -/
def element {α : Type} (file : List α) (i : Nat) (default : α) : α := file.getD i default

/-- The file with element `i` written (00_scope R11). -/
def writeElement {α : Type} (file : List α) (i : Nat) (v : α) : List α := file.set i v

/-! ## The index maps -/

/-- `RowIdx` (41_cross_sum R191). -/
def rowIdx (r _c _n : Nat) : Nat := r

/-- `ColIdx` (41_cross_sum R192). -/
def colIdx (_r c _n : Nat) : Nat := c

/-- `DiagIdx` (41_cross_sum R193). -/
def diagIdx (r c n : Nat) : Nat := (r + c) % n

/-- `AntiIdx`, grouped so that it never goes negative for `r < n` (41_cross_sum R194). -/
def antiIdx (r c n : Nat) : Nat := (n - 1 - r + c) % n

/-- The file with `bit` added to counter `i` (41_cross_sum R190). -/
def addBit (file : List Counter) (i : Nat) (bit : Bool) : List Counter :=
  writeElement file i (element file i 0 + (BitVec.ofBool bit).setWidth 16)

/-! ## Sizes -/

/-- `ceil(n / 8)` (00_scope R11). -/
def ceilBytes (n : Nat) : Nat := (n + 7) / 8

/-- Searches upward from `k` for the least exponent with `n` at most `2 ^ k`. -/
def clog2From (n : Nat) : Nat → Nat → Nat
  | 0, k => k
  | fuel + 1, k => if n ≤ 2 ^ k then k else clog2From n fuel (k + 1)

/-- `clog2(n)`: the least `k` with `2 ^ k >= n` (00_scope R12). -/
def clog2 (n : Nat) : Nat := clog2From n n 0

/-! ## The packer's bit stack (43_bit_packer R250) -/

/-- The width clamp: more than 16 is 16 (43_bit_packer R252). -/
def clampWidth (width : BitVec 5) : Nat := min width.toNat Config.wmax

/-- The stack after pushing bits `0` to `n - 1` of `value`, earlier bits moving up (43_bit_packer R250). -/
def extractBits (value : Half) : Nat → Half
  | 0 => 0
  | n + 1 => (extractBits value n <<< 1) ||| (BitVec.ofBool (value.getLsbD n)).setWidth 16

/-- `Extract(value, width)`: the stack and how many bits are on it (43_bit_packer R250). -/
def extract (value : Half) (width : BitVec 5) : Half × Nat :=
  (extractBits value (clampWidth width), clampWidth width)

/-! ## What RD returns -/

/-- The 32-bit view of a control and status register; bits not listed read 0 (10_state R43). -/
def csrRead (s : State) : Csr → Word
  | .config => BitVec.ofBool s.cfgd ++ 0#7 ++ BitVec.ofBool s.auto ++ 0#2 ++ s.width ++ s.dim
  | .status => 0#27 ++ BitVec.ofBool s.params.hasCsm ++ BitVec.ofBool (flagPkpend s) ++ BitVec.ofBool (flagFull s)
      ++ phaseCode s.phase
  | .pos => s.r ++ s.c
  | .hcur => s.hbyte ++ 0#13 ++ s.hbit
  | .pkst => 0#16 ++ s.pkbyte ++ 0#5 ++ s.pkbit
  | .pkcnt => s.pkcnt
  | .outcnt => s.outcnt
  | .esticky => 0#25 ++ s.esticky.extractLsb' 1 6 ++ 0#1
  | .ecode => 0#28 ++ s.ecode
  | .einfo => s.einfo
  | .ecmd => s.ecmd
  | .limits => 0#16 ++ s.params.sMax

/-- The number of indices of a window (45_control R330); window 0 is indexed by register number. -/
def windowLimit (s : State) : Window → Nat
  | .csr => allCsrs.length
  | .row | .col | .diag | .anti => s.dim.toNat
  | .dig => 8 * s.dim.toNat
  | .hbuf => ceilBytes s.dim.toNat

/-- Up to four bytes as the data of an `RD`, the byte with the lowest index most significant and zeros after the last
(20_memory R88, decision D17). -/
def packBytes (bytes : List Byte) : Word :=
  element bytes 0 0 ++ element bytes 1 0 ++ element bytes 2 0 ++ element bytes 3 0

/-- Word `j` of a digest (45_control R330, 20_memory R88). -/
def digestWord (d : Digest) (j : Nat) : Word :=
  packBytes [element d.toList (4 * j) 0, element d.toList (4 * j + 1) 0, element d.toList (4 * j + 2) 0,
    element d.toList (4 * j + 3) 0]

/-- The data of the windows 1 to 6 (45_control R330); window 0 is read by `csrRead`. A byte of `HBUF` stands in
`data[31:24]`, by 20_memory R88 and decision D17, which R330 cites and whose ruling is taken over the cell of R330's table.
DEDUCED, unsafe: log entry 16. -/
def windowRead (s : State) (idx : Nat) : Window → Word
  | .csr => match csrOf idx with
      | some reg => csrRead s reg
      | none => 0
  | .row => (element s.row idx 0).setWidth 32
  | .col => (element s.col idx 0).setWidth 32
  | .diag => (element s.diag idx 0).setWidth 32
  | .anti => (element s.anti idx 0).setWidth 32
  | .dig => digestWord (element s.dig (idx / 8) Config.zeroDigest) (idx % 8)
  | .hbuf => packBytes [element s.hbuf idx 0]

/-- `DigestEq(x, y)`: byte-wise comparison (42_row_hash R228). -/
def digestEq (x y : Digest) : Bool := (List.range Config.dlen).all fun k => element x.toList k 0 == element y.toList k 0

/-- The check a reconstruction makes of a candidate row of bytes (42_row_hash R228). -/
def rowAccepted (candidate : List Byte) (d : Digest) : Bool := digestEq (Config.H candidate) d

/-! ## The CSM grid -/

/-- The key of cell `(r, c)`: the row, then the column. -/
def cellKey (r c : Half) : Nat := r.toNat * 65536 + c.toNat

/-- The one form in which a set of cells is held: keys strictly rising (log entry 11). -/
abbrev cellsWf (cells : List Nat) : Prop := cells.Pairwise (· < ·)

/-- Whether a cell is in the set. -/
def cellRead (cells : List Nat) (k : Nat) : Bool := cells.contains k

/-- The set with one more cell, keys still rising. -/
def cellInsert (k : Nat) : List Nat → List Nat
  | [] => [k]
  | x :: xs => if k < x then k :: x :: xs else if k = x then x :: xs else x :: cellInsert k xs

/-- The set with the cell in it when `b`, out of it otherwise. -/
def cellWrite (cells : List Nat) (k : Nat) (b : Bool) : List Nat :=
  if b then cellInsert k cells else cells.filter (· != k)

end Sys2Proof.Machine
end

