-- ==== Sys2Proof/Machine/Ops.lean ====
section
/-! DEFINITION. The micro-operations and the shared operations: responses and errors (60_exceptions R405, R408), `Emit`
(00_scope R14), the accumulators (41_cross_sum R195), the row buffer (42_row_hash R221, R224), `PushBit`
(40_bit_extractor R166), the packer (43_bit_packer R253 to R255), `Fresh` (45_control R322), reset (10_state R47), and
what the CSM requests share (46_csm_option R361). -/

namespace Sys2Proof.Machine

/-! ## Responses and errors -/

/-- A successful command's response (30_encoding R121). -/
def respond (data : Word) (s : State) : State := { s with rsp := s.rsp ++ [{ status := 0, data := data }] }

/-- `raise K(info)` of the command with word `w`: the sticky bit, the three registers of the last error, and the
response; nothing else changes and control goes nowhere (60_exceptions R405, 00_scope R13). -/
def raise (k : ErrorKind) (info : Nat) (w : Word) (s : State) : State :=
  { s with
    esticky := stickyWith k s.esticky
    ecode := errorCode k
    einfo := BitVec.ofNat 32 info
    ecmd := w
    rsp := s.rsp ++ [{ status := errorCode k, data := BitVec.ofNat 32 info }] }

/-- `raise IoError(k)`, the one error that also changes the block: the packer is cleared and the phase is `ABORT`
(60_exceptions R408). There is no return from an error (R411): `CLR`, `CFG` and `RST` leave `ABORT`. -/
def raiseIo (k : Nat) (w : Word) (s : State) : State :=
  raise .ioError k w { s with pkbyte := 0, pkbit := 0, pkcnt := 0, phase := .abort }

/-! ## Emit -/

/-- The answer to the next `Emit`. -/
def sinkAnswer (k : Sink) : Option SinkAnswer :=
  match k.queued with
  | a :: _ => some a
  | [] => k.thereafter

/-- The sink after it has answered once. -/
def sinkRest (k : Sink) : Sink := { k with queued := k.queued.tail }

/-- How the emitting part of a command ends: every byte accepted (with the number of bytes the command has emitted), a
byte failed (with the number accepted before it), or the sink silent. -/
inductive Emission where
  | ok (k : Nat) (s : State)
  | failed (k : Nat) (s : State)
  | silent
deriving DecidableEq, Repr

/-- Goes on while every byte is accepted. -/
def andThen (e : Emission) (f : Nat → State → Emission) : Emission :=
  match e with
  | .ok k s => f k s
  | .failed k s => .failed k s
  | .silent => .silent

/-- `Emit(v)` when the command has emitted `k` bytes before (00_scope R14). -/
def emit (v : Byte) (k : Nat) (s : State) : Emission :=
  match sinkAnswer s.sink with
  | some .accept => .ok (k + 1) { s with out := s.out ++ [v], outcnt := s.outcnt + 1, sink := sinkRest s.sink }
  | some .fail => .failed k { s with sink := sinkRest s.sink }
  | none => .silent

/-- `Emit` of each byte in order. -/
def emitBytes : List Byte → Nat → State → Emission
  | [], k, s => .ok k s
  | v :: vs, k, s => andThen (emit v k s) (emitBytes vs)

/-- The end of an emitting command with word `w`: `done` when every byte was accepted, `IoError` when one failed
(60_exceptions R408). -/
def finish (w : Word) (e : Emission) (done : Nat → State → State) : Host.Outcome State Fault Refusal :=
  match e with
  | .ok k s => .next (done k s)
  | .failed k s => .next (raiseIo k w s)
  | .silent => .fault .sinkSilent

/-! ## The packer -/

/-- `PlaceBit(bit)` (43_bit_packer R253). -/
def placeBit (bit : Bool) (k : Nat) (s : State) : Emission :=
  let byte := s.pkbyte ||| byteWithBit bit s.pkbit.toNat
  if s.pkbit = 7 then
    andThen (emit byte k s) fun k s => .ok k { s with pkbyte := 0, pkbit := 0, pkcnt := s.pkcnt + 1 }
  else .ok k { s with pkbyte := byte, pkbit := s.pkbit + 1 }

/-- Pops `n` bits off the stack, each placed as it comes (43_bit_packer R254). -/
def popBits : Nat → Half → Nat → State → Emission
  | 0, _, k, s => .ok k s
  | n + 1, stk, k, s => andThen (placeBit (stk.getLsbD 0) k s) (popBits n (stk >>> 1))

/-- `PackValue(value, width)` (43_bit_packer R254). -/
def packValue (value : Half) (width : BitVec 5) (k : Nat) (s : State) : Emission :=
  popBits (extract value width).2 (extract value width).1 k s

/-- `PackValue` of each value in order. -/
def packValues (width : BitVec 5) : List Half → Nat → State → Emission
  | [], k, s => .ok k s
  | v :: vs, k, s => andThen (packValue v width k s) (packValues width vs)

/-- `PackFlush()` (43_bit_packer R255). -/
def packFlush (k : Nat) (s : State) : Emission :=
  if s.pkbit = 0 then .ok k { s with pkcnt := 0 }
  else andThen (emit s.pkbyte k s) fun k s => .ok k { s with pkbyte := 0, pkbit := 0, pkcnt := 0 }

/-- One packed file, closed on a byte boundary (44_serializer R293). -/
def packFile (width : BitVec 5) (file : List Counter) (k : Nat) (s : State) : Emission :=
  andThen (packValues width file k s) packFlush

/-- The packed files in order (44_serializer R293). -/
def packFiles (width : BitVec 5) : List (List Counter) → Nat → State → Emission
  | [], k, s => .ok k s
  | f :: fs, k, s => andThen (packFile width f k s) (packFiles width fs)

/-! ## Accumulators, row buffer, position -/

/-- `Acc(r, c, bit)` (41_cross_sum R195). -/
def acc (r c : Nat) (bit : Bool) (s : State) : State :=
  let n := s.dim.toNat
  { s with
    row := addBit s.row (rowIdx r c n) bit
    col := addBit s.col (colIdx r c n) bit
    diag := addBit s.diag (diagIdx r c n) bit
    anti := addBit s.anti (antiIdx r c n) bit }

/-- `Capture(r)`: the digest of the whole buffer is stored and the buffer cleared, in one step (42_row_hash R224). -/
def capture (r : Nat) (s : State) : State :=
  { s with
    dig := writeElement s.dig r (Config.H s.hbuf)
    hbuf := List.replicate s.hbuf.length 0
    hbit := 0
    hbyte := 0 }

/-- The append of `HPush`: the bit goes to position `HBIT` of byte `HBYTE` and the cursors move on (42_row_hash R221). -/
def appendBit (bit : Bool) (s : State) : State :=
  let i := s.hbyte.toNat
  let hbuf := writeElement s.hbuf i (element s.hbuf i 0 ||| byteWithBit bit s.hbit.toNat)
  if s.hbit = 7 then { s with hbuf := hbuf, hbit := 0, hbyte := s.hbyte + 1 }
  else { s with hbuf := hbuf, hbit := s.hbit + 1 }

/-- `HPush(r, c, bit)` (42_row_hash R221). -/
def hPush (r c : Nat) (bit : Bool) (s : State) : State :=
  if c + 1 = s.dim.toNat then capture r (appendBit bit s) else appendBit bit s

/-- The row-major advance from `(r, c)` (40_bit_extractor R166). -/
def advance (r c : Nat) (s : State) : State :=
  if c + 1 = s.dim.toNat then { s with r := BitVec.ofNat 16 (r + 1), c := 0 }
  else { s with r := BitVec.ofNat 16 r, c := BitVec.ofNat 16 (c + 1) }

/-- `PushBit(bit)` (40_bit_extractor R166). -/
def pushBit (bit : Bool) (s : State) : State :=
  let r := s.r.toNat
  let c := s.c.toNat
  advance r c (hPush r c bit (acc r c bit s))

/-- `PushBit` of each bit in order. -/
def pushBits (bits : List Bool) (s : State) : State := bits.foldl (fun s b => pushBit b s) s

/-- The bits of a byte, position 0 first (20_memory R82). -/
def byteBits (v : Byte) : List Bool := (List.range 8).map (bitAt v)

/-- The bit positions left in the block (40_bit_extractor R164). -/
def positionsLeft (s : State) : Nat := (s.dim.toNat - s.r.toNat) * s.dim.toNat - s.c.toNat

/-- The bits missing from the block (44_serializer R291). -/
def bitsMissing (s : State) : Nat := s.dim.toNat * s.dim.toNat - (s.r.toNat * s.dim.toNat + s.c.toNat)

/-! ## Fresh, configure, reset -/

/-- `Fresh()` (45_control R322). -/
def fresh (s : State) : State :=
  let n := s.dim.toNat
  { s with
    row := List.replicate n 0
    col := List.replicate n 0
    diag := List.replicate n 0
    anti := List.replicate n 0
    dig := List.replicate n Config.zeroDigest
    hbuf := List.replicate (ceilBytes n) 0
    hbit := 0
    hbyte := 0
    r := 0
    c := 0 }

/-- The effect of `CFG` after its checks (45_control R320). -/
def configure (n : Half) (b : BitVec 5) (auto : Bool) (s : State) : State :=
  { fresh { s with dim := n, auto := auto, cfgd := true, width := b } with phase := .active }

/-- `CFG` and `CFG.A`: the two checks in order, then `configure` (45_control R320). -/
def configureChecked (n : Half) (b : BitVec 5) (auto : Bool) (w : Word) (s : State) : State :=
  if n = 0 then raise .constructionError 0 w s
  else if s.params.sMax < n then raise .constructionError n.toNat w s
  else respond (b.setWidth 32) (configure n b auto s)

/-- Every state element at its reset value (10_state R47). The parameters never change (00_scope R6); the inputs, the
sink and the records of responses are not the block's (log entries 4, 6, 8). -/
def resetBlock (s : State) : State :=
  { State.reset with params := s.params, inputs := s.inputs, sink := s.sink, rsp := s.rsp, csmRsp := s.csmRsp }

/-! ## The CSM port -/

/-- A response on port `csm`; errors go into the status only (46_csm_option R360). -/
def csmRespond (status : BitVec 4) (data : Word) (s : State) : State :=
  { s with csmRsp := s.csmRsp ++ [{ status := status, data := data }] }

/-- Runs a request where the port exists (30_encoding R132). -/
def onCsmPort (s : State) (body : State → State) : Host.Outcome State Fault Refusal :=
  if s.params.hasCsm then .next (body s) else .refused .csmAbsent

/-- The bounds check common to `GET`, `SET`, `LOCK`, `ISLOCKED`: the row first, then the column (46_csm_option R361). -/
def withCell (r c : Half) (body : State → State) (s : State) : State :=
  if s.csz ≤ r then csmRespond (errorCode .rangeError) (r.setWidth 32) s
  else if s.csz ≤ c then csmRespond (errorCode .rangeError) (c.setWidth 32) s
  else body s

end Sys2Proof.Machine
end

