-- ==== Sys2Proof/Machine/Control.lean ====
section
/-! DEFINITION. The system commands: `CFG`, `CFG.A`, `CLR`, `RST`, `RD` (45_control). -/

namespace Sys2Proof.Machine

/-- `CFG s, b` (45_control R320): the width as given. -/
def execCfg (n : Half) (b : BitVec 5) (s : State) : Host.Outcome State Fault Refusal :=
  .next (configureChecked n b false (wordC 0 b n) s)

/-- `CFG.A s` (45_control R320, R321): the width derived. -/
def execCfgA (n : Half) (s : State) : Host.Outcome State Fault Refusal :=
  .next (configureChecked n (BitVec.ofNat 5 (clog2 (n.toNat + 1))) true (wordC 1 0 n) s)

/-- `CLR` (45_control R324): the way out of `ABORT` that keeps the configuration. -/
def execClr (s : State) : Host.Outcome State Fault Refusal :=
  .next (respond 0 (if s.cfgd then { fresh s with phase := .active } else { s with phase := .uncfg }))

/-- `RST` (45_control R326). -/
def execRst (s : State) : Host.Outcome State Fault Refusal :=
  .next (respond 0 (resetBlock s))

/-- `RD sel, idx` (45_control R330). -/
def execRd (sel : BitVec 4) (idx : BitVec 20) (s : State) : Host.Outcome State Fault Refusal :=
  let w := wordA opRd sel idx
  match windowOf sel with
  | none => .next (raise .illegalCommand 0 w s)
  | some .csr =>
    match csrOf idx.toNat with
    | none => .next (raise .illegalCommand 0 w s)
    | some reg => .next (respond (csrRead s reg) s)
  | some win =>
    if s.cfgd = false then .next (raise .sequenceError (phaseCode s.phase).toNat w s)
    else if windowLimit s win ≤ idx.toNat then .next (raise .rangeError idx.toNat w s)
    else .next (respond (windowRead s idx.toNat win) s)

end Sys2Proof.Machine
end

