-- ==== Sys2Proof/Machine/Csm.lean ====
section
/-! DEFINITION. The requests of the candidate solution matrix (46_csm_option), on port `csm`. -/

namespace Sys2Proof.Machine

/-- `CSM.RESIZE n` (46_csm_option R362): every cell clear and unlocked. -/
def execCsmResize (n : Half) (s : State) : Host.Outcome State Fault Refusal :=
  onCsmPort s fun s =>
    if n = 0 then csmRespond (errorCode .constructionError) 0 s
    else if s.params.sMax < n then csmRespond (errorCode .constructionError) (n.setWidth 32) s
    else csmRespond 0 (n.setWidth 32) { s with csz := n, cval := [], clk := [] }

/-- `CSM.GET r, c` (46_csm_option R363). -/
def execCsmGet (r c : Half) (s : State) : Host.Outcome State Fault Refusal :=
  onCsmPort s (withCell r c fun s =>
    csmRespond 0 ((BitVec.ofBool (cellRead s.cval (cellKey r c))).setWidth 32) s)

/-- `CSM.SET r, c, v` (46_csm_option R364): bounds before value; the lock is not consulted. -/
def execCsmSet (r c : Half) (v : Byte) (s : State) : Host.Outcome State Fault Refusal :=
  onCsmPort s (withCell r c fun s =>
    if 1 < v.toNat then csmRespond (errorCode .invalidValue) (v.setWidth 32) s
    else csmRespond 0 0 { s with cval := cellWrite s.cval (cellKey r c) (v == 1) })

/-- `CSM.LOCK r, c` (46_csm_option R365). -/
def execCsmLock (r c : Half) (s : State) : Host.Outcome State Fault Refusal :=
  onCsmPort s (withCell r c fun s =>
    csmRespond 0 0 { s with clk := cellWrite s.clk (cellKey r c) true })

/-- `CSM.ISLOCKED r, c` (46_csm_option R366). -/
def execCsmIslocked (r c : Half) (s : State) : Host.Outcome State Fault Refusal :=
  onCsmPort s (withCell r c fun s =>
    csmRespond 0 ((BitVec.ofBool (cellRead s.clk (cellKey r c))).setWidth 32) s)

/-- `CSM.SIZE` (46_csm_option R367). -/
def execCsmSize (s : State) : Host.Outcome State Fault Refusal :=
  onCsmPort s fun s => csmRespond 0 (s.csz.setWidth 32) s

end Sys2Proof.Machine
end

