-- ==== Sys2Proof/Machine/Feed.lean ====
section
/-! DEFINITION. The feed commands: `BITX`, `PUSHB`, `PUSHBIT` (40_bit_extractor). -/

namespace Sys2Proof.Machine

/-- `BITX byte, p` (40_bit_extractor R162): legal in every phase. -/
def execBitx (byte : Byte) (p : BitVec 4) (s : State) : Host.Outcome State Fault Refusal :=
  if 7 < p.toNat then .next (raise .rangeError p.toNat (wordX opBitx p byte) s)
  else .next (respond ((BitVec.ofBool (bitAt byte p.toNat)).setWidth 32) s)

/-- `PUSHB v` (40_bit_extractor R164): all eight bits or none. -/
def execPushb (v : Byte) (s : State) : Host.Outcome State Fault Refusal :=
  let w := wordV opPushb v
  if s.phase ≠ .active then .next (raise .sequenceError (phaseCode s.phase).toNat w s)
  else if positionsLeft s < 8 then .next (raise .rangeError (positionsLeft s) w s)
  else .next (respond 0 (pushBits (byteBits v) s))

/-- `PUSHBIT v` (40_bit_extractor R165): phase, then value, then room. -/
def execPushbit (v : Byte) (s : State) : Host.Outcome State Fault Refusal :=
  let w := wordV opPushbit v
  if s.phase ≠ .active then .next (raise .sequenceError (phaseCode s.phase).toNat w s)
  else if 1 < v.toNat then .next (raise .invalidValue v.toNat w s)
  else if s.dim ≤ s.r then .next (raise .rangeError s.r.toNat w s)
  else .next (respond 0 (pushBit (v == 1) s))

end Sys2Proof.Machine
end

