-- ==== Sys2Proof/Machine/Packer.lean ====
section
/-! DEFINITION. The packer's commands: `XTR`, `PKW`, `PKF` (43_bit_packer). -/

namespace Sys2Proof.Machine

/-- `XTR val, w` (43_bit_packer R258): legal in every phase, never fails. -/
def execXtr (val : Half) (w : BitVec 5) (s : State) : Host.Outcome State Fault Refusal :=
  .next (respond ((extract val w).1.setWidth 32) s)

/-- `PKW val, w` (43_bit_packer R259). -/
def execPkw (val : Half) (w : BitVec 5) (s : State) : Host.Outcome State Fault Refusal :=
  let word := wordW opPkw w val
  if s.phase = .abort then .next (raise .sequenceError (phaseCode s.phase).toNat word s)
  else finish word (packValue val w 0 s) fun k t => respond (BitVec.ofNat 32 k) t

/-- `PKF` (43_bit_packer R260). -/
def execPkf (s : State) : Host.Outcome State Fault Refusal :=
  let word := wordZ opPkf
  let total := s.pkcnt.toNat + (if s.pkbit = 0 then 0 else 1)
  if s.phase = .abort then .next (raise .sequenceError (phaseCode s.phase).toNat word s)
  else finish word (packFlush 0 s) fun _ t => respond (BitVec.ofNat 32 total) t

end Sys2Proof.Machine
end

