-- ==== Sys2Proof/Machine/Serializer.lean ====
section
/-! DEFINITION. The serializer: `SER` (44_serializer). -/

namespace Sys2Proof.Machine

/-- The emission of `SER`: the digests raw, then the four packed files (44_serializer R293). -/
def serEmit (s : State) : Emission :=
  andThen (emitBytes (s.dig.flatMap Vector.toList) 0 s)
    (packFiles s.width [s.row, s.col, s.diag, s.anti])

/-- `SER`: the four checks in order (44_serializer R291), emission (R293), completion with `Fresh` (R294). -/
def execSer (s : State) : Host.Outcome State Fault Refusal :=
  let w := wordZ opSer
  if s.phase ≠ .active then .next (raise .sequenceError (phaseCode s.phase).toNat w s)
  else if 16 < s.width.toNat then .next (raise .rangeError s.width.toNat w s)
  else if s.r ≠ s.dim then .next (raise .sequenceError (bitsMissing s) w s)
  else if s.pkbit ≠ 0 then .next (raise .sequenceError s.pkbit.toNat w s)
  else finish w (serEmit s) fun k t => respond (BitVec.ofNat 32 k) (fresh t)

end Sys2Proof.Machine
end

