-- ==== Sys2Proof/Machine/Dispatch.lean ====
section
/-! DEFINITION. The meaning of every instruction, one arm each. -/

namespace Sys2Proof.Machine

def exec (i : Instr) (s : State) : Host.Outcome State Fault Refusal :=
  match i with
  | .cfg n b => Sys2Proof.Machine.execCfg n b s
  | .cfgA n => Sys2Proof.Machine.execCfgA n s
  | .clr => Sys2Proof.Machine.execClr s
  | .rst => Sys2Proof.Machine.execRst s
  | .rd sel idx => Sys2Proof.Machine.execRd sel idx s
  | .pushb v => Sys2Proof.Machine.execPushb v s
  | .pushbit v => Sys2Proof.Machine.execPushbit v s
  | .bitx byte p => Sys2Proof.Machine.execBitx byte p s
  | .xtr val w => Sys2Proof.Machine.execXtr val w s
  | .pkw val w => Sys2Proof.Machine.execPkw val w s
  | .pkf => Sys2Proof.Machine.execPkf s
  | .ser => Sys2Proof.Machine.execSer s
  | .csmResize n => Sys2Proof.Machine.execCsmResize n s
  | .csmGet r c => Sys2Proof.Machine.execCsmGet r c s
  | .csmSet r c v => Sys2Proof.Machine.execCsmSet r c v s
  | .csmLock r c => Sys2Proof.Machine.execCsmLock r c s
  | .csmIslocked r c => Sys2Proof.Machine.execCsmIslocked r c s
  | .csmSize => Sys2Proof.Machine.execCsmSize s

end Sys2Proof.Machine
end

