-- ==== Sys2Proof/Machine/Fetch.lean ====
section
/-! DEFINITION. Taking one transaction: what the block does before an instruction's own meaning (30_encoding R120, R126;
log entry 1). -/

namespace Sys2Proof.Machine

/-- What the block finds: an instruction to run, a transaction that is over already, or one that cannot occur. -/
inductive Fetched where
  | run (i : Instr) (s : State)
  | over (s : State)
  | refuse (why : Refusal)
deriving DecidableEq, Repr

/-- One word. A command word that does not decode raises `IllegalCommand(0)` (60_exceptions R404); so does a request
word, on its own port and without touching the error registers (46_csm_option R360). -/
def fetchWord (p : PortWord) (s : State) : Fetched :=
  match p with
  | .cmd w =>
    match decode (.cmd w) with
    | .ok i => .run i s
    | .error _ => .over (raise .illegalCommand 0 w s)
  | .csm q =>
    if s.params.hasCsm then
      match decode (.csm q) with
      | .ok i => .run i s
      | .error _ => .over (csmRespond (errorCode .illegalCommand) 0 s)
    else .refuse .csmAbsent

/-- The next transaction. With none delivered the block holds its state (60_exceptions R421); a hardware reset puts every
element at its reset value and gives no response (70_reset R460, log entry 8). -/
def fetch (s : State) : Fetched :=
  match s.inputs with
  | [] => .over s
  | .reset :: rest => .over (resetBlock { s with inputs := rest })
  | .word p :: rest => fetchWord p { s with inputs := rest }

end Sys2Proof.Machine
end

