-- ==== Sys2Proof/Machine/Step.lean ====
section
/-! DEFINITION. One step: the next transaction, whole (00_scope R5, 20_memory R95). -/

namespace Sys2Proof.Machine

/-- One transaction from the input queue, or nothing when there is none. -/
def step (s : State) : Host.Outcome State Fault Refusal :=
  match fetch s with
  | .run i t => exec i t
  | .over t => .next t
  | .refuse why => .refused why

/-- `s` with the table word delivered as the next transaction, ahead of any other. A request word needs the port that
carries it, so the parameter `HAS_CSM` is set with it (30_encoding R132). Log entries 1 and 2. -/
def State.withFetchWord (s : State) (nbits w : Nat) : State :=
  match tableWord nbits w with
  | some (.cmd v) => { s with inputs := .word (.cmd v) :: s.inputs }
  | some (.csm q) => { s with inputs := .word (.csm q) :: s.inputs, params := { s.params with hasCsm := true } }
  | none => s

end Sys2Proof.Machine
end

