-- ==== Sys2Proof/Machine/Assembler.lean ====
section
/-! DEFINITION. Reading the assembler's text (30_encoding R129, R130, R132): one command per line, operands separated by
commas, numbers decimal, hexadecimal or binary, a semicolon starting a comment. Text is a list of characters. Log entry
13 says what the spec leaves open here. -/

namespace Sys2Proof.Machine

/-- The value of a digit of any base up to 16. -/
def digitValue (c : Char) : Option Nat :=
  let n := c.toNat
  if 48 ≤ n ∧ n ≤ 57 then some (n - 48)
  else if 65 ≤ n ∧ n ≤ 70 then some (n - 55)
  else if 97 ≤ n ∧ n ≤ 102 then some (n - 87)
  else none

/-- The number that digits of a base stand for, after the digits that gave `sofar`. -/
def readDigits (base : Nat) : Nat → List Char → Option Nat
  | sofar, [] => some sofar
  | sofar, c :: cs =>
    match digitValue c with
    | some d => if d < base then readDigits base (base * sofar + d) cs else none
    | none => none

/-- A number: decimal, hexadecimal with `0x`, or binary with `0b` (30_encoding R129). -/
def readNumber : List Char → Option Nat
  | [] => none
  | ['0', 'x'] => none
  | ['0', 'b'] => none
  | '0' :: 'x' :: cs => readDigits 16 0 cs
  | '0' :: 'b' :: cs => readDigits 2 0 cs
  | cs => readDigits 10 0 cs

/-- Pieces of a line between the characters for which `isGap` holds. -/
def pieces (isGap : Char → Bool) : List Char → List (List Char)
  | [] => [[]]
  | c :: cs =>
    match pieces isGap cs with
    | p :: ps => if isGap c then [] :: p :: ps else (c :: p) :: ps
    | [] => [[c]]

/-- Without the blanks around it. -/
def trimmed (cs : List Char) : List Char :=
  ((cs.dropWhile (· == ' ')).reverse.dropWhile (· == ' ')).reverse

/-- The operands of a line: the pieces between commas. -/
def operandsOf (cs : List Char) : List (List Char) :=
  if trimmed cs = [] then [] else (pieces (· == ',') cs).map trimmed

/-- A window: its number, or its name (30_encoding R129). -/
def readWindow (cs : List Char) : Option Nat :=
  if cs = ['C', 'S', 'R'] then some 0
  else if cs = ['R', 'O', 'W'] then some 1
  else if cs = ['C', 'O', 'L'] then some 2
  else if cs = ['D', 'I', 'A', 'G'] then some 3
  else if cs = ['A', 'N', 'T', 'I'] then some 4
  else if cs = ['D', 'I', 'G'] then some 5
  else if cs = ['H', 'B', 'U', 'F'] then some 6
  else readNumber cs

/-- The name of a control and status register (10_state R43). -/
def csrName : Csr → List Char
  | .config => ['C', 'O', 'N', 'F', 'I', 'G']
  | .status => ['S', 'T', 'A', 'T', 'U', 'S']
  | .pos => ['P', 'O', 'S']
  | .hcur => ['H', 'C', 'U', 'R']
  | .pkst => ['P', 'K', 'S', 'T']
  | .pkcnt => ['P', 'K', 'C', 'N', 'T']
  | .outcnt => ['O', 'U', 'T', 'C', 'N', 'T']
  | .esticky => ['E', 'S', 'T', 'I', 'C', 'K', 'Y']
  | .ecode => ['E', 'C', 'O', 'D', 'E']
  | .einfo => ['E', 'I', 'N', 'F', 'O']
  | .ecmd => ['E', 'C', 'M', 'D']
  | .limits => ['L', 'I', 'M', 'I', 'T', 'S']

/-- The bits of a quoted string of `0` and `1` (30_encoding R130). -/
def readBits : List Char → Option (List Bool)
  | '"' :: cs => bitsUpTo cs
  | _ => none
where
  bitsUpTo : List Char → Option (List Bool)
    | ['"'] => some []
    | '0' :: cs => (bitsUpTo cs).map (false :: ·)
    | '1' :: cs => (bitsUpTo cs).map (true :: ·)
    | _ => none

/-- All the numbers, or none. -/
def readNumbers : List (List Char) → Option (List Nat)
  | [] => some []
  | t :: ts => (readNumber t).bind fun n => (readNumbers ts).map (n :: ·)

/-- The numbers of an operand list, for the pseudo-instructions that take at least one byte. -/
def readBytes (ts : List (List Char)) : Option (List Nat) :=
  if ts = [] then none else readNumbers ts

/-- One line of no operand, one, two or three numbers. -/
def lineOfNumbers (name : List Char) (ns : List Nat) : Option AsmLine :=
  match ns with
  | [] =>
    if name = ['C', 'L', 'R'] then some .clr
    else if name = ['R', 'S', 'T'] then some .rst
    else if name = ['P', 'K', 'F'] then some .pkf
    else if name = ['S', 'E', 'R'] then some .ser
    else if name = ['C', 'S', 'M', '.', 'S', 'I', 'Z', 'E'] then some .csmSize
    else none
  | [a] =>
    if name = ['C', 'F', 'G', '.', 'A'] then some (.cfgA a)
    else if name = ['P', 'U', 'S', 'H', 'B'] then some (.pushb a)
    else if name = ['P', 'U', 'S', 'H', 'B', 'I', 'T'] then some (.pushbit a)
    else if name = ['C', 'S', 'M', '.', 'R', 'E', 'S', 'I', 'Z', 'E'] then some (.csmResize a)
    else none
  | [a, b] =>
    if name = ['C', 'F', 'G'] then some (.cfg a b)
    else if name = ['B', 'I', 'T', 'X'] then some (.bitx a b)
    else if name = ['X', 'T', 'R'] then some (.xtr a b)
    else if name = ['P', 'K', 'W'] then some (.pkw a b)
    else if name = ['C', 'S', 'M', '.', 'G', 'E', 'T'] then some (.csmGet a b)
    else if name = ['C', 'S', 'M', '.', 'L', 'O', 'C', 'K'] then some (.csmLock a b)
    else if name = ['C', 'S', 'M', '.', 'I', 'S', 'L', 'O', 'C', 'K', 'E', 'D'] then some (.csmIslocked a b)
    else none
  | [a, b, c] => if name = ['C', 'S', 'M', '.', 'S', 'E', 'T'] then some (.csmSet a b c) else none
  | _ => none

/-- The pseudo-instruction a line names, when it names one (30_encoding R130). -/
def readPseudo (name : List Char) (ops : List (List Char)) : Option Pseudo :=
  if name = ['B', 'L', 'O', 'C', 'K'] then (readBytes ops).map .block
  else if name = ['E', 'N', 'C', 'O', 'D', 'E'] then (readBytes ops).map .encode
  else if name = ['B', 'I', 'T', 'S'] then
    match ops with
    | [t] => (readBits t).map .bits
    | _ => none
  else if name = ['R', 'D', 'C', 'S', 'R'] then
    match ops with
    | [t] => (allCsrs.find? fun reg => csrName reg == t).map .rdcsr
    | _ => none
  else if name = ['R', 'D', 'D', 'I', 'G'] then
    match readNumbers ops with
    | some [r, j] => some (.rddig r j)
    | _ => none
  else none

/-- One line of text as the assembler lines it stands for: none for a blank line, several for a pseudo-instruction. No
answer when the line is not of the syntax. -/
def readLine (cs : List Char) : Option (List AsmLine) :=
  let text := trimmed (cs.takeWhile (· != ';'))
  let name := text.takeWhile (· != ' ')
  let ops := operandsOf (text.drop name.length)
  if text = [] then some []
  else
    match readPseudo name ops with
    | some p => some (expand p)
    | none =>
      if name = ['R', 'D'] then
        match ops with
        | [sel, idx] => (readWindow sel).bind fun a => (readNumber idx).map fun b => [.rd a b]
        | _ => none
      else (readNumbers ops).bind fun ns => (lineOfNumbers name ns).map fun l => [l]

/-- The words of a program text, in order: every line must be of the syntax and well formed (30_encoding R129). -/
def assembleText (cs : List Char) : Option (List PortWord) :=
  assembleLines (pieces (· == '\n') cs)
where
  assembleLines : List (List Char) → Option (List PortWord)
    | [] => some []
    | l :: ls => (readLine l).bind fun as => (assembleAll as).bind fun ws => (assembleLines ls).map (ws ++ ·)
  assembleAll : List AsmLine → Option (List PortWord)
    | [] => some []
    | a :: as => (assemble a).bind fun w => (assembleAll as).map (w :: ·)

end Sys2Proof.Machine
end

