-- ==== Sys2Proof/Safety.lean ====
section
/-! DEFINITION. The terms that statements about the machine use: the closed forms the spec gives for the counters, the row
buffers and the packed output; what a block's state has to do with the bits pushed into it; the invariant of the
machine (10_state R44); the sink's answers ahead; and a run of several instructions. -/

namespace Sys2Proof.Safety

open Sys2Proof.Machine

/-! ## Closed forms -/

/-- The byte whose bit at position `p` is `f p`, position 0 the most significant (00_scope R10). -/
def byteOf (f : Nat → Bool) : Byte :=
  BitVec.ofBool (f 0) ++ BitVec.ofBool (f 1) ++ BitVec.ofBool (f 2) ++ BitVec.ofBool (f 3)
    ++ BitVec.ofBool (f 4) ++ BitVec.ofBool (f 5) ++ BitVec.ofBool (f 6) ++ BitVec.ofBool (f 7)

/-- Bit `j` of a block fed with `bits`; a position not pushed yet counts as 0 (41_cross_sum R199). -/
def pushedBit (bits : List Bool) (j : Nat) : Bool := bits.getD j false

/-- How many 1 bits lie on index `k` of an index map, bit `j` being at row `j / n` and column `j % n` (20_memory R81,
41_cross_sum R190). -/
def bitSum (idx : Nat → Nat → Nat → Nat) (n : Nat) (bits : List Bool) (k : Nat) : Nat :=
  (List.range bits.length).countP fun j => pushedBit bits j && (idx (j / n) (j % n) n == k)

/-- A counter file as `bitSum` gives it. -/
def sumFile (idx : Nat → Nat → Nat → Nat) (n : Nat) (bits : List Bool) : List Counter :=
  (List.range n).map fun k => BitVec.ofNat 16 (bitSum idx n bits k)

/-- The `ceil(n / 8)` bytes of row `r`: column `c` at position `c % 8` of byte `c / 8`, zeros after the row and for bits
not pushed yet (42_row_hash R221, R225). -/
def rowBytes (n : Nat) (bits : List Bool) (r : Nat) : List Byte :=
  (List.range (ceilBytes n)).map fun j => byteOf fun p => decide (8 * j + p < n) && pushedBit bits (r * n + (8 * j + p))

/-- The digest store when the rows before `done` are captured (42_row_hash R224, R229). -/
def digestFile (n : Nat) (bits : List Bool) (done : Nat) : List Config.Digest :=
  (List.range n).map fun r => if r < done then Config.H (rowBytes n bits r) else Config.zeroDigest

/-- Bit `j` of the packed stream of `v` at `n` bits each (43_bit_packer R256). -/
def streamBit (v : List Half) (n j : Nat) : Bool := (v.getD (j / n) 0).getLsbD (n - 1 - j % n)

/-- `PackMatrix(v, w)` in its closed form (43_bit_packer R256). -/
def packMatrix (v : List Half) (w : Nat) : List Byte :=
  let n := min w 16
  (List.range (ceilBytes (v.length * n))).map fun k =>
    byteOf fun p => decide (8 * k + p < v.length * n) && streamBit v n (8 * k + p)

/-- The bytes a successful `SER` emits, from the state (44_serializer R296). -/
def blockOutput (s : State) : List Byte :=
  s.dig.flatMap Vector.toList ++ packMatrix s.row s.width.toNat ++ packMatrix s.col s.width.toNat
    ++ packMatrix s.diag s.width.toNat ++ packMatrix s.anti s.width.toNat

/-- The encoding of a block, from its bits alone: the row digests, then the four sums (20_memory R92). -/
def blockEncoding (n w : Nat) (bits : List Bool) : List Byte :=
  (List.range n).flatMap (fun r => (Config.H (rowBytes n bits r)).toList) ++ packMatrix (sumFile rowIdx n bits) w
    ++ packMatrix (sumFile colIdx n bits) w ++ packMatrix (sumFile diagIdx n bits) w
    ++ packMatrix (sumFile antiIdx n bits) w

/-- The low `n` bits of a value, most significant first (43_bit_packer R254). -/
def valueBits (val : Half) (n : Nat) : List Bool := (List.range n).map fun j => val.getLsbD (n - 1 - j)

/-- The bits waiting in the packer, first placed first (10_state R39). -/
def pendingBits (s : State) : List Bool := (List.range s.pkbit.toNat).map (bitAt s.pkbyte)

/-- Byte `k` of a list of bits cut into bytes, position 0 first, zeros after its end. -/
def byteOfBits (bits : List Bool) (k : Nat) : Byte := byteOf fun p => pushedBit bits (8 * k + p)

/-- `s` with the per-block elements of a fresh block of dimension `n` (45_control R322, 10_state R47). -/
def emptyBlock (n : Nat) (s : State) : State :=
  { s with
    row := List.replicate n 0
    col := List.replicate n 0
    diag := List.replicate n 0
    anti := List.replicate n 0
    dig := List.replicate n Config.zeroDigest
    hbuf := List.replicate ((n + 7) / 8) 0
    hbit := 0
    hbyte := 0
    r := 0
    c := 0 }

/-- The machine's own elements at their reset values, spelled out (10_state R47), beside what a reset leaves alone: the
parameters, the deliveries, the sink and the records of responses. -/
def zeroBlock (s : State) : State :=
  { cfgd := false, dim := 0, width := 0, auto := false, phase := .uncfg, r := 0, c := 0, row := [], col := [], diag := [],
    anti := [], dig := [], hbuf := [], hbit := 0, hbyte := 0, pkbyte := 0, pkbit := 0, pkcnt := 0, out := [], outcnt := 0,
    esticky := 0, ecode := 0, einfo := 0, ecmd := 0, csz := 0, cval := [], clk := [], params := s.params,
    inputs := s.inputs, sink := s.sink, rsp := s.rsp, csmRsp := s.csmRsp }

/-- A control and status register as a number, from the bit ranges of 10_state R43. -/
def csrValue (s : State) : Csr → Nat
  | .config => s.dim.toNat + s.width.toNat * 2 ^ 16 + s.auto.toNat * 2 ^ 23 + s.cfgd.toNat * 2 ^ 31
  | .status => (match s.phase with | .uncfg => 0 | .active => 1 | .abort => 2)
      + (if s.cfgd = true ∧ s.r = s.dim then 4 else 0) + (if s.pkbit = 0 then 0 else 8) + s.params.hasCsm.toNat * 16
  | .pos => s.r.toNat * 2 ^ 16 + s.c.toNat
  | .hcur => s.hbyte.toNat * 2 ^ 16 + s.hbit.toNat
  | .pkst => s.pkbyte.toNat * 2 ^ 8 + s.pkbit.toNat
  | .pkcnt => s.pkcnt.toNat
  | .outcnt => s.outcnt.toNat
  | .esticky => s.esticky.toNat / 2 * 2
  | .ecode => s.ecode.toNat
  | .einfo => s.einfo.toNat
  | .ecmd => s.ecmd.toNat
  | .limits => s.params.sMax.toNat

/-- Byte `k` of digest `r` of the store. -/
def digestByte (s : State) (r k : Nat) : Byte := (s.dig.getD r Config.zeroDigest).toList.getD k 0

/-- Where a window ends and what it holds at an index, as numbers (45_control R330, 20_memory R88; of `HBUF`, log entry 16). -/
def windowValue (s : State) (sel : BitVec 4) (idx : Nat) : Option (Nat × Nat) :=
  let n := s.dim.toNat
  match sel.toNat with
  | 1 => some (n, (s.row.getD idx 0).toNat)
  | 2 => some (n, (s.col.getD idx 0).toNat)
  | 3 => some (n, (s.diag.getD idx 0).toNat)
  | 4 => some (n, (s.anti.getD idx 0).toNat)
  | 5 => some (8 * n, (digestByte s (idx / 8) (4 * (idx % 8))).toNat * 2 ^ 24
      + (digestByte s (idx / 8) (4 * (idx % 8) + 1)).toNat * 2 ^ 16
      + (digestByte s (idx / 8) (4 * (idx % 8) + 2)).toNat * 2 ^ 8
      + (digestByte s (idx / 8) (4 * (idx % 8) + 3)).toNat)
  | 6 => some ((n + 7) / 8, (s.hbuf.getD idx 0).toNat * 2 ^ 24)
  | _ => none

/-! ## The block and the bits pushed into it -/

/-- The block's registers are what the rules make of the bits pushed so far (40_bit_extractor R167, 41_cross_sum R199,
42_row_hash R221 and R224, 10_state R44). -/
structure Tracks (s : State) (bits : List Bool) : Prop where
  dim_pos : 1 ≤ s.dim.toNat
  fits : bits.length ≤ s.dim.toNat * s.dim.toNat
  r : s.r.toNat = bits.length / s.dim.toNat
  c : s.c.toNat = bits.length % s.dim.toNat
  row : s.row = sumFile rowIdx s.dim.toNat bits
  col : s.col = sumFile colIdx s.dim.toNat bits
  diag : s.diag = sumFile diagIdx s.dim.toNat bits
  anti : s.anti = sumFile antiIdx s.dim.toNat bits
  dig : s.dig = digestFile s.dim.toNat bits (bits.length / s.dim.toNat)
  hbuf : s.hbuf = rowBytes s.dim.toNat bits (bits.length / s.dim.toNat)
  hbyte : s.hbyte.toNat = bits.length % s.dim.toNat / 8
  hbit : s.hbit.toNat = bits.length % s.dim.toNat % 8

/-- Nothing is configured and nothing of a block exists (10_state R33, R38, R47). -/
structure Unconfigured (s : State) : Prop where
  phase : s.phase ≠ .active
  config : s.dim = 0 ∧ s.width = 0 ∧ s.auto = false
  position : s.r = 0 ∧ s.c = 0
  files : s.row = [] ∧ s.col = [] ∧ s.diag = [] ∧ s.anti = [] ∧ s.dig = []
  buffer : s.hbuf = [] ∧ s.hbit = 0 ∧ s.hbyte = 0

/-- Every key of a set of cells lies in a grid of size `n` (46_csm_option R360). -/
abbrev cellsInside (n : Nat) (cells : List Nat) : Prop := ∀ k ∈ cells, k / 65536 < n ∧ k % 65536 < n

/-- The invariant of the machine: 10_state R44 with what it rests on. -/
structure Inv (s : State) : Prop where
  /-- `S_MAX` is in its range (00_scope R6) -/
  sMax : s.params.wf
  /-- before any configuration (10_state R44 a) -/
  unconfigured : s.cfgd = false → Unconfigured s
  /-- after one (10_state R44 a to f) -/
  configured : s.cfgd = true → s.phase ≠ .uncfg ∧ s.dim ≤ s.params.sMax ∧ ∃ bits, Tracks s bits
  /-- a derived width is `clog2(S + 1)` (10_state R31) -/
  autoWidth : s.auto = true → s.width.toNat = clog2 (s.dim.toNat + 1)
  /-- the unfilled positions of `PKBYTE` are 0 (10_state R44 g) -/
  packer : ∀ p, s.pkbit.toNat ≤ p → p < 8 → bitAt s.pkbyte p = false
  /-- `OUTCNT` is the length of `OUT` modulo `2 ^ 32` (10_state R40) -/
  outcnt : s.outcnt = BitVec.ofNat 32 s.out.length
  /-- bit 0 of `ESTICKY` is 0 (10_state R41) -/
  stickyZero : s.esticky.getLsbD 0 = false
  /-- `ECODE` is 0 or a code that is remembered in `ESTICKY` (10_state R41, 60_exceptions R405) -/
  lastError : s.ecode.toNat ≤ 6 ∧ (s.ecode = 0 ∨ s.esticky.getLsbD s.ecode.toNat = true)
  /-- the grid's size is within `S_MAX` (46_csm_option R362) -/
  csmSize : s.csz ≤ s.params.sMax
  /-- the cells are held in their one form, inside the grid (10_state R48, log entry 11) -/
  csmCells : cellsWf s.cval ∧ cellsWf s.clk ∧ cellsInside s.csz.toNat s.cval ∧ cellsInside s.csz.toNat s.clk
  /-- without the option there is no grid (10_state R48) -/
  csmAbsent : s.params.hasCsm = false → s.csz = 0

/-! ## The sink ahead -/

/-- The sink's answer to the `j`-th `Emit` from now, `j` from 0 (00_scope R14). -/
def answerAt (k : Sink) (j : Nat) : Option SinkAnswer :=
  match k.queued[j]? with
  | some a => some a
  | none => k.thereafter

/-- The sink accepts the next `n` bytes. -/
abbrev Accepts (k : Sink) (n : Nat) : Prop := ∀ j < n, answerAt k j = some .accept

/-- The sink after it has answered `n` times. -/
def sinkAfter (k : Sink) (n : Nat) : Sink := { k with queued := k.queued.drop n }

/-- `s` with the bytes `vs` accepted by the sink (00_scope R14). -/
def withOutput (vs : List Byte) (s : State) : State :=
  { s with out := s.out ++ vs, outcnt := s.outcnt + BitVec.ofNat 32 vs.length, sink := sinkAfter s.sink vs.length }

/-! ## Outcomes -/

/-- The state after a command that fails with `code` and `info`: the record of 60_exceptions R405 and nothing else. -/
def afterError (code : BitVec 4) (info : Nat) (w : Word) (s : State) : State :=
  { s with
    esticky := s.esticky ||| (1#7 <<< code.toNat)
    ecode := code
    einfo := BitVec.ofNat 32 info
    ecmd := w
    rsp := s.rsp ++ [{ status := code, data := BitVec.ofNat 32 info }] }

/-- The instruction fails: the next state differs by the record of the error alone (60_exceptions R405, R407). -/
def FailsWith (i : Instr) (s : State) (code : BitVec 4) (info : Nat) : Prop :=
  ∃ w, encode i = .cmd w ∧ exec i s = .next (afterError code info w s)

/-- The instruction succeeds with `data`, and the next state is `t` but for the response (30_encoding R121). -/
def SucceedsWith (i : Instr) (s : State) (data : Word) (t : State) : Prop :=
  exec i s = .next { t with rsp := s.rsp ++ [{ status := 0, data := data }] }

/-- A request on port `csm` answers `(status, data)`, and the next state is `t` but for the response (30_encoding
R132). -/
def Answers (i : Instr) (s : State) (status : BitVec 4) (data : Word) (t : State) : Prop :=
  exec i s = .next { t with csmRsp := s.csmRsp ++ [{ status := status, data := data }] }

/-- The instruction ends with `IoError(vs.length)` after the sink accepted `vs` and failed the next byte: the packer is
cleared, the phase is `ABORT`, the rest is kept (60_exceptions R408). -/
def FailsOutput (i : Instr) (s : State) (vs : List Byte) : Prop :=
  ∃ w, encode i = .cmd w ∧
    exec i s = .next (afterError 4 vs.length w
      { withOutput vs s with
        sink := sinkAfter s.sink (vs.length + 1)
        pkbyte := 0
        pkbit := 0
        pkcnt := 0
        phase := .abort })

/-- The sink accepts `k` bytes and fails the one after them. -/
abbrev FailsAt (k : Sink) (n : Nat) : Prop := Accepts k n ∧ answerAt k n = some .fail

/-- The sink accepts `k` bytes and never answers the one after them (U9). -/
abbrev SilentAt (k : Sink) (n : Nat) : Prop := Accepts k n ∧ answerAt k n = none

/-- Whether an instruction is a command of port `cmd`, not a request of port `csm` (30_encoding R120, R132). -/
def isCommand (i : Instr) : Bool :=
  match encode i with
  | .cmd _ => true
  | .csm _ => false

/-- Several instructions, each run to completion before the next (20_memory R95). -/
def runInstrs : List Instr → State → Host.Outcome State Fault Refusal
  | [], s => .next s
  | i :: is, s =>
    match exec i s with
    | .next t => runInstrs is t
    | .fault f => .fault f
    | .refused r => .refused r

/-- The `PUSHBIT` of a bit (30_encoding R130). -/
def pushbitOf (b : Bool) : Instr := .pushbit (if b then 1 else 0)

/-- All the block's state is in order for a push: a configured block with its files at their sizes and its cursors where
the position says (10_state R33, R35, R38, R44 b and c). -/
structure ReadyToPush (s : State) : Prop where
  phase : s.phase = .active
  position : s.r < s.dim ∧ s.c < s.dim
  counters : s.row.length = s.dim.toNat ∧ s.col.length = s.dim.toNat ∧ s.diag.length = s.dim.toNat
    ∧ s.anti.length = s.dim.toNat
  digests : s.dig.length = s.dim.toNat
  buffer : s.hbuf.length = ceilBytes s.dim.toNat
  cursors : s.hbyte.toNat = s.c.toNat / 8 ∧ s.hbit.toNat = s.c.toNat % 8

/-- `SER` passes its four checks (44_serializer R291), and the files have their sizes (10_state R33, R37). -/
structure ReadyToSerialize (s : State) : Prop where
  phase : s.phase = .active
  width : s.width.toNat ≤ 16
  complete : s.r = s.dim
  idle : s.pkbit = 0 ∧ s.pkbyte = 0
  counters : s.row.length = s.dim.toNat ∧ s.col.length = s.dim.toNat ∧ s.diag.length = s.dim.toNat
    ∧ s.anti.length = s.dim.toNat
  digests : s.dig.length = s.dim.toNat

end Sys2Proof.Safety
end

