-- ==== Sys2Proof/Certificates/Slice0/Obligations.lean ====
section
/-! DEFINITION. The statements for the provers. Each says which rules of spec/ it formalises; 'derived' ones cite sections.
Where a statement rests on a choice of the model, it names the log entry. -/

open Sys2Proof Sys2Proof.Machine Sys2Proof.Safety

/-! ## Decoding -/

/-- Every instruction decodes from its own word, on its own port (30_encoding sections 2, 3 and 5). -/
def Obligations.DecodeOfEncodeIsTheInstruction : Prop :=
  ∀ i : Instr, decode (encode i) = .ok i

/-- A word that decodes is the word of the instruction it decodes to: no two words mean the same, and `ECMD`, which the
model writes from the instruction, holds the command word (30_encoding R126; log entry 9). -/
def Obligations.EncodeOfDecodeIsTheWord : Prop :=
  ∀ (p : PortWord) (i : Instr), decode p = .ok i → encode i = p

/-- 30_encoding R128: a command word decodes exactly when a row covers it, to an instruction of that row, and no two rows
cover one word. -/
def Obligations.CommandWordDecodesExactlyOnItsRow : Prop :=
  ∀ w : Word,
    (∀ i, decode (.cmd w) = .ok i → ∃ row ∈ cmdRows, row.mnemonic = mnemonicOf i ∧ row.covers w)
    ∧ ((∃ row ∈ cmdRows, row.covers w) → ∃ i, decode (.cmd w) = .ok i)
    ∧ (∀ row ∈ cmdRows, ∀ other ∈ cmdRows, row.covers w → other.covers w → row = other)

/-- The same of request words and the rows of format Q (30_encoding section 5, opcode_table.json). -/
def Obligations.RequestWordDecodesExactlyOnItsRow : Prop :=
  ∀ q : Request,
    (∀ i, decode (.csm q) = .ok i → ∃ row ∈ csmRows, row.mnemonic = mnemonicOf i ∧ row.covers q)
    ∧ ((∃ row ∈ csmRows, row.covers q) → ∃ i, decode (.csm q) = .ok i)
    ∧ (∀ row ∈ csmRows, ∀ other ∈ csmRows, row.covers q → other.covers q → row = other)

/-- Words written out from the encoding tables, one of each format (30_encoding section 4, 95_test_vectors sections 3 and
4). -/
def Obligations.WrittenOutWordsDecode : Prop :=
  decodeTableWord 32 0x01090200 = some (.cfg 512 9)
  ∧ decodeTableWord 32 0x01800200 = some (.cfgA 512)
  ∧ decodeTableWord 32 0x02000000 = some .clr
  ∧ decodeTableWord 32 0x04500005 = some (.rd 5 5)
  ∧ decodeTableWord 32 0x100000A5 = some (.pushb 0xA5)
  ∧ decodeTableWord 32 0x1200015B = some (.bitx 0x5B 1)
  ∧ decodeTableWord 32 0x2004005B = some (.xtr 0x005B 4)
  ∧ decodeTableWord 64 0x4200000100010002 = some (.csmSet 1 2 1)

/-- A well-formed assembler line assembles, by the sums of the syntax table, to the word of the instruction it names
(30_encoding sections 4 and 5). -/
def Obligations.AssembledLineIsTheInstructionsWord : Prop :=
  ∀ l : AsmLine, l.wf = true → assemble l = some (encode (instrOf l))

/-! ## The step -/

/-- A step whose next delivery decodes runs that instruction's meaning, on the state without the delivery (30_encoding
section 1; log entry 1). A request needs its port. -/
def Obligations.StepRunsTheDecodedInstruction : Prop :=
  ∀ (s : State) (p : PortWord) (rest : List Input) (i : Instr),
    s.inputs = .word p :: rest → decode p = .ok i → (isCommand i = true ∨ s.params.hasCsm = true) →
    step s = exec i { s with inputs := rest }

/-- 60_exceptions R404: an undecodable command word, `RD` of a reserved window or register, and an undecodable request
raise `IllegalCommand` with `info = 0`; `ECMD` is the word; nothing else changes. The request's error is in its response
only (46_csm_option R360). -/
def Obligations.IllegalCommandIsRaised : Prop :=
  (∀ (s : State) (w : Word) (rest : List Input) (e : DecodeError),
    s.inputs = .word (.cmd w) :: rest → decode (.cmd w) = .error e →
    step s = .next (afterError 6 0 w { s with inputs := rest }))
  ∧ (∀ (s : State) (sel : BitVec 4) (idx : BitVec 20),
    (7 ≤ sel.toNat ∨ sel = 0 ∧ 0x0C ≤ idx.toNat) → FailsWith (.rd sel idx) s 6 0)
  ∧ (∀ (s : State) (q : Request) (rest : List Input) (e : DecodeError),
    s.inputs = .word (.csm q) :: rest → decode (.csm q) = .error e → s.params.hasCsm = true →
    step s = .next { s with inputs := rest, csmRsp := s.csmRsp ++ [{ status := 6, data := 0 }] })

/-- With no delivery the block holds its state; a hardware reset puts every element at its reset value (60_exceptions
section 7, 70_reset section 1). That the parameters, the sink, the records of responses and the other deliveries stay is
the model's choice: log entries 1, 4, 6 and 8. -/
def Obligations.WaitingHoldsAndHardwareResetResets : Prop :=
  ∀ s : State,
    (s.inputs = [] → step s = .next s)
    ∧ (∀ rest, s.inputs = .reset :: rest → step s = .next (zeroBlock { s with inputs := rest }))

/-- The state after reset holds every element of 10_state section 11 at the value listed there. The model's own fields
are log entries 1, 2, 4 and 6. -/
def Obligations.ResetHoldsTheListedValues : Prop :=
  State.reset = zeroBlock State.reset ∧ State.reset.params = { sMax := 65535, hasCsm := false }

/-! ## The bit extractor and the feed -/

/-- `BITX` in any phase answers `BitAt` of 40_bit_extractor R160, the bit at the position counted from the most significant
end, and changes nothing else; past position 7 it fails with `RangeError` (40_bit_extractor section 2). -/
def Obligations.BitxAnswersTheBitAtThePosition : Prop :=
  ∀ (byte : Byte) (p : BitVec 4) (s : State),
    (p.toNat ≤ 7 → SucceedsWith (.bitx byte p) s (if byte.getLsbD (7 - p.toNat) then 1 else 0) s)
    ∧ (7 < p.toNat → FailsWith (.bitx byte p) s 1 p.toNat)

/-- `PUSHBIT` adds the bit to one counter of each file, at the four indices of its position, advances the position in
row-major order, and changes nothing but the files, the digest store, the row buffer, its cursors and the position
(40_bit_extractor sections 5 and 6, 41_cross_sum sections 2 and 3). -/
def Obligations.PushbitAddsTheBitToTheFourCounters : Prop :=
  ∀ (s : State) (v : Byte), ReadyToPush s → v.toNat ≤ 1 →
    let n := s.dim.toNat
    let r := s.r.toNat
    let c := s.c.toNat
    ∃ t, exec (.pushbit v) s = .next t
      ∧ (∀ k, k < n →
        t.row.getD k 0 = s.row.getD k 0 + (if k = r then v.setWidth 16 else 0)
        ∧ t.col.getD k 0 = s.col.getD k 0 + (if k = c then v.setWidth 16 else 0)
        ∧ t.diag.getD k 0 = s.diag.getD k 0 + (if k = (r + c) % n then v.setWidth 16 else 0)
        ∧ t.anti.getD k 0 = s.anti.getD k 0 + (if k = (n - r + c - 1) % n then v.setWidth 16 else 0))
      ∧ (t.row.length = n ∧ t.col.length = n ∧ t.diag.length = n ∧ t.anti.length = n)
      ∧ (c + 1 = n → t.r.toNat = r + 1 ∧ t.c = 0)
      ∧ (c + 1 < n → t.r = s.r ∧ t.c.toNat = c + 1)
      ∧ t = { s with
          row := t.row, col := t.col, diag := t.diag, anti := t.anti, dig := t.dig, hbuf := t.hbuf, hbit := t.hbit,
          hbyte := t.hbyte, r := t.r, c := t.c, rsp := s.rsp ++ [{ status := 0, data := 0 }] }

/-- `PUSHBIT` puts the bit at position `c % 8` of byte `c / 8` of the row buffer; with the last bit of the row the digest of
the whole buffer is stored and the buffer and its cursors are cleared (42_row_hash sections 2 and 3). -/
def Obligations.PushbitFillsTheRowBufferAndCapturesTheDigest : Prop :=
  ∀ (s : State) (v : Byte), ReadyToPush s → v.toNat ≤ 1 →
    let r := s.r.toNat
    let c := s.c.toNat
    let buffer := s.hbuf.set (c / 8) (s.hbuf.getD (c / 8) 0 ||| v <<< (7 - c % 8))
    ∃ t, exec (.pushbit v) s = .next t
      ∧ (c + 1 < s.dim.toNat →
        t.hbuf = buffer ∧ t.hbyte.toNat = (c + 1) / 8 ∧ t.hbit.toNat = (c + 1) % 8 ∧ t.dig = s.dig)
      ∧ (c + 1 = s.dim.toNat →
        t.dig = s.dig.set r (Config.H buffer) ∧ t.hbuf = List.replicate ((s.dim.toNat + 7) / 8) 0
        ∧ t.hbyte = 0 ∧ t.hbit = 0)

/-- The refusals of `PUSHBIT`, in the order tested: phase, value, room (40_bit_extractor section 5, 60_exceptions section
3). -/
def Obligations.PushbitRefusesInOrder : Prop :=
  ∀ (s : State) (v : Byte),
    (s.phase ≠ .active → FailsWith (.pushbit v) s 5 (phaseCode s.phase).toNat)
    ∧ (s.phase = .active → 1 < v.toNat → FailsWith (.pushbit v) s 2 v.toNat)
    ∧ (s.phase = .active → v.toNat ≤ 1 → s.dim ≤ s.r → FailsWith (.pushbit v) s 1 s.r.toNat)

/-- `PUSHB` with eight positions left succeeds, and its effect on the state is that of the eight `PUSHBIT` of its bits,
position 0 first; only the number of responses differs (30_encoding section 4, 40_bit_extractor section 4). -/
def Obligations.PushbEqualsEightPushbits : Prop :=
  ∀ (s : State) (v : Byte), ReadyToPush s → 8 ≤ (s.dim.toNat - s.r.toNat) * s.dim.toNat - s.c.toNat →
    ∃ u, runInstrs (((List.range 8).map fun p => v.getLsbD (7 - p)).map pushbitOf) s = .next u
      ∧ SucceedsWith (.pushb v) s 0 u

/-- The refusals of `PUSHB`, in order: phase, then room for all eight bits, or nothing is pushed (40_bit_extractor section
4). -/
def Obligations.PushbRefusesInOrder : Prop :=
  ∀ (s : State) (v : Byte),
    (s.phase ≠ .active → FailsWith (.pushb v) s 5 (phaseCode s.phase).toNat)
    ∧ (s.phase = .active → (s.dim.toNat - s.r.toNat) * s.dim.toNat - s.c.toNat < 8 →
      FailsWith (.pushb v) s 1 ((s.dim.toNat - s.r.toNat) * s.dim.toNat - s.c.toNat))

/-- Pushing bits keeps the block what the rules make of all the bits pushed so far: position, the four sums, the digests of
the completed rows, the buffer of the current row and its cursors (40_bit_extractor section 6, 41_cross_sum section 4,
42_row_hash sections 2 and 3). -/
def Obligations.PushingBitsTracksTheBlock : Prop :=
  ∀ (s : State) (before bits : List Bool),
    s.phase = .active → Tracks s before → before.length + bits.length ≤ s.dim.toNat * s.dim.toNat →
    ∃ t, runInstrs (bits.map pushbitOf) s = .next t ∧ Tracks t (before ++ bits) ∧ t.phase = .active ∧ t.dim = s.dim

/-- `PUSHB` adds its eight bits to the block's bits, position 0 first (20_memory section 2, 40_bit_extractor section 4). -/
def Obligations.PushbTracksTheBlock : Prop :=
  ∀ (s : State) (before : List Bool) (v : Byte),
    s.phase = .active → Tracks s before → before.length + 8 ≤ s.dim.toNat * s.dim.toNat →
    ∃ t, exec (.pushb v) s = .next t ∧ Tracks t (before ++ (List.range 8).map fun p => v.getLsbD (7 - p))

/-- A complete block refuses every further bit: `PUSHBIT` of a valid bit with `RangeError(S)`, `PUSHB` with `RangeError(0)`;
its row buffer is zero and its column is 0 (40_bit_extractor section 6). -/
def Obligations.CompleteBlockTakesNoBit : Prop :=
  ∀ (s : State) (bits : List Bool) (v : Byte),
    s.phase = .active → Tracks s bits → bits.length = s.dim.toNat * s.dim.toNat →
    s.r = s.dim ∧ s.c = 0 ∧ (∀ x ∈ s.hbuf, x = 0)
    ∧ FailsWith (.pushb v) s 1 0
    ∧ (v.toNat ≤ 1 → FailsWith (.pushbit v) s 1 s.dim.toNat)

/-! ## The cross sums -/

/-- 41_cross_sum R191 to R194: the four index maps on the positions of the block. The sums before the reduction are at most
`2n - 2` and below `2 ^ 17`; each map is its source formula, the form with one conditional subtraction, and in range. A
step down and left keeps the diagonal index, a step down and right the anti-diagonal one, which is decided by
`(c - r) mod n` and is `n - 1` on the main diagonal. -/
def Obligations.IndexMapsAreTheSourceFormulas : Prop :=
  ∀ r c n : Nat, n ≤ 65535 → r < n → c < n →
    (rowIdx r c n = r ∧ colIdx r c n = c)
    ∧ (r + c ≤ 2 * n - 2 ∧ n - 1 - r + c ≤ 2 * n - 2 ∧ 2 * n - 2 < 2 ^ 17)
    ∧ (diagIdx r c n = (r + c) % n ∧ diagIdx r c n = (if r + c < n then r + c else r + c - n) ∧ diagIdx r c n < n
      ∧ diagIdx ((r + 1) % n) ((c + n - 1) % n) n = diagIdx r c n)
    ∧ (((antiIdx r c n : Nat) : Int) = ((n : Int) - r + c - 1) % n
      ∧ antiIdx r c n = (if n - 1 - r + c < n then n - 1 - r + c else n - 1 - r + c - n) ∧ antiIdx r c n < n
      ∧ antiIdx ((r + 1) % n) ((c + 1) % n) n = antiIdx r c n
      ∧ (∀ r' c' : Nat, r' < n → c' < n →
        (antiIdx r c n = antiIdx r' c' n ↔ ((c : Int) - r) % n = ((c' : Int) - r') % n))
      ∧ antiIdx r r n = n - 1)

/-- 41_cross_sum R198: the two diagonal maps are bijections of `[0, n)` in either coordinate, for every `n >= 1`, and so
each index of each of the four files collects exactly `n` positions, one in every row and one in every column (of `ROW`,
all of one row; of `COL`, all of one column). -/
def Obligations.DiagonalMapsAreBijections : Prop :=
  ∀ n : Nat, 1 ≤ n →
    (∀ r < n, Set.BijOn (fun c => diagIdx r c n) (Set.Iio n) (Set.Iio n)
      ∧ Set.BijOn (fun c => antiIdx r c n) (Set.Iio n) (Set.Iio n))
    ∧ (∀ c < n, Set.BijOn (fun r => diagIdx r c n) (Set.Iio n) (Set.Iio n)
      ∧ Set.BijOn (fun r => antiIdx r c n) (Set.Iio n) (Set.Iio n))
    ∧ (∀ k < n,
      ((Finset.range n ×ˢ Finset.range n).filter fun p => diagIdx p.1 p.2 n = k).card = n
      ∧ ((Finset.range n ×ˢ Finset.range n).filter fun p => antiIdx p.1 p.2 n = k).card = n
      ∧ ((Finset.range n ×ˢ Finset.range n).filter fun p => rowIdx p.1 p.2 n = k) = {k} ×ˢ Finset.range n
      ∧ ((Finset.range n ×ˢ Finset.range n).filter fun p => colIdx p.1 p.2 n = k) = Finset.range n ×ˢ {k})

/-- Sum law (41_cross_sum section 4): each counter of a block is the number of 1 bits on its row, column, diagonal or
anti-diagonal, `M[r][c]` being the bit pushed at `(r, c)` and 0 where none was pushed yet. -/
def Obligations.CountersCountTheSetBits : Prop :=
  ∀ (s : State) (bits : List Bool), Tracks s bits →
    let n := s.dim.toNat
    let m : Nat → Nat → Bool := fun r c => pushedBit bits (r * n + c)
    ∀ k, k < n →
      (s.row.getD k 0).toNat = (List.range n).countP (fun c => m k c)
      ∧ (s.col.getD k 0).toNat = (List.range n).countP (fun r => m r k)
      ∧ (s.diag.getD k 0).toNat
        = ((Finset.range n ×ˢ Finset.range n).filter fun p => (p.1 + p.2) % n = k ∧ m p.1 p.2 = true).card
      ∧ (s.anti.getD k 0).toNat
        = ((Finset.range n ×ˢ Finset.range n).filter fun p => (n - p.1 + p.2 - 1) % n = k ∧ m p.1 p.2 = true).card

/-- No counter exceeds `S`, so none ever wraps, and the four files have the same sum (10_state section 9, 41_cross_sum
section 4). -/
def Obligations.CountersStayWithinTheDimension : Prop :=
  ∀ s : State, Inv s → s.cfgd = true →
    (∀ x, (x ∈ s.row ∨ x ∈ s.col ∨ x ∈ s.diag ∨ x ∈ s.anti) → x.toNat ≤ s.dim.toNat)
    ∧ (s.row.map BitVec.toNat).sum = (s.col.map BitVec.toNat).sum
    ∧ (s.row.map BitVec.toNat).sum = (s.diag.map BitVec.toNat).sum
    ∧ (s.row.map BitVec.toNat).sum = (s.anti.map BitVec.toNat).sum

/-! ## The row hash -/

/-- 42_row_hash R228: digest equality is byte-wise comparison, and a candidate row is accepted when its digest equals the
stored one. -/
def Obligations.DigestEqualityIsBytewise : Prop :=
  ∀ (x y : Config.Digest) (candidate : List Byte),
    (digestEq x y = true ↔ ∀ k < 32, x.toList.getD k 0 = y.toList.getD k 0)
    ∧ (digestEq x y = true ↔ x = y)
    ∧ (rowAccepted candidate y = true ↔ Config.H candidate = y)

/-- 42_row_hash R226, the row-bytes law: with `S` a multiple of 8, in a block fed with the bits of whole bytes, position 0
first, the digest of each complete row is the digest of that row's input bytes, unchanged. -/
def Obligations.WholeByteRowsAreHashedUnchanged : Prop :=
  ∀ (s : State) (bytes : List Byte) (r : Nat),
    let n := s.dim.toNat
    Tracks s (bytes.flatMap fun v => (List.range 8).map fun p => v.getLsbD (7 - p)) → n % 8 = 0 →
    (r + 1) * n ≤ 8 * bytes.length →
    s.dig.getD r Config.zeroDigest = Config.H ((bytes.drop (r * n / 8)).take ((r + 1) * n / 8 - r * n / 8))

/-! ## The packer -/

/-- `XTR` in any phase answers the low `n = min(w, 16)` bits of the value in reversed order and zeros above, and changes
nothing else (43_bit_packer sections 1 and 4). -/
def Obligations.XtrAnswersTheReversedLowBits : Prop :=
  ∀ (val : Half) (w : BitVec 5) (s : State),
    ∃ d : Word, SucceedsWith (.xtr val w) s d s
      ∧ ∀ j, d.getLsbD j = (decide (j < min w.toNat 16) && val.getLsbD (min w.toNat 16 - 1 - j))

/-- `PKW` appends the value's low bits, most significant first, to the bits waiting in the packer, emits each byte that is
filled, and keeps the rest; the response is the number of bytes emitted (43_bit_packer sections 2 and 5). -/
def Obligations.PkwAppendsTheValueToTheStream : Prop :=
  ∀ (s : State) (val : Half) (w : BitVec 5),
    s.phase ≠ .abort → (∀ p, s.pkbit.toNat ≤ p → p < 8 → bitAt s.pkbyte p = false) →
    let stream := pendingBits s ++ valueBits val (min w.toNat 16)
    let m := stream.length / 8
    Accepts s.sink m →
    SucceedsWith (.pkw val w) s (BitVec.ofNat 32 m)
      { withOutput ((List.range m).map (byteOfBits stream)) s with
        pkbyte := byteOfBits stream m
        pkbit := BitVec.ofNat 3 (stream.length % 8)
        pkcnt := s.pkcnt + BitVec.ofNat 32 m }

/-- `PKF` answers the length of the stream it closes, counted since the last flush and modulo `2 ^ 32`; a partly filled byte
is emitted as it is, and the packer is idle afterwards (43_bit_packer sections 2 and 6). -/
def Obligations.PkfClosesTheStream : Prop :=
  ∀ s : State, s.phase ≠ .abort →
    (s.pkbit = 0 → SucceedsWith .pkf s s.pkcnt { s with pkcnt := 0 })
    ∧ (s.pkbit ≠ 0 → Accepts s.sink 1 →
      SucceedsWith .pkf s (s.pkcnt + 1) { withOutput [s.pkbyte] s with pkbyte := 0, pkbit := 0, pkcnt := 0 })

/-- In `ABORT` both are refused (43_bit_packer sections 5 and 6, 60_exceptions section 1). -/
def Obligations.PackerCommandsAreRefusedInAbort : Prop :=
  ∀ (s : State) (val : Half) (w : BitVec 5), s.phase = .abort → FailsWith (.pkw val w) s 5 2 ∧ FailsWith .pkf s 5 2

/-- A byte that the sink fails ends `PKW` and `PKF` with `IoError` of the number of bytes accepted before it
(60_exceptions section 2). -/
def Obligations.FailedByteAbortsThePacker : Prop :=
  ∀ (s : State) (val : Half) (w : BitVec 5), s.phase ≠ .abort →
    ((∀ p, s.pkbit.toNat ≤ p → p < 8 → bitAt s.pkbyte p = false) →
      let stream := pendingBits s ++ valueBits val (min w.toNat 16)
      ∀ k, k < stream.length / 8 → FailsAt s.sink k →
        FailsOutput (.pkw val w) s ((List.range k).map (byteOfBits stream)))
    ∧ (s.pkbit ≠ 0 → FailsAt s.sink 0 → FailsOutput .pkf s [])

/-- 43_bit_packer R256: from an idle packer, with every byte accepted, the values of a file packed one after another and
flushed emit `PackMatrix` in its closed form, `ceil(m * n / 8)` bytes, and leave the packer idle. -/
def Obligations.PackedFileIsPackMatrix : Prop :=
  ∀ (s : State) (file : List Half) (w : BitVec 5) (k : Nat),
    s.pkbit = 0 → s.pkbyte = 0 → Accepts s.sink (packMatrix file w.toNat).length →
    packFile w file k s
      = .ok (k + (packMatrix file w.toNat).length) { withOutput (packMatrix file w.toNat) s with pkcnt := 0 }
    ∧ (packMatrix file w.toNat).length = (file.length * min w.toNat 16 + 7) / 8
    ∧ ((w = 0 ∨ file = []) → packMatrix file w.toNat = [])

/-! ## The serializer -/

/-- A complete block is serialized: exactly the bytes of 44_serializer R296 are appended, `32 * S + 4 * ceil(S * B / 8)` of
them, which is the response; then the block is fresh and the rest is as before (44_serializer section 1,
20_memory section 5). -/
def Obligations.SerEmitsTheBlock : Prop :=
  ∀ s : State, ReadyToSerialize s → Accepts s.sink (blockOutput s).length →
    (blockOutput s).length = 32 * s.dim.toNat + 4 * ((s.dim.toNat * s.width.toNat + 7) / 8)
    ∧ SucceedsWith .ser s (BitVec.ofNat 32 (32 * s.dim.toNat + 4 * ((s.dim.toNat * s.width.toNat + 7) / 8)))
      { withOutput (blockOutput s) (emptyBlock s.dim.toNat s) with pkcnt := 0 }

/-- End to end: serializing a complete block appends the encoding of the bits pushed into it, the row digests and then the
four packed sums, and leaves a block with no bits (20_memory section 5, 44_serializer section 1, 41_cross_sum section 4,
42_row_hash section 3). -/
def Obligations.SerEncodesThePushedBits : Prop :=
  ∀ (s : State) (bits : List Bool),
    s.phase = .active → Tracks s bits → bits.length = s.dim.toNat * s.dim.toNat → s.width.toNat ≤ 16 →
    s.pkbit = 0 → s.pkbyte = 0 → Accepts s.sink (blockEncoding s.dim.toNat s.width.toNat bits).length →
    ∃ t, exec .ser s = .next t ∧ t.out = s.out ++ blockEncoding s.dim.toNat s.width.toNat bits ∧ Tracks t []

/-- 44_serializer R291: the four checks of `SER`, in order, phase, width, completeness, packer; the first that fails ends
the command with nothing changed but the error registers. In a state of the machine the count of missing bits is at least
1 and below `2 ^ 32`. -/
def Obligations.SerRefusesInOrder : Prop :=
  ∀ s : State,
    let missing := s.dim.toNat * s.dim.toNat - (s.r.toNat * s.dim.toNat + s.c.toNat)
    (s.phase ≠ .active → FailsWith .ser s 5 (phaseCode s.phase).toNat)
    ∧ (s.phase = .active → 16 < s.width.toNat → FailsWith .ser s 1 s.width.toNat)
    ∧ (s.phase = .active → s.width.toNat ≤ 16 → s.r ≠ s.dim → FailsWith .ser s 5 missing)
    ∧ (s.phase = .active → s.width.toNat ≤ 16 → s.r = s.dim → s.pkbit ≠ 0 → FailsWith .ser s 5 s.pkbit.toNat)
    ∧ (Inv s → s.phase = .active → s.r ≠ s.dim → 1 ≤ missing ∧ missing < 2 ^ 32)

/-- A byte that the sink fails ends `SER`: the bytes before it stay, the block's elements are as they were, the packer is
cleared and the phase is `ABORT` (44_serializer R295, 60_exceptions R408). -/
def Obligations.FailedByteAbortsSer : Prop :=
  ∀ (s : State) (k : Nat), ReadyToSerialize s → k < (blockOutput s).length → FailsAt s.sink k →
    FailsOutput .ser s ((blockOutput s).take k)

/-- A sink that never answers leaves the three emitting commands without an end: the model stops with its one fault
(93_implementation_defined U9; log entry 5). -/
def Obligations.SilentSinkStopsTheEmittingCommands : Prop :=
  (∀ (s : State) (k : Nat), ReadyToSerialize s → k < (blockOutput s).length → SilentAt s.sink k →
    exec .ser s = .fault .sinkSilent)
  ∧ (∀ (s : State) (val : Half) (w : BitVec 5) (k : Nat), s.phase ≠ .abort →
    k < (s.pkbit.toNat + min w.toNat 16) / 8 → SilentAt s.sink k → exec (.pkw val w) s = .fault .sinkSilent)
  ∧ (∀ s : State, s.phase ≠ .abort → s.pkbit ≠ 0 → SilentAt s.sink 0 → exec .pkf s = .fault .sinkSilent)

/-! ## Configuration, reset, read-back -/

/-- `CFG` and `CFG.A` with a legal dimension, in any phase: the configuration, a fresh block, `ACTIVE`, and the width as
the response; packer, output and error registers are untouched (45_control section 1). -/
def Obligations.CfgBuildsAFreshBlock : Prop :=
  ∀ (s : State) (n : Half) (b : BitVec 5), n ≠ 0 → n ≤ s.params.sMax →
    SucceedsWith (.cfg n b) s (b.setWidth 32)
      { emptyBlock n.toNat s with cfgd := true, dim := n, width := b, auto := false, phase := .active }
    ∧ SucceedsWith (.cfgA n) s (BitVec.ofNat 32 (clog2 (n.toNat + 1)))
      { emptyBlock n.toNat s with
        cfgd := true, dim := n, width := BitVec.ofNat 5 (clog2 (n.toNat + 1)), auto := true, phase := .active }

/-- A dimension of 0 or above `S_MAX` is a `ConstructionError` and changes nothing (45_control section 1, 60_exceptions
section 1). -/
def Obligations.CfgRefusesAnIllegalDimension : Prop :=
  ∀ (s : State) (n : Half) (b : BitVec 5), (n = 0 ∨ s.params.sMax < n) →
    FailsWith (.cfg n b) s 3 n.toNat ∧ FailsWith (.cfgA n) s 3 n.toNat

/-- 45_control R321: the derived width is the least that holds every value up to `S`, from 1 to 16; a successful `CFG.A`
sets it, and `SER`'s width check then passes; at `S = 512` it is 10. -/
def Obligations.DerivedWidthIsTheLeastLossless : Prop :=
  (∀ (s : State) (n : Half), n ≠ 0 → n ≤ s.params.sMax →
    ∃ t, exec (.cfgA n) s = .next t
      ∧ n.toNat < 2 ^ t.width.toNat ∧ (∀ k, n.toNat < 2 ^ k → t.width.toNat ≤ k)
      ∧ 1 ≤ t.width.toNat ∧ t.width.toNat ≤ 16)
  ∧ clog2 513 = 10

/-- The block that `Fresh` leaves is the block of no bits (45_control section 1, 40_bit_extractor section 6). -/
def Obligations.FreshBlockTracksNoBits : Prop :=
  ∀ s : State, s.dim ≠ 0 → Tracks (fresh s) []

/-- `CLR` in any phase: with a configuration the block is fresh and `ACTIVE`, without one the phase is `UNCFG`; all else
stays (45_control section 2). -/
def Obligations.ClrStartsANewBlock : Prop :=
  ∀ s : State,
    (s.cfgd = true → SucceedsWith .clr s 0 { emptyBlock s.dim.toNat s with phase := .active })
    ∧ (s.cfgd = false → SucceedsWith .clr s 0 { s with phase := .uncfg })

/-- `RST` in any phase: every element at its reset value, and the response (45_control section 3). That parameters,
deliveries, sink and records stay is log entries 1, 4 and 6. -/
def Obligations.RstResetsEveryElement : Prop :=
  ∀ s : State, SucceedsWith .rst s 0 (zeroBlock s)

/-- `RD` of window 0 answers the register as the bit ranges of 10_state R43 lay it out, in any phase, and changes nothing
(10_state section 8, 45_control section 4). -/
def Obligations.RdAnswersTheRegisters : Prop :=
  ∀ (s : State) (reg : Csr) (idx : BitVec 20), idx.toNat = csrNumber reg →
    ∃ d : Word, SucceedsWith (.rd 0 idx) s d s ∧ d.toNat = csrValue s reg

/-- `RD` of windows 1 to 6 answers the element, the word of a digest with its lowest byte most significant, or the buffer
byte in the most significant byte of the data, in any phase once configured, and changes nothing (45_control section 4,
20_memory section 3, 92_eei_decisions D17). For the buffer byte the model follows 20_memory section 3 and D17 over the
table of 45_control section 4: log entry 16. -/
def Obligations.RdAnswersTheWindows : Prop :=
  ∀ (s : State) (sel : BitVec 4) (idx : BitVec 20) (limit value : Nat),
    s.cfgd = true → windowValue s sel idx.toNat = some (limit, value) → idx.toNat < limit →
    ∃ d : Word, SucceedsWith (.rd sel idx) s d s ∧ d.toNat = value

/-- The refusals of `RD` of windows 1 to 6, in order: configuration, then index (45_control section 4). -/
def Obligations.RdRefusesInOrder : Prop :=
  ∀ (s : State) (sel : BitVec 4) (idx : BitVec 20) (limit value : Nat),
    windowValue s sel idx.toNat = some (limit, value) →
    (s.cfgd = false → FailsWith (.rd sel idx) s 5 (phaseCode s.phase).toNat)
    ∧ (s.cfgd = true → limit ≤ idx.toNat → FailsWith (.rd sel idx) s 1 idx.toNat)

/-! ## The candidate solution matrix -/

/-- 46_csm_option R362: a legal `CSM.RESIZE` makes a grid of that size with every cell clear and unlocked; size 0 or above
`S_MAX` is a `ConstructionError` that changes nothing. The cells of the grid are read by the model's `cellRead`. -/
def Obligations.CsmResizeClearsTheGrid : Prop :=
  ∀ (s : State) (n : Half), s.params.hasCsm = true →
    (n = 0 → Answers (.csmResize n) s 3 0 s)
    ∧ (s.params.sMax < n → Answers (.csmResize n) s 3 (BitVec.ofNat 32 n.toNat) s)
    ∧ (n ≠ 0 → n ≤ s.params.sMax →
      Answers (.csmResize n) s 0 (BitVec.ofNat 32 n.toNat) { s with csz := n, cval := [], clk := [] }
      ∧ ∀ r c : Half, cellRead [] (cellKey r c) = false)

/-- `CSM.GET`, `CSM.ISLOCKED` and `CSM.SIZE` answer the cell's bit, its lock and the size, and change nothing
(46_csm_option section 2). -/
def Obligations.CsmReadsAnswerTheCell : Prop :=
  ∀ (s : State) (r c : Half), s.params.hasCsm = true →
    (r < s.csz → c < s.csz →
      Answers (.csmGet r c) s 0 (if cellKey r c ∈ s.cval then 1 else 0) s
      ∧ Answers (.csmIslocked r c) s 0 (if cellKey r c ∈ s.clk then 1 else 0) s)
    ∧ Answers .csmSize s 0 (BitVec.ofNat 32 s.csz.toNat) s

/-- `CSM.SET` in bounds: a value other than 0 or 1 is an `InvalidValue` and changes nothing; with a valid bit, the cell
locked or not, that cell's bit becomes the value, every other cell's bit and every lock stay, and the cells keep their one
form (46_csm_option section 2; the form is log entry 11). -/
def Obligations.CsmSetWritesOneCell : Prop :=
  ∀ (s : State) (r c : Half) (v : Byte), s.params.hasCsm = true → r < s.csz → c < s.csz →
    (1 < v.toNat → Answers (.csmSet r c v) s 2 (BitVec.ofNat 32 v.toNat) s)
    ∧ (v.toNat ≤ 1 →
      ∃ cells, Answers (.csmSet r c v) s 0 0 { s with cval := cells }
        ∧ cellRead cells (cellKey r c) = (v == 1)
        ∧ (∀ r' c' : Half, (r', c') ≠ (r, c) → cellRead cells (cellKey r' c') = cellRead s.cval (cellKey r' c'))
        ∧ (cellsWf s.cval → cellsWf cells))

/-- `CSM.LOCK` in bounds locks that cell, locked or not before; every other lock and every bit stay (46_csm_option section
2). -/
def Obligations.CsmLockLocksOneCell : Prop :=
  ∀ (s : State) (r c : Half), s.params.hasCsm = true → r < s.csz → c < s.csz →
    ∃ cells, Answers (.csmLock r c) s 0 0 { s with clk := cells }
      ∧ cellRead cells (cellKey r c) = true
      ∧ (∀ r' c' : Half, (r', c') ≠ (r, c) → cellRead cells (cellKey r' c') = cellRead s.clk (cellKey r' c'))
      ∧ (cellsWf s.clk → cellsWf cells)
      ∧ (cellsWf s.clk → cellKey r c ∈ s.clk → cells = s.clk)

/-- 46_csm_option R361: `GET`, `SET`, `LOCK` and `ISLOCKED` out of bounds are a `RangeError` with the row as data when the
row is out of bounds, else the column, and change nothing; before any `RESIZE` every coordinate fails. -/
def Obligations.CsmOutOfBoundsIsARangeError : Prop :=
  ∀ (s : State) (r c : Half) (v : Byte), s.params.hasCsm = true →
    (∀ i ∈ [Instr.csmGet r c, .csmSet r c v, .csmLock r c, .csmIslocked r c],
      (s.csz ≤ r → Answers i s 1 (BitVec.ofNat 32 r.toNat) s)
      ∧ (r < s.csz → s.csz ≤ c → Answers i s 1 (BitVec.ofNat 32 c.toNat) s)
      ∧ (s.csz = 0 → Answers i s 1 (BitVec.ofNat 32 r.toNat) s))

/-- Without the option there is no port, so a request is refused by name, whether it decodes or not (30_encoding section
5; log entry 12). -/
def Obligations.AbsentPortRefusesEveryRequest : Prop :=
  ∀ s : State, s.params.hasCsm = false →
    (∀ i, isCommand i = false → exec i s = .refused .csmAbsent)
    ∧ (∀ q rest, s.inputs = .word (.csm q) :: rest → step s = .refused .csmAbsent)

/-! ## The whole machine -/

/-- The invariant holds at reset (10_state section 9). -/
def Obligations.InvariantHoldsAtReset : Prop := Inv State.reset

/-- Every step keeps the invariant: 10_state section 9, with the derived width, `OUTCNT`, the error registers and the form
of the CSM's cells, from every state that has it. -/
def Obligations.EveryStepKeepsTheInvariant : Prop :=
  ∀ s t : State, Inv s → step s = .next t → Inv t

/-- What 10_state section 9 says of a configured block, from the invariant: position, cursors, zero bits of the row buffer
at and after the cursor, and zero counters of the rows not begun. -/
def Obligations.InvariantGivesTheListedClauses : Prop :=
  ∀ s : State, Inv s →
    (s.phase = .uncfg → s.cfgd = false) ∧ (s.phase = .active → s.cfgd = true)
    ∧ (s.cfgd = true →
      (1 ≤ s.dim.toNat ∧ s.dim ≤ s.params.sMax ∧ s.r ≤ s.dim ∧ s.c < s.dim ∧ (s.r = s.dim → s.c = 0))
      ∧ (s.hbyte.toNat = s.c.toNat / 8 ∧ s.hbit.toNat = s.c.toNat % 8)
      ∧ (∀ j p, p < 8 → s.c.toNat ≤ 8 * j + p → bitAt (s.hbuf.getD j 0) p = false)
      ∧ (∀ k, (s.r.toNat < k ∨ k = s.r.toNat ∧ s.c = 0) → s.row.getD k 0 = 0)
      ∧ (∀ k, s.r.toNat ≤ k → k < s.dim.toNat → s.dig.getD k Config.zeroDigest = Config.zeroDigest))

/-- 60_exceptions R405: every command gives exactly one response. A nonzero status is one of the six codes and is recorded:
its sticky bit, `ECODE`, `EINFO` the response's data, `ECMD` the command word; and for every kind but `IoError` no other
element changes. A successful command other than `RST` changes none of the error registers (10_state R41). -/
def Obligations.EveryErrorIsRecordedAndPrecise : Prop :=
  ∀ (i : Instr) (w : Word) (s t : State), encode i = .cmd w → exec i s = .next t →
    ∃ answer : Response, t.rsp = s.rsp ++ [answer] ∧ t.csmRsp = s.csmRsp
      ∧ (answer.status = 0 → i ≠ .rst →
        t.esticky = s.esticky ∧ t.ecode = s.ecode ∧ t.einfo = s.einfo ∧ t.ecmd = s.ecmd)
      ∧ (answer.status ≠ 0 →
        answer.status.toNat ≤ 6 ∧ t.esticky = s.esticky ||| (1#7 <<< answer.status.toNat)
        ∧ t.ecode = answer.status ∧ t.einfo = answer.data ∧ t.ecmd = w)
      ∧ (answer.status ≠ 0 → answer.status ≠ 4 → t = afterError answer.status answer.data.toNat w s)

/-- An `IoError` ends only `SER`, `PKW` and `PKF`, leaves the configuration and the block as before, clears the packer,
enters `ABORT`, and keeps `k` more bytes of output, `k` being its data (60_exceptions section 2). -/
def Obligations.IoErrorKeepsTheBlock : Prop :=
  ∀ (i : Instr) (s t : State) (answer : Response),
    exec i s = .next t → t.rsp = s.rsp ++ [answer] → answer.status = 4 →
    (i = .ser ∨ i = .pkf ∨ ∃ val w, i = .pkw val w)
    ∧ ∃ vs : List Byte, answer.data = BitVec.ofNat 32 vs.length ∧ FailsAt s.sink vs.length
      ∧ FailsOutput i s vs

/-- No instruction changes the parameters or the deliveries; none but the three emitting commands touches the sink; none
but those and `RST` touches the output or its count; and only `RST`, which starts a new record, shortens the record of the
output (00_scope sections 3 and 4, 20_memory section 1, 60_exceptions section 2, 45_control section 3, 10_state section 6).
That instructions, `RST` too, leave the deliveries and the sink alone is the model's choice: log entries 1 and 4. -/
def Obligations.OnlyEmittingCommandsWriteOutput : Prop :=
  ∀ (i : Instr) (s t : State), exec i s = .next t →
    t.params = s.params ∧ t.inputs = s.inputs
    ∧ (i ≠ .rst → s.out <+: t.out)
    ∧ (i ≠ .ser → i ≠ .pkf → (∀ val w, i ≠ .pkw val w) →
      t.sink = s.sink ∧ (i ≠ .rst → t.out = s.out ∧ t.outcnt = s.outcnt))

/-- A command that leaves `ABORT` is `CLR`, `CFG` or `RST` (10_state section 3, 60_exceptions section 5). -/
def Obligations.OnlyClrCfgRstLeaveAbort : Prop :=
  ∀ (i : Instr) (s t : State), exec i s = .next t → s.phase = .abort → t.phase ≠ .abort →
    i = .clr ∨ i = .rst ∨ (∃ n b, i = .cfg n b) ∨ ∃ n, i = .cfgA n

/-- The CSM and the encode pipeline share nothing: a request changes only the grid and its own record of responses, and a
command other than `RST` leaves the grid and that record alone (46_csm_option section 1). -/
def Obligations.CsmAndPipelineShareNothing : Prop :=
  ∀ (i : Instr) (s t : State), exec i s = .next t →
    (isCommand i = false → t = { s with csz := t.csz, cval := t.cval, clk := t.clk, csmRsp := t.csmRsp })
    ∧ (isCommand i = true → t.csmRsp = s.csmRsp
      ∧ (i ≠ .rst → t.csz = s.csz ∧ t.cval = s.cval ∧ t.clk = s.clk))

/-- No command word, operand or sink answer stops the block: with a sink that goes on answering, every step of a
transaction that can occur has a next state (60_exceptions section 5, 70_reset section 4; U9's hypothesis on the sink). -/
def Obligations.EveryTransactionCompletes : Prop :=
  ∀ s : State, s.sink.thereafter ≠ none →
    (s.params.hasCsm = true ∨ ∀ q rest, s.inputs ≠ .word (.csm q) :: rest) →
    ∃ t, step s = .next t
end

