-- ==== Sys2Proof/Laws/Decode.lean ====
section
/-! SUPPORT. Words as numbers: what each format adds up to, and the field that `extractLsb'` cuts out, so that facts about
encodings are arithmetic (30_encoding R123, R129, R132). -/

namespace Sys2Proof

theorem toNat_append_sum {m n : Nat} (x : BitVec m) (y : BitVec n) : (x ++ y).toNat = x.toNat * 2 ^ n + y.toNat := by
  rw [BitVec.toNat_append, ← Nat.shiftLeft_add_eq_or_of_lt y.isLt, Nat.shiftLeft_eq]

theorem toNat_field {m : Nat} (x : BitVec m) (low n : Nat) : (x.extractLsb' low n).toNat = x.toNat / 2 ^ low % 2 ^ n := by
  simp [BitVec.extractLsb'_toNat, Nat.shiftRight_eq_div_pow]

theorem toNat_wordZ (op : Byte) : (wordZ op).toNat = op.toNat * 2 ^ 24 := by
  simp only [wordZ, toNat_append_sum, BitVec.toNat_ofNat]
  omega

theorem toNat_wordC (auto : BitVec 1) (b : BitVec 5) (n : Half) :
    (wordC auto b n).toNat = 2 ^ 24 + auto.toNat * 2 ^ 23 + b.toNat * 2 ^ 16 + n.toNat := by
  simp only [wordC, toNat_append_sum, BitVec.toNat_ofNat, show opCfg.toNat = 1 from rfl]
  omega

theorem toNat_wordV (op v : Byte) : (wordV op v).toNat = op.toNat * 2 ^ 24 + v.toNat := by
  simp only [wordV, toNat_append_sum, BitVec.toNat_ofNat]
  omega

theorem toNat_wordX (op : Byte) (p : BitVec 4) (byte : Byte) :
    (wordX op p byte).toNat = op.toNat * 2 ^ 24 + p.toNat * 2 ^ 8 + byte.toNat := by
  simp only [wordX, toNat_append_sum, BitVec.toNat_ofNat]
  omega

theorem toNat_wordW (op : Byte) (width : BitVec 5) (val : Half) :
    (wordW op width val).toNat = op.toNat * 2 ^ 24 + width.toNat * 2 ^ 16 + val.toNat := by
  simp only [wordW, toNat_append_sum, BitVec.toNat_ofNat]
  omega

theorem toNat_wordA (op : Byte) (sel : BitVec 4) (idx : BitVec 20) :
    (wordA op sel idx).toNat = op.toNat * 2 ^ 24 + sel.toNat * 2 ^ 20 + idx.toNat := by
  simp only [wordA, toNat_append_sum]
  omega

theorem toNat_requestQ (cop v : Byte) (r c : Half) :
    (requestQ cop v r c).toNat = cop.toNat * 2 ^ 56 + v.toNat * 2 ^ 32 + r.toNat * 2 ^ 16 + c.toNat := by
  simp only [requestQ, toNat_append_sum, BitVec.toNat_ofNat]
  omega

/-- A mask of the bits from `low` up keeps the number above them. -/
theorem and_highMask_eq_iff {n : Nat} (w m mask : BitVec n) (low : Nat)
    (hmask : mask = BitVec.allOnes n <<< low) :
    w &&& mask = m ↔ w.toNat / 2 ^ low * 2 ^ low = m.toNat := by
  have key : (w &&& mask) = (w >>> low) <<< low := by
    subst hmask
    apply BitVec.eq_of_getLsbD_eq
    intro i hi
    simp only [BitVec.getLsbD_and, BitVec.getLsbD_shiftLeft, BitVec.getLsbD_allOnes, BitVec.getLsbD_ushiftRight]
    by_cases h : i < low
    · simp [h]
    · simp [h, hi, show low + (i - low) = i by omega, show i - low < n by omega]
  rw [key, ← BitVec.toNat_inj, BitVec.toNat_shiftLeft, BitVec.toNat_ushiftRight, Nat.shiftLeft_eq,
    Nat.shiftRight_eq_div_pow, Nat.mod_eq_of_lt]
  exact lt_of_le_of_lt (Nat.div_mul_le_self _ _) w.isLt

/-! ## The decoder, opcode by opcode (30_encoding R125, R126) -/

theorem decodeCmd_of_opCfg {w : Word} (h : w.extractLsb' 24 8 = opCfg) : decodeCmd w = decodeC w := by
  simp only [decodeCmd, h]; rfl

theorem decodeCmd_of_opClr {w : Word} (h : w.extractLsb' 24 8 = opClr) : decodeCmd w = decodeZ .clr w := by
  simp only [decodeCmd, h]; rfl

theorem decodeCmd_of_opRst {w : Word} (h : w.extractLsb' 24 8 = opRst) : decodeCmd w = decodeZ .rst w := by
  simp only [decodeCmd, h]; rfl

theorem decodeCmd_of_opRd {w : Word} (h : w.extractLsb' 24 8 = opRd) : decodeCmd w = decodeA .rd w := by
  simp only [decodeCmd, h]; rfl

theorem decodeCmd_of_opPushb {w : Word} (h : w.extractLsb' 24 8 = opPushb) : decodeCmd w = decodeV .pushb w := by
  simp only [decodeCmd, h]; rfl

theorem decodeCmd_of_opPushbit {w : Word} (h : w.extractLsb' 24 8 = opPushbit) : decodeCmd w = decodeV .pushbit w := by
  simp only [decodeCmd, h]; rfl

theorem decodeCmd_of_opBitx {w : Word} (h : w.extractLsb' 24 8 = opBitx) : decodeCmd w = decodeX .bitx w := by
  simp only [decodeCmd, h]; rfl

theorem decodeCmd_of_opXtr {w : Word} (h : w.extractLsb' 24 8 = opXtr) : decodeCmd w = decodeW .xtr w := by
  simp only [decodeCmd, h]; rfl

theorem decodeCmd_of_opPkw {w : Word} (h : w.extractLsb' 24 8 = opPkw) : decodeCmd w = decodeW .pkw w := by
  simp only [decodeCmd, h]; rfl

theorem decodeCmd_of_opPkf {w : Word} (h : w.extractLsb' 24 8 = opPkf) : decodeCmd w = decodeZ .pkf w := by
  simp only [decodeCmd, h]; rfl

theorem decodeCmd_of_opSer {w : Word} (h : w.extractLsb' 24 8 = opSer) : decodeCmd w = decodeZ .ser w := by
  simp only [decodeCmd, h]; rfl

/-- A command word that decodes has one of the eleven opcodes. -/
theorem decodeCmd_opcode {w : Word} {i : Instr} (h : decodeCmd w = .ok i) :
    w.extractLsb' 24 8 ∈ [opCfg, opClr, opRst, opRd, opPushb, opPushbit, opBitx, opXtr, opPkw, opPkf, opSer] := by
  by_contra hn
  simp only [List.mem_cons, List.not_mem_nil, or_false, not_or] at hn
  obtain ⟨h1, h2, h3, h4, h5, h6, h7, h8, h9, h10, h11⟩ := hn
  simp only [decodeCmd, h1, h2, h3, h4, h5, h6, h7, h8, h9, h10, h11, ↓reduceIte, reduceCtorEq] at h

theorem whenZero_eq_ok {zero : Prop} [Decidable zero] {e : Except DecodeError Instr} {i : Instr} :
    whenZero zero e = .ok i ↔ zero ∧ e = .ok i := by
  unfold whenZero; split <;> simp [*]

theorem whenRequestZero_eq_ok {zero : Prop} [Decidable zero] {i j : Instr} :
    whenRequestZero zero i = .ok j ↔ zero ∧ i = j := by
  unfold whenRequestZero; split <;> simp [*]

end Sys2Proof
end

