-- ==== Sys2Proof/Laws/Operands.lean ====
section
/-! SUPPORT. What the pure functions answer: bits of bytes, the bit stack, the derived width, element updates. -/

namespace Sys2Proof.Machine

open Sys2Proof.Safety

/-! ## Bits of a byte (00_scope R10) -/

theorem getLsbD_byteWithBit (bit : Bool) (p i : Nat) (hp : p < 8) :
    (byteWithBit bit p).getLsbD i = (decide (i = 7 - p) && bit) := by
  rw [Bool.eq_iff_iff]
  simp only [byteWithBit, BitVec.getLsbD_shiftLeft, BitVec.getLsbD_setWidth, BitVec.getLsbD_ofBool, Bool.and_eq_true,
    Bool.not_eq_true', decide_eq_true_eq, decide_eq_false_iff_not]
  constructor
  · rintro ⟨⟨h1, h2⟩, h3, h4, h5⟩
    exact ⟨by omega, h5⟩
  · rintro ⟨rfl, h⟩
    exact ⟨⟨by omega, by omega⟩, by omega, by omega, h⟩

theorem bitAt_byteWithBit (bit : Bool) (p q : Nat) (hp : p < 8) (hq : q < 8) :
    bitAt (byteWithBit bit p) q = (decide (q = p) && bit) := by
  rw [bitAt, getLsbD_byteWithBit _ _ _ hp]
  congr 1
  exact decide_eq_decide.2 (by omega)

@[simp] theorem bitAt_or (x y : Byte) (p : Nat) : bitAt (x ||| y) p = (bitAt x p || bitAt y p) := by simp [bitAt]

@[simp] theorem bitAt_zero (p : Nat) : bitAt 0 p = false := by simp [bitAt]

/-- A byte is the bits at its eight positions. -/
theorem byte_ext {x y : Byte} (h : ∀ p < 8, bitAt x p = bitAt y p) : x = y := by
  apply BitVec.eq_of_getLsbD_eq
  intro i hi
  have := h (7 - i) (by omega)
  rwa [bitAt, bitAt, show 7 - (7 - i) = i by omega] at this

theorem bitAt_byteOf (f : Nat → Bool) (p : Nat) (hp : p < 8) : bitAt (byteOf f) p = f p := by
  have : p = 0 ∨ p = 1 ∨ p = 2 ∨ p = 3 ∨ p = 4 ∨ p = 5 ∨ p = 6 ∨ p = 7 := by omega
  rcases this with rfl | rfl | rfl | rfl | rfl | rfl | rfl | rfl <;>
    simp only [bitAt, byteOf, BitVec.getLsbD_append, BitVec.getLsbD_ofBool] <;> simp

theorem byteOf_congr {f g : Nat → Bool} (h : ∀ p < 8, f p = g p) : byteOf f = byteOf g :=
  byte_ext fun p hp => by rw [bitAt_byteOf f p hp, bitAt_byteOf g p hp, h p hp]

theorem byteOf_bitAt (x : Byte) : byteOf (bitAt x) = x := byte_ext fun p hp => bitAt_byteOf _ p hp

@[simp] theorem byteOf_false : byteOf (fun _ => false) = 0 := by decide

/-! ## The bit stack (43_bit_packer R250) -/

theorem clampWidth_le (w : BitVec 5) : clampWidth w ≤ 16 := by simp [clampWidth, Config.wmax]

theorem clampWidth_eq (w : BitVec 5) : clampWidth w = min w.toNat 16 := rfl

theorem getLsbD_extractBits (v : Half) (n j : Nat) (hn : n ≤ 16) :
    (extractBits v n).getLsbD j = (decide (j < n) && v.getLsbD (n - 1 - j)) := by
  induction n generalizing j with
  | zero => simp [extractBits]
  | succ n ih =>
    have ih := fun j => ih j (by omega)
    simp only [extractBits, BitVec.getLsbD_or, BitVec.getLsbD_shiftLeft, BitVec.getLsbD_setWidth, BitVec.getLsbD_ofBool, ih]
    rw [Bool.eq_iff_iff]
    cases j with
    | zero => simp
    | succ j =>
      rw [show n + 1 - 1 - (j + 1) = n - 1 - j by omega]
      simp
      omega

/-! ## The derived width (00_scope R12) -/

theorem clog2From_spec (n fuel k : Nat) (hmin : ∀ j < k, 2 ^ j < n) (hfuel : n ≤ 2 ^ (k + fuel)) :
    n ≤ 2 ^ clog2From n fuel k ∧ ∀ j < clog2From n fuel k, 2 ^ j < n := by
  induction fuel generalizing k with
  | zero => exact ⟨by simpa [clog2From] using hfuel, by simpa [clog2From] using hmin⟩
  | succ fuel ih =>
    simp only [clog2From]
    split
    · exact ⟨by assumption, hmin⟩
    · refine ih (k + 1) (fun j hj => ?_) (by rwa [show k + 1 + fuel = k + (fuel + 1) by omega])
      by_cases h : j = k
      · subst h; omega
      · exact hmin j (by omega)

/-- `clog2 n` is the least exponent with `n` at most that power of two. -/
theorem clog2_le_iff (n k : Nat) : clog2 n ≤ k ↔ n ≤ 2 ^ k := by
  have h := clog2From_spec n n 0 (by omega) (by simpa using Nat.lt_two_pow_self.le)
  constructor
  · exact fun hk => h.1.trans (Nat.pow_le_pow_right (by omega) hk)
  · intro hk
    by_contra hlt
    exact absurd (h.2 k (by simpa [clog2] using hlt)) (by omega)

/-! ## Bytes in the data of an RD (20_memory R88) -/

/-- Four bytes, the first most significant. -/
theorem toNat_packBytes_four (a b c d : Byte) :
    (packBytes [a, b, c, d]).toNat = a.toNat * 2 ^ 24 + b.toNat * 2 ^ 16 + c.toNat * 2 ^ 8 + d.toNat := by
  simp only [packBytes, element, List.getD_cons_zero, List.getD_cons_succ, toNat_append_sum]
  omega

/-- One byte alone stands in `data[31:24]`. -/
theorem toNat_packBytes_one (a : Byte) : (packBytes [a]).toNat = a.toNat * 2 ^ 24 := by
  simp only [packBytes, element, List.getD_cons_zero, List.getD_cons_succ, List.getD_nil, toNat_append_sum,
    BitVec.ofNat_eq_ofNat, BitVec.toNat_ofNat]
  omega

/-! ## Elements -/

@[simp] theorem length_addBit (file : List Counter) (i : Nat) (bit : Bool) : (addBit file i bit).length = file.length := by
  simp [addBit, writeElement]

theorem getD_addBit {file : List Counter} {i k : Nat} (bit : Bool) (hk : k < file.length) :
    (addBit file i bit).getD k 0 = file.getD k 0 + (if k = i then (BitVec.ofBool bit).setWidth 16 else 0) := by
  simp only [addBit, writeElement, element]
  by_cases h : k = i
  · subst h
    simp [hk]
  · simp [h, Ne.symm h]

end Sys2Proof.Machine
end

