-- ==== Sys2Proof/Laws/State.lean ====
section
/-! SUPPORT. What each update of the state leaves in each field: one lemma a field, true by definition, so that no proof
unfolds a record update. -/

namespace Sys2Proof.Machine

/-! ## respond -/

@[simp] theorem respond_cfgd (data : Word) (s : State) : (respond data s).cfgd = s.cfgd := rfl
@[simp] theorem respond_dim (data : Word) (s : State) : (respond data s).dim = s.dim := rfl
@[simp] theorem respond_width (data : Word) (s : State) : (respond data s).width = s.width := rfl
@[simp] theorem respond_auto (data : Word) (s : State) : (respond data s).auto = s.auto := rfl
@[simp] theorem respond_phase (data : Word) (s : State) : (respond data s).phase = s.phase := rfl
@[simp] theorem respond_r (data : Word) (s : State) : (respond data s).r = s.r := rfl
@[simp] theorem respond_c (data : Word) (s : State) : (respond data s).c = s.c := rfl
@[simp] theorem respond_row (data : Word) (s : State) : (respond data s).row = s.row := rfl
@[simp] theorem respond_col (data : Word) (s : State) : (respond data s).col = s.col := rfl
@[simp] theorem respond_diag (data : Word) (s : State) : (respond data s).diag = s.diag := rfl
@[simp] theorem respond_anti (data : Word) (s : State) : (respond data s).anti = s.anti := rfl
@[simp] theorem respond_dig (data : Word) (s : State) : (respond data s).dig = s.dig := rfl
@[simp] theorem respond_hbuf (data : Word) (s : State) : (respond data s).hbuf = s.hbuf := rfl
@[simp] theorem respond_hbit (data : Word) (s : State) : (respond data s).hbit = s.hbit := rfl
@[simp] theorem respond_hbyte (data : Word) (s : State) : (respond data s).hbyte = s.hbyte := rfl
@[simp] theorem respond_pkbyte (data : Word) (s : State) : (respond data s).pkbyte = s.pkbyte := rfl
@[simp] theorem respond_pkbit (data : Word) (s : State) : (respond data s).pkbit = s.pkbit := rfl
@[simp] theorem respond_pkcnt (data : Word) (s : State) : (respond data s).pkcnt = s.pkcnt := rfl
@[simp] theorem respond_out (data : Word) (s : State) : (respond data s).out = s.out := rfl
@[simp] theorem respond_outcnt (data : Word) (s : State) : (respond data s).outcnt = s.outcnt := rfl
@[simp] theorem respond_esticky (data : Word) (s : State) : (respond data s).esticky = s.esticky := rfl
@[simp] theorem respond_ecode (data : Word) (s : State) : (respond data s).ecode = s.ecode := rfl
@[simp] theorem respond_einfo (data : Word) (s : State) : (respond data s).einfo = s.einfo := rfl
@[simp] theorem respond_ecmd (data : Word) (s : State) : (respond data s).ecmd = s.ecmd := rfl
@[simp] theorem respond_csz (data : Word) (s : State) : (respond data s).csz = s.csz := rfl
@[simp] theorem respond_cval (data : Word) (s : State) : (respond data s).cval = s.cval := rfl
@[simp] theorem respond_clk (data : Word) (s : State) : (respond data s).clk = s.clk := rfl
@[simp] theorem respond_params (data : Word) (s : State) : (respond data s).params = s.params := rfl
@[simp] theorem respond_inputs (data : Word) (s : State) : (respond data s).inputs = s.inputs := rfl
@[simp] theorem respond_sink (data : Word) (s : State) : (respond data s).sink = s.sink := rfl
@[simp] theorem respond_rsp (data : Word) (s : State) : (respond data s).rsp = s.rsp ++ [{ status := 0, data := data }] := rfl
@[simp] theorem respond_csmRsp (data : Word) (s : State) : (respond data s).csmRsp = s.csmRsp := rfl

/-! ## raise -/

@[simp] theorem raise_cfgd (k : ErrorKind) (info : Nat) (w : Word) (s : State) : (raise k info w s).cfgd = s.cfgd := rfl
@[simp] theorem raise_dim (k : ErrorKind) (info : Nat) (w : Word) (s : State) : (raise k info w s).dim = s.dim := rfl
@[simp] theorem raise_width (k : ErrorKind) (info : Nat) (w : Word) (s : State) : (raise k info w s).width = s.width := rfl
@[simp] theorem raise_auto (k : ErrorKind) (info : Nat) (w : Word) (s : State) : (raise k info w s).auto = s.auto := rfl
@[simp] theorem raise_phase (k : ErrorKind) (info : Nat) (w : Word) (s : State) : (raise k info w s).phase = s.phase := rfl
@[simp] theorem raise_r (k : ErrorKind) (info : Nat) (w : Word) (s : State) : (raise k info w s).r = s.r := rfl
@[simp] theorem raise_c (k : ErrorKind) (info : Nat) (w : Word) (s : State) : (raise k info w s).c = s.c := rfl
@[simp] theorem raise_row (k : ErrorKind) (info : Nat) (w : Word) (s : State) : (raise k info w s).row = s.row := rfl
@[simp] theorem raise_col (k : ErrorKind) (info : Nat) (w : Word) (s : State) : (raise k info w s).col = s.col := rfl
@[simp] theorem raise_diag (k : ErrorKind) (info : Nat) (w : Word) (s : State) : (raise k info w s).diag = s.diag := rfl
@[simp] theorem raise_anti (k : ErrorKind) (info : Nat) (w : Word) (s : State) : (raise k info w s).anti = s.anti := rfl
@[simp] theorem raise_dig (k : ErrorKind) (info : Nat) (w : Word) (s : State) : (raise k info w s).dig = s.dig := rfl
@[simp] theorem raise_hbuf (k : ErrorKind) (info : Nat) (w : Word) (s : State) : (raise k info w s).hbuf = s.hbuf := rfl
@[simp] theorem raise_hbit (k : ErrorKind) (info : Nat) (w : Word) (s : State) : (raise k info w s).hbit = s.hbit := rfl
@[simp] theorem raise_hbyte (k : ErrorKind) (info : Nat) (w : Word) (s : State) : (raise k info w s).hbyte = s.hbyte := rfl
@[simp] theorem raise_pkbyte (k : ErrorKind) (info : Nat) (w : Word) (s : State) : (raise k info w s).pkbyte = s.pkbyte := rfl
@[simp] theorem raise_pkbit (k : ErrorKind) (info : Nat) (w : Word) (s : State) : (raise k info w s).pkbit = s.pkbit := rfl
@[simp] theorem raise_pkcnt (k : ErrorKind) (info : Nat) (w : Word) (s : State) : (raise k info w s).pkcnt = s.pkcnt := rfl
@[simp] theorem raise_out (k : ErrorKind) (info : Nat) (w : Word) (s : State) : (raise k info w s).out = s.out := rfl
@[simp] theorem raise_outcnt (k : ErrorKind) (info : Nat) (w : Word) (s : State) : (raise k info w s).outcnt = s.outcnt := rfl
@[simp] theorem raise_esticky (k : ErrorKind) (info : Nat) (w : Word) (s : State) : (raise k info w s).esticky = stickyWith k s.esticky := rfl
@[simp] theorem raise_ecode (k : ErrorKind) (info : Nat) (w : Word) (s : State) : (raise k info w s).ecode = errorCode k := rfl
@[simp] theorem raise_einfo (k : ErrorKind) (info : Nat) (w : Word) (s : State) : (raise k info w s).einfo = BitVec.ofNat 32 info := rfl
@[simp] theorem raise_ecmd (k : ErrorKind) (info : Nat) (w : Word) (s : State) : (raise k info w s).ecmd = w := rfl
@[simp] theorem raise_csz (k : ErrorKind) (info : Nat) (w : Word) (s : State) : (raise k info w s).csz = s.csz := rfl
@[simp] theorem raise_cval (k : ErrorKind) (info : Nat) (w : Word) (s : State) : (raise k info w s).cval = s.cval := rfl
@[simp] theorem raise_clk (k : ErrorKind) (info : Nat) (w : Word) (s : State) : (raise k info w s).clk = s.clk := rfl
@[simp] theorem raise_params (k : ErrorKind) (info : Nat) (w : Word) (s : State) : (raise k info w s).params = s.params := rfl
@[simp] theorem raise_inputs (k : ErrorKind) (info : Nat) (w : Word) (s : State) : (raise k info w s).inputs = s.inputs := rfl
@[simp] theorem raise_sink (k : ErrorKind) (info : Nat) (w : Word) (s : State) : (raise k info w s).sink = s.sink := rfl
@[simp] theorem raise_rsp (k : ErrorKind) (info : Nat) (w : Word) (s : State) : (raise k info w s).rsp = s.rsp ++ [{ status := errorCode k, data := BitVec.ofNat 32 info }] := rfl
@[simp] theorem raise_csmRsp (k : ErrorKind) (info : Nat) (w : Word) (s : State) : (raise k info w s).csmRsp = s.csmRsp := rfl

/-! ## raiseIo -/

@[simp] theorem raiseIo_cfgd (k : Nat) (w : Word) (s : State) : (raiseIo k w s).cfgd = s.cfgd := rfl
@[simp] theorem raiseIo_dim (k : Nat) (w : Word) (s : State) : (raiseIo k w s).dim = s.dim := rfl
@[simp] theorem raiseIo_width (k : Nat) (w : Word) (s : State) : (raiseIo k w s).width = s.width := rfl
@[simp] theorem raiseIo_auto (k : Nat) (w : Word) (s : State) : (raiseIo k w s).auto = s.auto := rfl
@[simp] theorem raiseIo_phase (k : Nat) (w : Word) (s : State) : (raiseIo k w s).phase = .abort := rfl
@[simp] theorem raiseIo_r (k : Nat) (w : Word) (s : State) : (raiseIo k w s).r = s.r := rfl
@[simp] theorem raiseIo_c (k : Nat) (w : Word) (s : State) : (raiseIo k w s).c = s.c := rfl
@[simp] theorem raiseIo_row (k : Nat) (w : Word) (s : State) : (raiseIo k w s).row = s.row := rfl
@[simp] theorem raiseIo_col (k : Nat) (w : Word) (s : State) : (raiseIo k w s).col = s.col := rfl
@[simp] theorem raiseIo_diag (k : Nat) (w : Word) (s : State) : (raiseIo k w s).diag = s.diag := rfl
@[simp] theorem raiseIo_anti (k : Nat) (w : Word) (s : State) : (raiseIo k w s).anti = s.anti := rfl
@[simp] theorem raiseIo_dig (k : Nat) (w : Word) (s : State) : (raiseIo k w s).dig = s.dig := rfl
@[simp] theorem raiseIo_hbuf (k : Nat) (w : Word) (s : State) : (raiseIo k w s).hbuf = s.hbuf := rfl
@[simp] theorem raiseIo_hbit (k : Nat) (w : Word) (s : State) : (raiseIo k w s).hbit = s.hbit := rfl
@[simp] theorem raiseIo_hbyte (k : Nat) (w : Word) (s : State) : (raiseIo k w s).hbyte = s.hbyte := rfl
@[simp] theorem raiseIo_pkbyte (k : Nat) (w : Word) (s : State) : (raiseIo k w s).pkbyte = 0 := rfl
@[simp] theorem raiseIo_pkbit (k : Nat) (w : Word) (s : State) : (raiseIo k w s).pkbit = 0 := rfl
@[simp] theorem raiseIo_pkcnt (k : Nat) (w : Word) (s : State) : (raiseIo k w s).pkcnt = 0 := rfl
@[simp] theorem raiseIo_out (k : Nat) (w : Word) (s : State) : (raiseIo k w s).out = s.out := rfl
@[simp] theorem raiseIo_outcnt (k : Nat) (w : Word) (s : State) : (raiseIo k w s).outcnt = s.outcnt := rfl
@[simp] theorem raiseIo_esticky (k : Nat) (w : Word) (s : State) : (raiseIo k w s).esticky = stickyWith .ioError s.esticky := rfl
@[simp] theorem raiseIo_ecode (k : Nat) (w : Word) (s : State) : (raiseIo k w s).ecode = 4 := rfl
@[simp] theorem raiseIo_einfo (k : Nat) (w : Word) (s : State) : (raiseIo k w s).einfo = BitVec.ofNat 32 k := rfl
@[simp] theorem raiseIo_ecmd (k : Nat) (w : Word) (s : State) : (raiseIo k w s).ecmd = w := rfl
@[simp] theorem raiseIo_csz (k : Nat) (w : Word) (s : State) : (raiseIo k w s).csz = s.csz := rfl
@[simp] theorem raiseIo_cval (k : Nat) (w : Word) (s : State) : (raiseIo k w s).cval = s.cval := rfl
@[simp] theorem raiseIo_clk (k : Nat) (w : Word) (s : State) : (raiseIo k w s).clk = s.clk := rfl
@[simp] theorem raiseIo_params (k : Nat) (w : Word) (s : State) : (raiseIo k w s).params = s.params := rfl
@[simp] theorem raiseIo_inputs (k : Nat) (w : Word) (s : State) : (raiseIo k w s).inputs = s.inputs := rfl
@[simp] theorem raiseIo_sink (k : Nat) (w : Word) (s : State) : (raiseIo k w s).sink = s.sink := rfl
@[simp] theorem raiseIo_rsp (k : Nat) (w : Word) (s : State) : (raiseIo k w s).rsp = s.rsp ++ [{ status := 4, data := BitVec.ofNat 32 k }] := rfl
@[simp] theorem raiseIo_csmRsp (k : Nat) (w : Word) (s : State) : (raiseIo k w s).csmRsp = s.csmRsp := rfl

/-! ## csmRespond -/

@[simp] theorem csmRespond_cfgd (status : BitVec 4) (data : Word) (s : State) : (csmRespond status data s).cfgd = s.cfgd := rfl
@[simp] theorem csmRespond_dim (status : BitVec 4) (data : Word) (s : State) : (csmRespond status data s).dim = s.dim := rfl
@[simp] theorem csmRespond_width (status : BitVec 4) (data : Word) (s : State) : (csmRespond status data s).width = s.width := rfl
@[simp] theorem csmRespond_auto (status : BitVec 4) (data : Word) (s : State) : (csmRespond status data s).auto = s.auto := rfl
@[simp] theorem csmRespond_phase (status : BitVec 4) (data : Word) (s : State) : (csmRespond status data s).phase = s.phase := rfl
@[simp] theorem csmRespond_r (status : BitVec 4) (data : Word) (s : State) : (csmRespond status data s).r = s.r := rfl
@[simp] theorem csmRespond_c (status : BitVec 4) (data : Word) (s : State) : (csmRespond status data s).c = s.c := rfl
@[simp] theorem csmRespond_row (status : BitVec 4) (data : Word) (s : State) : (csmRespond status data s).row = s.row := rfl
@[simp] theorem csmRespond_col (status : BitVec 4) (data : Word) (s : State) : (csmRespond status data s).col = s.col := rfl
@[simp] theorem csmRespond_diag (status : BitVec 4) (data : Word) (s : State) : (csmRespond status data s).diag = s.diag := rfl
@[simp] theorem csmRespond_anti (status : BitVec 4) (data : Word) (s : State) : (csmRespond status data s).anti = s.anti := rfl
@[simp] theorem csmRespond_dig (status : BitVec 4) (data : Word) (s : State) : (csmRespond status data s).dig = s.dig := rfl
@[simp] theorem csmRespond_hbuf (status : BitVec 4) (data : Word) (s : State) : (csmRespond status data s).hbuf = s.hbuf := rfl
@[simp] theorem csmRespond_hbit (status : BitVec 4) (data : Word) (s : State) : (csmRespond status data s).hbit = s.hbit := rfl
@[simp] theorem csmRespond_hbyte (status : BitVec 4) (data : Word) (s : State) : (csmRespond status data s).hbyte = s.hbyte := rfl
@[simp] theorem csmRespond_pkbyte (status : BitVec 4) (data : Word) (s : State) : (csmRespond status data s).pkbyte = s.pkbyte := rfl
@[simp] theorem csmRespond_pkbit (status : BitVec 4) (data : Word) (s : State) : (csmRespond status data s).pkbit = s.pkbit := rfl
@[simp] theorem csmRespond_pkcnt (status : BitVec 4) (data : Word) (s : State) : (csmRespond status data s).pkcnt = s.pkcnt := rfl
@[simp] theorem csmRespond_out (status : BitVec 4) (data : Word) (s : State) : (csmRespond status data s).out = s.out := rfl
@[simp] theorem csmRespond_outcnt (status : BitVec 4) (data : Word) (s : State) : (csmRespond status data s).outcnt = s.outcnt := rfl
@[simp] theorem csmRespond_esticky (status : BitVec 4) (data : Word) (s : State) : (csmRespond status data s).esticky = s.esticky := rfl
@[simp] theorem csmRespond_ecode (status : BitVec 4) (data : Word) (s : State) : (csmRespond status data s).ecode = s.ecode := rfl
@[simp] theorem csmRespond_einfo (status : BitVec 4) (data : Word) (s : State) : (csmRespond status data s).einfo = s.einfo := rfl
@[simp] theorem csmRespond_ecmd (status : BitVec 4) (data : Word) (s : State) : (csmRespond status data s).ecmd = s.ecmd := rfl
@[simp] theorem csmRespond_csz (status : BitVec 4) (data : Word) (s : State) : (csmRespond status data s).csz = s.csz := rfl
@[simp] theorem csmRespond_cval (status : BitVec 4) (data : Word) (s : State) : (csmRespond status data s).cval = s.cval := rfl
@[simp] theorem csmRespond_clk (status : BitVec 4) (data : Word) (s : State) : (csmRespond status data s).clk = s.clk := rfl
@[simp] theorem csmRespond_params (status : BitVec 4) (data : Word) (s : State) : (csmRespond status data s).params = s.params := rfl
@[simp] theorem csmRespond_inputs (status : BitVec 4) (data : Word) (s : State) : (csmRespond status data s).inputs = s.inputs := rfl
@[simp] theorem csmRespond_sink (status : BitVec 4) (data : Word) (s : State) : (csmRespond status data s).sink = s.sink := rfl
@[simp] theorem csmRespond_rsp (status : BitVec 4) (data : Word) (s : State) : (csmRespond status data s).rsp = s.rsp := rfl
@[simp] theorem csmRespond_csmRsp (status : BitVec 4) (data : Word) (s : State) : (csmRespond status data s).csmRsp = s.csmRsp ++ [{ status := status, data := data }] := rfl

/-! ## fresh -/

@[simp] theorem fresh_cfgd (s : State) : (fresh s).cfgd = s.cfgd := rfl
@[simp] theorem fresh_dim (s : State) : (fresh s).dim = s.dim := rfl
@[simp] theorem fresh_width (s : State) : (fresh s).width = s.width := rfl
@[simp] theorem fresh_auto (s : State) : (fresh s).auto = s.auto := rfl
@[simp] theorem fresh_phase (s : State) : (fresh s).phase = s.phase := rfl
@[simp] theorem fresh_r (s : State) : (fresh s).r = 0 := rfl
@[simp] theorem fresh_c (s : State) : (fresh s).c = 0 := rfl
@[simp] theorem fresh_row (s : State) : (fresh s).row = List.replicate s.dim.toNat 0 := rfl
@[simp] theorem fresh_col (s : State) : (fresh s).col = List.replicate s.dim.toNat 0 := rfl
@[simp] theorem fresh_diag (s : State) : (fresh s).diag = List.replicate s.dim.toNat 0 := rfl
@[simp] theorem fresh_anti (s : State) : (fresh s).anti = List.replicate s.dim.toNat 0 := rfl
@[simp] theorem fresh_dig (s : State) : (fresh s).dig = List.replicate s.dim.toNat Config.zeroDigest := rfl
@[simp] theorem fresh_hbuf (s : State) : (fresh s).hbuf = List.replicate (ceilBytes s.dim.toNat) 0 := rfl
@[simp] theorem fresh_hbit (s : State) : (fresh s).hbit = 0 := rfl
@[simp] theorem fresh_hbyte (s : State) : (fresh s).hbyte = 0 := rfl
@[simp] theorem fresh_pkbyte (s : State) : (fresh s).pkbyte = s.pkbyte := rfl
@[simp] theorem fresh_pkbit (s : State) : (fresh s).pkbit = s.pkbit := rfl
@[simp] theorem fresh_pkcnt (s : State) : (fresh s).pkcnt = s.pkcnt := rfl
@[simp] theorem fresh_out (s : State) : (fresh s).out = s.out := rfl
@[simp] theorem fresh_outcnt (s : State) : (fresh s).outcnt = s.outcnt := rfl
@[simp] theorem fresh_esticky (s : State) : (fresh s).esticky = s.esticky := rfl
@[simp] theorem fresh_ecode (s : State) : (fresh s).ecode = s.ecode := rfl
@[simp] theorem fresh_einfo (s : State) : (fresh s).einfo = s.einfo := rfl
@[simp] theorem fresh_ecmd (s : State) : (fresh s).ecmd = s.ecmd := rfl
@[simp] theorem fresh_csz (s : State) : (fresh s).csz = s.csz := rfl
@[simp] theorem fresh_cval (s : State) : (fresh s).cval = s.cval := rfl
@[simp] theorem fresh_clk (s : State) : (fresh s).clk = s.clk := rfl
@[simp] theorem fresh_params (s : State) : (fresh s).params = s.params := rfl
@[simp] theorem fresh_inputs (s : State) : (fresh s).inputs = s.inputs := rfl
@[simp] theorem fresh_sink (s : State) : (fresh s).sink = s.sink := rfl
@[simp] theorem fresh_rsp (s : State) : (fresh s).rsp = s.rsp := rfl
@[simp] theorem fresh_csmRsp (s : State) : (fresh s).csmRsp = s.csmRsp := rfl

/-! ## acc -/

@[simp] theorem acc_cfgd (r c : Nat) (bit : Bool) (s : State) : (acc r c bit s).cfgd = s.cfgd := rfl
@[simp] theorem acc_dim (r c : Nat) (bit : Bool) (s : State) : (acc r c bit s).dim = s.dim := rfl
@[simp] theorem acc_width (r c : Nat) (bit : Bool) (s : State) : (acc r c bit s).width = s.width := rfl
@[simp] theorem acc_auto (r c : Nat) (bit : Bool) (s : State) : (acc r c bit s).auto = s.auto := rfl
@[simp] theorem acc_phase (r c : Nat) (bit : Bool) (s : State) : (acc r c bit s).phase = s.phase := rfl
@[simp] theorem acc_r (r c : Nat) (bit : Bool) (s : State) : (acc r c bit s).r = s.r := rfl
@[simp] theorem acc_c (r c : Nat) (bit : Bool) (s : State) : (acc r c bit s).c = s.c := rfl
@[simp] theorem acc_row (r c : Nat) (bit : Bool) (s : State) : (acc r c bit s).row = addBit s.row (rowIdx r c s.dim.toNat) bit := rfl
@[simp] theorem acc_col (r c : Nat) (bit : Bool) (s : State) : (acc r c bit s).col = addBit s.col (colIdx r c s.dim.toNat) bit := rfl
@[simp] theorem acc_diag (r c : Nat) (bit : Bool) (s : State) : (acc r c bit s).diag = addBit s.diag (diagIdx r c s.dim.toNat) bit := rfl
@[simp] theorem acc_anti (r c : Nat) (bit : Bool) (s : State) : (acc r c bit s).anti = addBit s.anti (antiIdx r c s.dim.toNat) bit := rfl
@[simp] theorem acc_dig (r c : Nat) (bit : Bool) (s : State) : (acc r c bit s).dig = s.dig := rfl
@[simp] theorem acc_hbuf (r c : Nat) (bit : Bool) (s : State) : (acc r c bit s).hbuf = s.hbuf := rfl
@[simp] theorem acc_hbit (r c : Nat) (bit : Bool) (s : State) : (acc r c bit s).hbit = s.hbit := rfl
@[simp] theorem acc_hbyte (r c : Nat) (bit : Bool) (s : State) : (acc r c bit s).hbyte = s.hbyte := rfl
@[simp] theorem acc_pkbyte (r c : Nat) (bit : Bool) (s : State) : (acc r c bit s).pkbyte = s.pkbyte := rfl
@[simp] theorem acc_pkbit (r c : Nat) (bit : Bool) (s : State) : (acc r c bit s).pkbit = s.pkbit := rfl
@[simp] theorem acc_pkcnt (r c : Nat) (bit : Bool) (s : State) : (acc r c bit s).pkcnt = s.pkcnt := rfl
@[simp] theorem acc_out (r c : Nat) (bit : Bool) (s : State) : (acc r c bit s).out = s.out := rfl
@[simp] theorem acc_outcnt (r c : Nat) (bit : Bool) (s : State) : (acc r c bit s).outcnt = s.outcnt := rfl
@[simp] theorem acc_esticky (r c : Nat) (bit : Bool) (s : State) : (acc r c bit s).esticky = s.esticky := rfl
@[simp] theorem acc_ecode (r c : Nat) (bit : Bool) (s : State) : (acc r c bit s).ecode = s.ecode := rfl
@[simp] theorem acc_einfo (r c : Nat) (bit : Bool) (s : State) : (acc r c bit s).einfo = s.einfo := rfl
@[simp] theorem acc_ecmd (r c : Nat) (bit : Bool) (s : State) : (acc r c bit s).ecmd = s.ecmd := rfl
@[simp] theorem acc_csz (r c : Nat) (bit : Bool) (s : State) : (acc r c bit s).csz = s.csz := rfl
@[simp] theorem acc_cval (r c : Nat) (bit : Bool) (s : State) : (acc r c bit s).cval = s.cval := rfl
@[simp] theorem acc_clk (r c : Nat) (bit : Bool) (s : State) : (acc r c bit s).clk = s.clk := rfl
@[simp] theorem acc_params (r c : Nat) (bit : Bool) (s : State) : (acc r c bit s).params = s.params := rfl
@[simp] theorem acc_inputs (r c : Nat) (bit : Bool) (s : State) : (acc r c bit s).inputs = s.inputs := rfl
@[simp] theorem acc_sink (r c : Nat) (bit : Bool) (s : State) : (acc r c bit s).sink = s.sink := rfl
@[simp] theorem acc_rsp (r c : Nat) (bit : Bool) (s : State) : (acc r c bit s).rsp = s.rsp := rfl
@[simp] theorem acc_csmRsp (r c : Nat) (bit : Bool) (s : State) : (acc r c bit s).csmRsp = s.csmRsp := rfl

/-! ## capture -/

@[simp] theorem capture_cfgd (r : Nat) (s : State) : (capture r s).cfgd = s.cfgd := rfl
@[simp] theorem capture_dim (r : Nat) (s : State) : (capture r s).dim = s.dim := rfl
@[simp] theorem capture_width (r : Nat) (s : State) : (capture r s).width = s.width := rfl
@[simp] theorem capture_auto (r : Nat) (s : State) : (capture r s).auto = s.auto := rfl
@[simp] theorem capture_phase (r : Nat) (s : State) : (capture r s).phase = s.phase := rfl
@[simp] theorem capture_r (r : Nat) (s : State) : (capture r s).r = s.r := rfl
@[simp] theorem capture_c (r : Nat) (s : State) : (capture r s).c = s.c := rfl
@[simp] theorem capture_row (r : Nat) (s : State) : (capture r s).row = s.row := rfl
@[simp] theorem capture_col (r : Nat) (s : State) : (capture r s).col = s.col := rfl
@[simp] theorem capture_diag (r : Nat) (s : State) : (capture r s).diag = s.diag := rfl
@[simp] theorem capture_anti (r : Nat) (s : State) : (capture r s).anti = s.anti := rfl
@[simp] theorem capture_dig (r : Nat) (s : State) : (capture r s).dig = writeElement s.dig r (Config.H s.hbuf) := rfl
@[simp] theorem capture_hbuf (r : Nat) (s : State) : (capture r s).hbuf = List.replicate s.hbuf.length 0 := rfl
@[simp] theorem capture_hbit (r : Nat) (s : State) : (capture r s).hbit = 0 := rfl
@[simp] theorem capture_hbyte (r : Nat) (s : State) : (capture r s).hbyte = 0 := rfl
@[simp] theorem capture_pkbyte (r : Nat) (s : State) : (capture r s).pkbyte = s.pkbyte := rfl
@[simp] theorem capture_pkbit (r : Nat) (s : State) : (capture r s).pkbit = s.pkbit := rfl
@[simp] theorem capture_pkcnt (r : Nat) (s : State) : (capture r s).pkcnt = s.pkcnt := rfl
@[simp] theorem capture_out (r : Nat) (s : State) : (capture r s).out = s.out := rfl
@[simp] theorem capture_outcnt (r : Nat) (s : State) : (capture r s).outcnt = s.outcnt := rfl
@[simp] theorem capture_esticky (r : Nat) (s : State) : (capture r s).esticky = s.esticky := rfl
@[simp] theorem capture_ecode (r : Nat) (s : State) : (capture r s).ecode = s.ecode := rfl
@[simp] theorem capture_einfo (r : Nat) (s : State) : (capture r s).einfo = s.einfo := rfl
@[simp] theorem capture_ecmd (r : Nat) (s : State) : (capture r s).ecmd = s.ecmd := rfl
@[simp] theorem capture_csz (r : Nat) (s : State) : (capture r s).csz = s.csz := rfl
@[simp] theorem capture_cval (r : Nat) (s : State) : (capture r s).cval = s.cval := rfl
@[simp] theorem capture_clk (r : Nat) (s : State) : (capture r s).clk = s.clk := rfl
@[simp] theorem capture_params (r : Nat) (s : State) : (capture r s).params = s.params := rfl
@[simp] theorem capture_inputs (r : Nat) (s : State) : (capture r s).inputs = s.inputs := rfl
@[simp] theorem capture_sink (r : Nat) (s : State) : (capture r s).sink = s.sink := rfl
@[simp] theorem capture_rsp (r : Nat) (s : State) : (capture r s).rsp = s.rsp := rfl
@[simp] theorem capture_csmRsp (r : Nat) (s : State) : (capture r s).csmRsp = s.csmRsp := rfl

/-! ## resetBlock -/

@[simp] theorem resetBlock_cfgd (s : State) : (resetBlock s).cfgd = State.reset.cfgd := rfl
@[simp] theorem resetBlock_dim (s : State) : (resetBlock s).dim = State.reset.dim := rfl
@[simp] theorem resetBlock_width (s : State) : (resetBlock s).width = State.reset.width := rfl
@[simp] theorem resetBlock_auto (s : State) : (resetBlock s).auto = State.reset.auto := rfl
@[simp] theorem resetBlock_phase (s : State) : (resetBlock s).phase = State.reset.phase := rfl
@[simp] theorem resetBlock_r (s : State) : (resetBlock s).r = State.reset.r := rfl
@[simp] theorem resetBlock_c (s : State) : (resetBlock s).c = State.reset.c := rfl
@[simp] theorem resetBlock_row (s : State) : (resetBlock s).row = State.reset.row := rfl
@[simp] theorem resetBlock_col (s : State) : (resetBlock s).col = State.reset.col := rfl
@[simp] theorem resetBlock_diag (s : State) : (resetBlock s).diag = State.reset.diag := rfl
@[simp] theorem resetBlock_anti (s : State) : (resetBlock s).anti = State.reset.anti := rfl
@[simp] theorem resetBlock_dig (s : State) : (resetBlock s).dig = State.reset.dig := rfl
@[simp] theorem resetBlock_hbuf (s : State) : (resetBlock s).hbuf = State.reset.hbuf := rfl
@[simp] theorem resetBlock_hbit (s : State) : (resetBlock s).hbit = State.reset.hbit := rfl
@[simp] theorem resetBlock_hbyte (s : State) : (resetBlock s).hbyte = State.reset.hbyte := rfl
@[simp] theorem resetBlock_pkbyte (s : State) : (resetBlock s).pkbyte = State.reset.pkbyte := rfl
@[simp] theorem resetBlock_pkbit (s : State) : (resetBlock s).pkbit = State.reset.pkbit := rfl
@[simp] theorem resetBlock_pkcnt (s : State) : (resetBlock s).pkcnt = State.reset.pkcnt := rfl
@[simp] theorem resetBlock_out (s : State) : (resetBlock s).out = State.reset.out := rfl
@[simp] theorem resetBlock_outcnt (s : State) : (resetBlock s).outcnt = State.reset.outcnt := rfl
@[simp] theorem resetBlock_esticky (s : State) : (resetBlock s).esticky = State.reset.esticky := rfl
@[simp] theorem resetBlock_ecode (s : State) : (resetBlock s).ecode = State.reset.ecode := rfl
@[simp] theorem resetBlock_einfo (s : State) : (resetBlock s).einfo = State.reset.einfo := rfl
@[simp] theorem resetBlock_ecmd (s : State) : (resetBlock s).ecmd = State.reset.ecmd := rfl
@[simp] theorem resetBlock_csz (s : State) : (resetBlock s).csz = State.reset.csz := rfl
@[simp] theorem resetBlock_cval (s : State) : (resetBlock s).cval = State.reset.cval := rfl
@[simp] theorem resetBlock_clk (s : State) : (resetBlock s).clk = State.reset.clk := rfl
@[simp] theorem resetBlock_params (s : State) : (resetBlock s).params = s.params := rfl
@[simp] theorem resetBlock_inputs (s : State) : (resetBlock s).inputs = s.inputs := rfl
@[simp] theorem resetBlock_sink (s : State) : (resetBlock s).sink = s.sink := rfl
@[simp] theorem resetBlock_rsp (s : State) : (resetBlock s).rsp = s.rsp := rfl
@[simp] theorem resetBlock_csmRsp (s : State) : (resetBlock s).csmRsp = s.csmRsp := rfl

/-! ## configure -/

@[simp] theorem configure_cfgd (n : Half) (b : BitVec 5) (auto : Bool) (s : State) : (configure n b auto s).cfgd = true := rfl
@[simp] theorem configure_dim (n : Half) (b : BitVec 5) (auto : Bool) (s : State) : (configure n b auto s).dim = n := rfl
@[simp] theorem configure_width (n : Half) (b : BitVec 5) (auto : Bool) (s : State) : (configure n b auto s).width = b := rfl
@[simp] theorem configure_auto (n : Half) (b : BitVec 5) (auto : Bool) (s : State) : (configure n b auto s).auto = auto := rfl
@[simp] theorem configure_phase (n : Half) (b : BitVec 5) (auto : Bool) (s : State) : (configure n b auto s).phase = .active := rfl
@[simp] theorem configure_r (n : Half) (b : BitVec 5) (auto : Bool) (s : State) : (configure n b auto s).r = 0 := rfl
@[simp] theorem configure_c (n : Half) (b : BitVec 5) (auto : Bool) (s : State) : (configure n b auto s).c = 0 := rfl
@[simp] theorem configure_row (n : Half) (b : BitVec 5) (auto : Bool) (s : State) : (configure n b auto s).row = List.replicate n.toNat 0 := rfl
@[simp] theorem configure_col (n : Half) (b : BitVec 5) (auto : Bool) (s : State) : (configure n b auto s).col = List.replicate n.toNat 0 := rfl
@[simp] theorem configure_diag (n : Half) (b : BitVec 5) (auto : Bool) (s : State) : (configure n b auto s).diag = List.replicate n.toNat 0 := rfl
@[simp] theorem configure_anti (n : Half) (b : BitVec 5) (auto : Bool) (s : State) : (configure n b auto s).anti = List.replicate n.toNat 0 := rfl
@[simp] theorem configure_dig (n : Half) (b : BitVec 5) (auto : Bool) (s : State) : (configure n b auto s).dig = List.replicate n.toNat Config.zeroDigest := rfl
@[simp] theorem configure_hbuf (n : Half) (b : BitVec 5) (auto : Bool) (s : State) : (configure n b auto s).hbuf = List.replicate (ceilBytes n.toNat) 0 := rfl
@[simp] theorem configure_hbit (n : Half) (b : BitVec 5) (auto : Bool) (s : State) : (configure n b auto s).hbit = 0 := rfl
@[simp] theorem configure_hbyte (n : Half) (b : BitVec 5) (auto : Bool) (s : State) : (configure n b auto s).hbyte = 0 := rfl
@[simp] theorem configure_pkbyte (n : Half) (b : BitVec 5) (auto : Bool) (s : State) : (configure n b auto s).pkbyte = s.pkbyte := rfl
@[simp] theorem configure_pkbit (n : Half) (b : BitVec 5) (auto : Bool) (s : State) : (configure n b auto s).pkbit = s.pkbit := rfl
@[simp] theorem configure_pkcnt (n : Half) (b : BitVec 5) (auto : Bool) (s : State) : (configure n b auto s).pkcnt = s.pkcnt := rfl
@[simp] theorem configure_out (n : Half) (b : BitVec 5) (auto : Bool) (s : State) : (configure n b auto s).out = s.out := rfl
@[simp] theorem configure_outcnt (n : Half) (b : BitVec 5) (auto : Bool) (s : State) : (configure n b auto s).outcnt = s.outcnt := rfl
@[simp] theorem configure_esticky (n : Half) (b : BitVec 5) (auto : Bool) (s : State) : (configure n b auto s).esticky = s.esticky := rfl
@[simp] theorem configure_ecode (n : Half) (b : BitVec 5) (auto : Bool) (s : State) : (configure n b auto s).ecode = s.ecode := rfl
@[simp] theorem configure_einfo (n : Half) (b : BitVec 5) (auto : Bool) (s : State) : (configure n b auto s).einfo = s.einfo := rfl
@[simp] theorem configure_ecmd (n : Half) (b : BitVec 5) (auto : Bool) (s : State) : (configure n b auto s).ecmd = s.ecmd := rfl
@[simp] theorem configure_csz (n : Half) (b : BitVec 5) (auto : Bool) (s : State) : (configure n b auto s).csz = s.csz := rfl
@[simp] theorem configure_cval (n : Half) (b : BitVec 5) (auto : Bool) (s : State) : (configure n b auto s).cval = s.cval := rfl
@[simp] theorem configure_clk (n : Half) (b : BitVec 5) (auto : Bool) (s : State) : (configure n b auto s).clk = s.clk := rfl
@[simp] theorem configure_params (n : Half) (b : BitVec 5) (auto : Bool) (s : State) : (configure n b auto s).params = s.params := rfl
@[simp] theorem configure_inputs (n : Half) (b : BitVec 5) (auto : Bool) (s : State) : (configure n b auto s).inputs = s.inputs := rfl
@[simp] theorem configure_sink (n : Half) (b : BitVec 5) (auto : Bool) (s : State) : (configure n b auto s).sink = s.sink := rfl
@[simp] theorem configure_rsp (n : Half) (b : BitVec 5) (auto : Bool) (s : State) : (configure n b auto s).rsp = s.rsp := rfl
@[simp] theorem configure_csmRsp (n : Half) (b : BitVec 5) (auto : Bool) (s : State) : (configure n b auto s).csmRsp = s.csmRsp := rfl

end Sys2Proof.Machine
end

