-- ==== Sys2Proof/Laws/Block.lean ====
section
/-! SUPPORT. What one pushed bit can do to the state (40_bit_extractor R166): each field said once. -/

namespace Sys2Proof.Machine

open Sys2Proof.Safety

@[simp] theorem appendBit_dim (bit : Bool) (s : State) : (appendBit bit s).dim = s.dim := by
  unfold appendBit; split <;> rfl

@[simp] theorem appendBit_dig (bit : Bool) (s : State) : (appendBit bit s).dig = s.dig := by
  unfold appendBit; split <;> rfl

@[simp] theorem hPush_dim (r c : Nat) (bit : Bool) (s : State) : (hPush r c bit s).dim = s.dim := by
  unfold hPush; split <;> simp

theorem appendBit_hbuf (bit : Bool) (s : State) : (appendBit bit s).hbuf
    = s.hbuf.set s.hbyte.toNat (s.hbuf.getD s.hbyte.toNat 0 ||| byteWithBit bit s.hbit.toNat) := by
  unfold appendBit; split <;> rfl

/-- The append touches the row buffer and its cursors. -/
theorem appendBit_frame (bit : Bool) (s : State) : appendBit bit s = { s with
    hbuf := (appendBit bit s).hbuf, hbit := (appendBit bit s).hbit, hbyte := (appendBit bit s).hbyte } := by
  unfold appendBit; split <;> rfl

theorem hPush_frame (r c : Nat) (bit : Bool) (s : State) : hPush r c bit s = { s with
    dig := (hPush r c bit s).dig, hbuf := (hPush r c bit s).hbuf, hbit := (hPush r c bit s).hbit,
    hbyte := (hPush r c bit s).hbyte } := by
  unfold hPush; split
  · rw [appendBit_frame]; rfl
  · rw [appendBit_frame]

theorem advance_frame (r c : Nat) (s : State) :
    advance r c s = { s with r := (advance r c s).r, c := (advance r c s).c } := by
  unfold advance; split <;> rfl

/-- `PushBit` touches the files, the digest store, the row buffer, its cursors and the position, and nothing else. -/
theorem pushBit_frame (bit : Bool) (s : State) :
    pushBit bit s = { s with
      row := (pushBit bit s).row, col := (pushBit bit s).col, diag := (pushBit bit s).diag, anti := (pushBit bit s).anti,
      dig := (pushBit bit s).dig, hbuf := (pushBit bit s).hbuf, hbit := (pushBit bit s).hbit,
      hbyte := (pushBit bit s).hbyte, r := (pushBit bit s).r, c := (pushBit bit s).c } := by
  simp only [pushBit]
  rw [advance_frame, hPush_frame]
  rfl

theorem appendBit_withRsp (bit : Bool) (s : State) (log : List Response) :
    appendBit bit { s with rsp := log } = { appendBit bit s with rsp := log } := by
  by_cases h : s.hbit = 7 <;> simp only [appendBit, h, ↓reduceIte]

theorem hPush_withRsp (r c : Nat) (bit : Bool) (s : State) (log : List Response) :
    hPush r c bit { s with rsp := log } = { hPush r c bit s with rsp := log } := by
  by_cases h : c + 1 = s.dim.toNat <;> simp only [hPush, h, ↓reduceIte, appendBit_withRsp, capture]

theorem advance_withRsp (r c : Nat) (s : State) (log : List Response) :
    advance r c { s with rsp := log } = { advance r c s with rsp := log } := by
  by_cases h : c + 1 = s.dim.toNat <;> simp only [advance, h, ↓reduceIte]

/-- `PushBit` does not look at the record of responses. -/
theorem pushBit_withRsp (bit : Bool) (s : State) (log : List Response) :
    pushBit bit { s with rsp := log } = { pushBit bit s with rsp := log } := by
  simp only [pushBit]
  rw [← advance_withRsp, ← hPush_withRsp]
  rfl

theorem pushBit_row (bit : Bool) (s : State) : (pushBit bit s).row = addBit s.row s.r.toNat bit := by
  simp only [pushBit]; rw [advance_frame, hPush_frame]; rfl

theorem pushBit_col (bit : Bool) (s : State) : (pushBit bit s).col = addBit s.col s.c.toNat bit := by
  simp only [pushBit]; rw [advance_frame, hPush_frame]; rfl

theorem pushBit_diag (bit : Bool) (s : State) :
    (pushBit bit s).diag = addBit s.diag (diagIdx s.r.toNat s.c.toNat s.dim.toNat) bit := by
  simp only [pushBit]; rw [advance_frame, hPush_frame]; rfl

theorem pushBit_anti (bit : Bool) (s : State) :
    (pushBit bit s).anti = addBit s.anti (antiIdx s.r.toNat s.c.toNat s.dim.toNat) bit := by
  simp only [pushBit]; rw [advance_frame, hPush_frame]; rfl

/-- Not the last bit of its row: the bit is appended, no digest is captured, the column advances. -/
theorem pushBit_inRow (bit : Bool) (s : State) (h : s.c.toNat + 1 ≠ s.dim.toNat) :
    (pushBit bit s).dig = s.dig ∧ (pushBit bit s).hbuf = (appendBit bit s).hbuf
    ∧ (pushBit bit s).hbit = (if s.hbit = 7 then 0 else s.hbit + 1)
    ∧ (pushBit bit s).hbyte = (if s.hbit = 7 then s.hbyte + 1 else s.hbyte)
    ∧ (pushBit bit s).r = s.r ∧ (pushBit bit s).c = BitVec.ofNat 16 (s.c.toNat + 1) := by
  by_cases h7 : s.hbit = 7 <;> simp only [pushBit, advance, hPush, appendBit, acc, h, h7, ↓reduceIte] <;> simp

/-- The last bit of its row: the digest of the buffer with the bit is captured, the buffer and its cursors are cleared, and
the next row begins. -/
theorem pushBit_endOfRow (bit : Bool) (s : State) (h : s.c.toNat + 1 = s.dim.toNat) :
    (pushBit bit s).dig = s.dig.set s.r.toNat (Config.H (appendBit bit s).hbuf)
    ∧ (pushBit bit s).hbuf = List.replicate s.hbuf.length 0 ∧ (pushBit bit s).hbit = 0 ∧ (pushBit bit s).hbyte = 0
    ∧ (pushBit bit s).r = BitVec.ofNat 16 (s.r.toNat + 1) ∧ (pushBit bit s).c = 0 := by
  by_cases h7 : s.hbit = 7 <;>
    simp only [pushBit, advance, hPush, appendBit, acc, capture, writeElement, h, h7, ↓reduceIte] <;> simp

@[simp] theorem pushBit_dim (bit : Bool) (s : State) : (pushBit bit s).dim = s.dim := by rw [pushBit_frame]
@[simp] theorem pushBit_phase (bit : Bool) (s : State) : (pushBit bit s).phase = s.phase := by rw [pushBit_frame]
@[simp] theorem pushBit_cfgd (bit : Bool) (s : State) : (pushBit bit s).cfgd = s.cfgd := by rw [pushBit_frame]
@[simp] theorem pushBit_rsp (bit : Bool) (s : State) : (pushBit bit s).rsp = s.rsp := by rw [pushBit_frame]

@[simp] theorem pushBits_nil (s : State) : pushBits [] s = s := rfl

@[simp] theorem pushBits_cons (bit : Bool) (bits : List Bool) (s : State) :
    pushBits (bit :: bits) s = pushBits bits (pushBit bit s) := rfl

/-- `PushBit` of several bits touches the same fields. -/
theorem pushBits_frame (bits : List Bool) (s : State) :
    pushBits bits s = { s with
      row := (pushBits bits s).row, col := (pushBits bits s).col, diag := (pushBits bits s).diag,
      anti := (pushBits bits s).anti, dig := (pushBits bits s).dig, hbuf := (pushBits bits s).hbuf,
      hbit := (pushBits bits s).hbit, hbyte := (pushBits bits s).hbyte, r := (pushBits bits s).r,
      c := (pushBits bits s).c } := by
  induction bits generalizing s with
  | nil => rfl
  | cons bit bits ih =>
    rw [pushBits_cons, ih (pushBit bit s), pushBit_frame bit s]

end Sys2Proof.Machine
end

