-- ==== Sys2Proof/Laws/Cells.lean ====
section
/-! SUPPORT. The sets of cells of the CSM: every operation keeps the one form, a cell reads as it was last written, and
writing one cell leaves every other alone (46_csm_option R363 to R366, log entry 11). -/

namespace Sys2Proof.Machine

open Sys2Proof.Safety

theorem cellKey_inj {r c r' c' : Half} (h : cellKey r c = cellKey r' c') : r = r' ∧ c = c' := by
  have := c.isLt; have := c'.isLt
  simp only [cellKey] at h
  exact ⟨BitVec.eq_of_toNat_eq (by omega), BitVec.eq_of_toNat_eq (by omega)⟩

theorem mem_cellInsert {k x : Nat} {cells : List Nat} : x ∈ cellInsert k cells ↔ x = k ∨ x ∈ cells := by
  induction cells with
  | nil => simp [cellInsert]
  | cons y ys ih =>
    simp only [cellInsert]
    split
    · simp
    · split
      · rename_i h; subst h; simp
      · simp [ih]; tauto

theorem cellInsert_wf {k : Nat} {cells : List Nat} (h : cellsWf cells) : cellsWf (cellInsert k cells) := by
  induction cells with
  | nil => simp [cellInsert]
  | cons y ys ih =>
    obtain ⟨hy, hys⟩ := List.pairwise_cons.1 h
    simp only [cellInsert]
    split
    · refine List.pairwise_cons.2 ⟨fun x hx => ?_, h⟩
      obtain rfl | hx := List.mem_cons.1 hx
      · assumption
      · exact lt_trans ‹k < y› (hy x hx)
    · split
      · exact h
      · refine List.pairwise_cons.2 ⟨fun x hx => ?_, ih hys⟩
        obtain rfl | hx := mem_cellInsert.1 hx
        · omega
        · exact hy x hx

/-- Adding a cell that is in the set already changes nothing. -/
theorem cellInsert_of_mem {k : Nat} {cells : List Nat} (h : cellsWf cells) (hk : k ∈ cells) : cellInsert k cells = cells := by
  induction cells with
  | nil => simp at hk
  | cons y ys ih =>
    obtain ⟨hy, hys⟩ := List.pairwise_cons.1 h
    simp only [cellInsert]
    obtain rfl | hk := List.mem_cons.1 hk
    · simp
    · have := hy k hk
      rw [if_neg (by omega), if_neg (by omega), ih hys hk]

/-- Every write keeps the one form. -/
theorem cellWrite_wf {k : Nat} {b : Bool} {cells : List Nat} (h : cellsWf cells) : cellsWf (cellWrite cells k b) := by
  cases b
  · exact h.filter _
  · exact cellInsert_wf h

theorem mem_cellWrite {k x : Nat} {b : Bool} {cells : List Nat} :
    x ∈ cellWrite cells k b ↔ (x = k ∧ b = true) ∨ (x ≠ k ∧ x ∈ cells) := by
  cases b
  · simp [cellWrite]; tauto
  · simp [cellWrite, mem_cellInsert]; tauto

@[simp] theorem cellRead_cellWrite_self (cells : List Nat) (k : Nat) (b : Bool) : cellRead (cellWrite cells k b) k = b := by
  rw [Bool.eq_iff_iff]
  simp [cellRead, mem_cellWrite]

theorem cellRead_cellWrite_of_ne {cells : List Nat} {k x : Nat} {b : Bool} (h : x ≠ k) :
    cellRead (cellWrite cells k b) x = cellRead cells x := by
  rw [Bool.eq_iff_iff]
  simp [cellRead, mem_cellWrite, h]

theorem cellKey_inside {r c n : Half} (hr : r < n) (hc : c < n) :
    cellKey r c / 65536 < n.toNat ∧ cellKey r c % 65536 < n.toNat := by
  have := c.isLt
  rw [BitVec.lt_def] at hr hc
  simp only [cellKey]
  omega

/-- A write inside the grid leaves every key inside it. -/
theorem cellWrite_inside {r c n : Half} {b : Bool} {cells : List Nat} (hr : r < n) (hc : c < n)
    (h : cellsInside n.toNat cells) : cellsInside n.toNat (cellWrite cells (cellKey r c) b) := by
  intro x hx
  obtain ⟨rfl, -⟩ | ⟨-, hx⟩ := mem_cellWrite.1 hx
  · exact cellKey_inside hr hc
  · exact h x hx

end Sys2Proof.Machine
end

