-- ==== Sys2Proof/Laws/Control.lean ====
section
/-! SUPPORT. What the shared operations around a command can do, said once: raising an error, configuring, the CSM's two
wrappers, and taking a transaction. -/

namespace Sys2Proof.Machine

open Sys2Proof.Safety

/-- `raise` is the record of 60_exceptions R405 and nothing else. -/
theorem raise_eq_afterError (k : ErrorKind) (info : Nat) (w : Word) (s : State) :
    raise k info w s = afterError (errorCode k) info w s := rfl

/-- `CFG` and `CFG.A` after decoding: one of the two refusals, or a fresh block (45_control R320). -/
theorem configureChecked_cases (n : Half) (b : BitVec 5) (auto : Bool) (w : Word) (s : State) :
    (n = 0 ∧ configureChecked n b auto w s = raise .constructionError 0 w s)
    ∨ (n ≠ 0 ∧ s.params.sMax < n ∧ configureChecked n b auto w s = raise .constructionError n.toNat w s)
    ∨ (n ≠ 0 ∧ n ≤ s.params.sMax
      ∧ configureChecked n b auto w s = respond (b.setWidth 32) (configure n b auto s)) := by
  unfold configureChecked
  split
  · exact .inl ⟨‹_›, rfl⟩
  · split
    · exact .inr (.inl ⟨‹_›, ‹_›, rfl⟩)
    · exact .inr (.inr ⟨‹_›, BitVec.not_lt.1 ‹_›, rfl⟩)

/-- What `Fresh` and the new configuration leave, spelled out (45_control R322). -/
theorem configure_eq (n : Half) (b : BitVec 5) (auto : Bool) (s : State) :
    configure n b auto s
      = { emptyBlock n.toNat s with cfgd := true, dim := n, width := b, auto := auto, phase := .active } := rfl

theorem resetBlock_eq (s : State) : resetBlock s = zeroBlock s := rfl

/-- A request runs where the port exists, and only there (30_encoding R132). -/
theorem onCsmPort_eq_next_iff {s t : State} {body : State → State} :
    onCsmPort s body = .next t ↔ s.params.hasCsm = true ∧ t = body s := by
  unfold onCsmPort
  by_cases h : s.params.hasCsm = true
  · rw [if_pos h, Host.Outcome.next.injEq]
    exact ⟨fun e => ⟨h, e.symm⟩, fun e => e.2.symm⟩
  · rw [if_neg h]
    exact ⟨fun e => by simp at e, fun e => absurd e.1 h⟩

theorem onCsmPort_ne_fault {s : State} {body : State → State} {f : Fault} : onCsmPort s body ≠ .fault f := by
  unfold onCsmPort
  split <;> simp

/-- The bounds check, row before column (46_csm_option R361). -/
theorem withCell_cases (r c : Half) (body : State → State) (s : State) :
    (s.csz ≤ r ∧ withCell r c body s = csmRespond 1 (r.setWidth 32) s)
    ∨ (r < s.csz ∧ s.csz ≤ c ∧ withCell r c body s = csmRespond 1 (c.setWidth 32) s)
    ∨ (r < s.csz ∧ c < s.csz ∧ withCell r c body s = body s) := by
  unfold withCell
  split
  · exact .inl ⟨‹_›, rfl⟩
  · split
    · exact .inr (.inl ⟨BitVec.not_le.1 ‹_›, ‹_›, rfl⟩)
    · exact .inr (.inr ⟨BitVec.not_le.1 ‹_›, BitVec.not_le.1 ‹_›, rfl⟩)

/-- All a step that has a next state can have done: nothing, a hardware reset, an illegal command, an illegal request, or
the meaning of the instruction delivered. -/
theorem step_cases {s t : State} (h : step s = .next t) :
    (s.inputs = [] ∧ t = s)
    ∨ (∃ rest, s.inputs = .reset :: rest ∧ t = zeroBlock { s with inputs := rest })
    ∨ (∃ w rest e, s.inputs = .word (.cmd w) :: rest ∧ decode (.cmd w) = .error e
      ∧ t = raise .illegalCommand 0 w { s with inputs := rest })
    ∨ (∃ q rest e, s.inputs = .word (.csm q) :: rest ∧ decode (.csm q) = .error e ∧ s.params.hasCsm = true
      ∧ t = csmRespond 6 0 { s with inputs := rest })
    ∨ ∃ p rest i, s.inputs = .word p :: rest ∧ decode p = .ok i ∧ exec i { s with inputs := rest } = .next t := by
  unfold step fetch at h
  split at h
  · rename_i i u hf
    split at hf
    · exact absurd hf (by simp)
    · exact absurd hf (by simp)
    · rename_i p rest hin
      refine .inr (.inr (.inr (.inr ⟨p, rest, i, hin, ?_⟩)))
      cases p <;> simp only [fetchWord] at hf <;> split at hf <;> try split at hf
      all_goals simp only [Fetched.run.injEq, reduceCtorEq] at hf
      all_goals obtain ⟨rfl, rfl⟩ := hf; exact ⟨‹_›, h⟩
  · rename_i u hf
    obtain rfl : u = t := by simpa using h
    split at hf
    · exact .inl ⟨‹_›, by simpa using hf.symm⟩
    · rw [Fetched.over.injEq] at hf
      exact .inr (.inl ⟨_, ‹_›, hf.symm⟩)
    · rename_i p rest hin
      cases p <;> simp only [fetchWord] at hf <;> split at hf <;> try split at hf
      all_goals simp only [Fetched.over.injEq, reduceCtorEq] at hf
      · exact .inr (.inr (.inl ⟨_, rest, _, hin, ‹_›, hf.symm⟩))
      · exact .inr (.inr (.inr (.inl ⟨_, rest, _, hin, ‹_›, ‹_›, hf.symm⟩)))
  · simp at h

end Sys2Proof.Machine
end

