-- ==== Sys2Proof/Laws/Emission.lean ====
section
/-! SUPPORT. What the emitting operations can do, said once: `Emits` describes an operation by the bytes it offers and the
packer it leaves, whatever the sink answers; each operation has one lemma, and `andThen` composes them. -/

namespace Sys2Proof.Machine

open Sys2Proof.Safety

/-! ## The sink -/

@[simp] theorem sinkAfter_zero (k : Sink) : sinkAfter k 0 = k := rfl

@[simp] theorem sinkAfter_sinkAfter (k : Sink) (m n : Nat) : sinkAfter (sinkAfter k m) n = sinkAfter k (m + n) := by
  simp [sinkAfter, List.drop_drop]

theorem sinkRest_eq (k : Sink) : sinkRest k = sinkAfter k 1 := by simp [sinkRest, sinkAfter]

theorem sinkAnswer_eq (k : Sink) : sinkAnswer k = answerAt k 0 := by
  cases h : k.queued <;> simp [sinkAnswer, answerAt, h]

@[simp] theorem answerAt_sinkAfter (k : Sink) (m j : Nat) : answerAt (sinkAfter k m) j = answerAt k (m + j) := by
  simp [answerAt, sinkAfter, List.getElem?_drop]

theorem accepts_zero (k : Sink) : Accepts k 0 := fun _ h => absurd h (Nat.not_lt_zero _)

theorem accepts_add {k : Sink} {m n : Nat} (h : Accepts k m) (h' : Accepts (sinkAfter k m) n) : Accepts k (m + n) := by
  intro j hj
  by_cases hm : j < m
  · exact h j hm
  · have := h' (j - m) (by omega)
    rwa [answerAt_sinkAfter, show m + (j - m) = j by omega] at this

theorem accepts_left {k : Sink} {m n : Nat} (h : Accepts k (m + n)) : Accepts k m := fun j hj => h j (by omega)

theorem accepts_right {k : Sink} {m n : Nat} (h : Accepts k (m + n)) : Accepts (sinkAfter k m) n := fun j hj => by
  rw [answerAt_sinkAfter]; exact h _ (by omega)

/-- Over the next `n` bytes a sink accepts all, or fails one, or falls silent at one. -/
theorem sink_cases (k : Sink) (n : Nat) : Accepts k n ∨ (∃ j < n, FailsAt k j) ∨ ∃ j < n, SilentAt k j := by
  induction n with
  | zero => exact .inl (accepts_zero k)
  | succ n ih =>
    obtain h | ⟨j, hj, h⟩ | ⟨j, hj, h⟩ := ih
    · cases ha : answerAt k n with
      | none => exact .inr (.inr ⟨n, by omega, h, ha⟩)
      | some a =>
        cases a with
        | accept =>
          refine .inl fun j hj => ?_
          by_cases hjn : j = n
          · rw [hjn, ha]
          · exact h j (by omega)
        | fail => exact .inr (.inl ⟨n, by omega, h, ha⟩)
    · exact .inr (.inl ⟨j, by omega, h⟩)
    · exact .inr (.inr ⟨j, by omega, h⟩)

/-- A sink that goes on answering is never silent. -/
theorem not_silentAt {k : Sink} (h : k.thereafter ≠ none) (n : Nat) : ¬ SilentAt k n := by
  rintro ⟨-, hs⟩
  revert hs
  simp only [answerAt]
  split <;> simp [h]

@[simp] theorem withOutput_nil (s : State) : withOutput [] s = s := by simp [withOutput]

theorem withOutput_append (vs ws : List Byte) (s : State) :
    withOutput ws (withOutput vs s) = withOutput (vs ++ ws) s := by
  simp [withOutput, BitVec.ofNat_add, BitVec.add_assoc]

/-! ## Emits -/

/-- `s` with another packer. -/
def withPacker (byte : Byte) (bit : BitVec 3) (cnt : Word) (s : State) : State :=
  { s with pkbyte := byte, pkbit := bit, pkcnt := cnt }

@[simp] theorem withPacker_self (s : State) : withPacker s.pkbyte s.pkbit s.pkcnt s = s := rfl

@[simp] theorem withPacker_withPacker (b b' : Byte) (i i' : BitVec 3) (c c' : Word) (s : State) :
    withPacker b' i' c' (withPacker b i c s) = withPacker b' i' c' s := rfl

theorem withOutput_withPacker (b : Byte) (i : BitVec 3) (c : Word) (vs : List Byte) (s : State) :
    withOutput vs (withPacker b i c s) = withPacker b i c (withOutput vs s) := rfl

/-- The emission `e`, begun in `s` after `k` bytes of the command, offers the bytes `vs` in order and stops at the first
that is not accepted; when all are, it leaves the packer given. -/
structure Emits (e : Emission) (k : Nat) (s : State) (vs : List Byte) (byte : Byte) (bit : BitVec 3) (cnt : Word) :
    Prop where
  accepted : Accepts s.sink vs.length → e = .ok (k + vs.length) (withPacker byte bit cnt (withOutput vs s))
  failed : ∀ j < vs.length, FailsAt s.sink j → ∃ b i c, e = .failed (k + j)
    (withPacker b i c { withOutput (vs.take j) s with sink := sinkAfter s.sink (j + 1) })
  silent : ∀ j < vs.length, SilentAt s.sink j → e = .silent

/-- An operation that offers nothing. -/
theorem emits_ok (k : Nat) (s : State) (byte : Byte) (bit : BitVec 3) (cnt : Word) :
    Emits (.ok k (withPacker byte bit cnt s)) k s [] byte bit cnt where
  accepted _ := by simp
  failed j hj := by simp at hj
  silent j hj := by simp at hj

theorem emits_emit (v : Byte) (k : Nat) (s : State) : Emits (emit v k s) k s [v] s.pkbyte s.pkbit s.pkcnt where
  accepted h := by
    have h0 : sinkAnswer s.sink = some .accept := by rw [sinkAnswer_eq]; exact h 0 (by simp)
    simp [emit, h0, sinkRest_eq, withOutput, withPacker]
  failed j hj h := by
    obtain rfl : j = 0 := by simpa using hj
    have h0 : sinkAnswer s.sink = some .fail := by rw [sinkAnswer_eq]; exact h.2
    exact ⟨s.pkbyte, s.pkbit, s.pkcnt, by simp [emit, h0, sinkRest_eq, withOutput, withPacker]⟩
  silent j hj h := by
    obtain rfl : j = 0 := by simpa using hj
    have h0 : sinkAnswer s.sink = none := by rw [sinkAnswer_eq]; exact h.2
    simp [emit, h0]

/-- One operation after another: the bytes of both, the packer of the second. -/
theorem emits_andThen {e : Emission} {f : Nat → State → Emission} {k : Nat} {s : State} {vs ws : List Byte}
    {b b' : Byte} {i i' : BitVec 3} {c c' : Word} (he : Emits e k s vs b i c)
    (hf : Emits (f (k + vs.length) (withPacker b i c (withOutput vs s))) (k + vs.length)
      (withPacker b i c (withOutput vs s)) ws b' i' c') :
    Emits (andThen e f) k s (vs ++ ws) b' i' c' where
  accepted h := by
    rw [List.length_append] at h
    rw [he.accepted (accepts_left h)]
    simp only [andThen]
    rw [hf.accepted (accepts_right h)]
    simp [withOutput_withPacker, withOutput_append, Nat.add_assoc]
  failed j hj h := by
    rw [List.length_append] at hj
    by_cases hv : j < vs.length
    · obtain ⟨b, i, c, h'⟩ := he.failed j hv h
      exact ⟨b, i, c, by rw [h', List.take_append_of_le_length (by omega)]; rfl⟩
    · have ha : Accepts s.sink vs.length := fun m hm => h.1 m (by omega)
      rw [he.accepted ha]
      obtain ⟨b, i, c, h'⟩ := hf.failed (j - vs.length) (by omega)
        ⟨fun m hm => by
          show answerAt (sinkAfter s.sink vs.length) m = _
          rw [answerAt_sinkAfter]; exact h.1 _ (by omega),
         by
          show answerAt (sinkAfter s.sink vs.length) _ = _
          rw [answerAt_sinkAfter, show vs.length + (j - vs.length) = j by omega]; exact h.2⟩
      refine ⟨b, i, c, ?_⟩
      simp only [andThen]
      rw [h', show k + vs.length + (j - vs.length) = k + j by omega, List.take_append,
        List.take_of_length_le (by omega : vs.length ≤ j), ← withOutput_append]
      simp only [withPacker, withOutput, sinkAfter_sinkAfter,
        show vs.length + (j - vs.length + 1) = j + 1 by omega]
  silent j hj h := by
    rw [List.length_append] at hj
    by_cases hv : j < vs.length
    · rw [he.silent j hv h]; rfl
    · have ha : Accepts s.sink vs.length := fun m hm => h.1 m (by omega)
      rw [he.accepted ha]
      exact hf.silent (j - vs.length) (by omega)
        ⟨fun m hm => by
          show answerAt (sinkAfter s.sink vs.length) m = _
          rw [answerAt_sinkAfter]; exact h.1 _ (by omega),
         by
          show answerAt (sinkAfter s.sink vs.length) _ = _
          rw [answerAt_sinkAfter, show vs.length + (j - vs.length) = j by omega]; exact h.2⟩

/-- The packer may be changed after the last byte was accepted. -/
theorem emits_andThen_ok {e : Emission} {g : State → State} {k : Nat} {s : State} {vs : List Byte}
    {b b' : Byte} {i i' : BitVec 3} {c c' : Word} (he : Emits e k s vs b i c)
    (hg : g (withPacker b i c (withOutput vs s)) = withPacker b' i' c' (withOutput vs s)) :
    Emits (andThen e fun k t => .ok k (g t)) k s vs b' i' c' := by
  have := emits_andThen (f := fun k t => .ok k (g t)) (ws := []) (b' := b') (i' := i') (c' := c') he (by
    rw [hg]; exact emits_ok _ (withPacker b i c (withOutput vs s)) b' i' c')
  simpa using this

theorem emits_emitBytes (vs : List Byte) (k : Nat) (s : State) :
    Emits (emitBytes vs k s) k s vs s.pkbyte s.pkbit s.pkcnt := by
  induction vs generalizing k s with
  | nil => exact emits_ok k s _ _ _
  | cons v vs ih =>
    have := emits_andThen (f := emitBytes vs) (emits_emit v k s)
      (ih (k + 1) (withPacker s.pkbyte s.pkbit s.pkcnt (withOutput [v] s)))
    exact this

/-- The byte of the packer with one more bit placed. -/
def placed (bit : Bool) (byte : Byte) (pos : BitVec 3) : Byte := byte ||| byteWithBit bit pos.toNat

/-- A bit that fills the byte: the byte is offered and the packer is empty. -/
theorem emits_placeBit_full (bit : Bool) (k : Nat) (s : State) (h : s.pkbit = 7) :
    Emits (placeBit bit k s) k s [placed bit s.pkbyte s.pkbit] 0 0 (s.pkcnt + 1) := by
  simp only [placeBit, h, if_true]
  exact emits_andThen_ok (h ▸ emits_emit (placed bit s.pkbyte s.pkbit) k s) rfl

/-- A bit that does not fill the byte: nothing is offered. -/
theorem emits_placeBit_part (bit : Bool) (k : Nat) (s : State) (h : s.pkbit ≠ 7) :
    Emits (placeBit bit k s) k s [] (placed bit s.pkbyte s.pkbit) (s.pkbit + 1) s.pkcnt := by
  simp only [placeBit, h, if_false]
  exact emits_ok k s (placed bit s.pkbyte s.pkbit) (s.pkbit + 1) s.pkcnt

theorem emits_packFlush_idle (k : Nat) (s : State) (h : s.pkbit = 0) :
    Emits (packFlush k s) k s [] s.pkbyte s.pkbit 0 := by
  unfold packFlush
  rw [if_pos h]
  exact emits_ok k s s.pkbyte s.pkbit 0

theorem emits_packFlush_pending (k : Nat) (s : State) (h : s.pkbit ≠ 0) :
    Emits (packFlush k s) k s [s.pkbyte] 0 0 0 := by
  simp only [packFlush, h, if_false]
  exact emits_andThen_ok (emits_emit s.pkbyte k s) rfl

/-- Every packing operation offers some bytes and leaves some packer. -/
theorem emits_placeBit (bit : Bool) (k : Nat) (s : State) : ∃ vs b i c, Emits (placeBit bit k s) k s vs b i c := by
  by_cases h : s.pkbit = 7
  · exact ⟨_, _, _, _, emits_placeBit_full bit k s h⟩
  · exact ⟨_, _, _, _, emits_placeBit_part bit k s h⟩

theorem emits_popBits (n : Nat) (stk : Half) (k : Nat) (s : State) :
    ∃ vs b i c, Emits (popBits n stk k s) k s vs b i c := by
  induction n generalizing stk k s with
  | zero => exact ⟨[], _, _, _, emits_ok k s s.pkbyte s.pkbit s.pkcnt⟩
  | succ n ih =>
    obtain ⟨vs, b, i, c, h⟩ := emits_placeBit (stk.getLsbD 0) k s
    obtain ⟨ws, b', i', c', h'⟩ := ih (stk >>> 1) (k + vs.length) (withPacker b i c (withOutput vs s))
    exact ⟨_, _, _, _, emits_andThen h h'⟩

theorem emits_packValue (v : Half) (w : BitVec 5) (k : Nat) (s : State) :
    ∃ vs b i c, Emits (packValue v w k s) k s vs b i c := emits_popBits _ _ k s

theorem emits_packValues (w : BitVec 5) (file : List Half) (k : Nat) (s : State) :
    ∃ vs b i c, Emits (packValues w file k s) k s vs b i c := by
  induction file generalizing k s with
  | nil => exact ⟨[], _, _, _, emits_ok k s s.pkbyte s.pkbit s.pkcnt⟩
  | cons v file ih =>
    obtain ⟨vs, b, i, c, h⟩ := emits_packValue v w k s
    obtain ⟨ws, b', i', c', h'⟩ := ih (k + vs.length) (withPacker b i c (withOutput vs s))
    exact ⟨_, _, _, _, emits_andThen h h'⟩

theorem emits_packFlush (k : Nat) (s : State) : ∃ vs b i c, Emits (packFlush k s) k s vs b i c := by
  by_cases h : s.pkbit = 0
  · exact ⟨_, _, _, _, emits_packFlush_idle k s h⟩
  · exact ⟨_, _, _, _, emits_packFlush_pending k s h⟩

theorem emits_packFile (w : BitVec 5) (file : List Half) (k : Nat) (s : State) :
    ∃ vs b i c, Emits (packFile w file k s) k s vs b i c := by
  obtain ⟨vs, b, i, c, h⟩ := emits_packValues w file k s
  obtain ⟨ws, b', i', c', h'⟩ := emits_packFlush (k + vs.length) (withPacker b i c (withOutput vs s))
  exact ⟨_, _, _, _, emits_andThen h h'⟩

theorem emits_packFiles (w : BitVec 5) (files : List (List Half)) (k : Nat) (s : State) :
    ∃ vs b i c, Emits (packFiles w files k s) k s vs b i c := by
  induction files generalizing k s with
  | nil => exact ⟨[], _, _, _, emits_ok k s s.pkbyte s.pkbit s.pkcnt⟩
  | cons f fs ih =>
    obtain ⟨vs, b, i, c, h⟩ := emits_packFile w f k s
    obtain ⟨ws, b', i', c', h'⟩ := ih (k + vs.length) (withPacker b i c (withOutput vs s))
    exact ⟨_, _, _, _, emits_andThen h h'⟩

theorem emits_serEmit (s : State) : ∃ vs b i c, Emits (serEmit s) 0 s vs b i c := by
  have h := emits_emitBytes (s.dig.flatMap Vector.toList) 0 s
  obtain ⟨ws, b', i', c', h'⟩ := emits_packFiles s.width [s.row, s.col, s.diag, s.anti] _
    (withPacker s.pkbyte s.pkbit s.pkcnt (withOutput (s.dig.flatMap Vector.toList) s))
  exact ⟨_, _, _, _, emits_andThen h h'⟩

/-- How an emitting command ends, by what the sink does with the bytes it offers. -/
theorem finish_cases {e : Emission} {s : State} {vs : List Byte} {b : Byte} {i : BitVec 3} {c : Word}
    (h : Emits e 0 s vs b i c) (w : Word) (done : Nat → State → State) :
    (Accepts s.sink vs.length
      ∧ finish w e done = .next (done vs.length (withPacker b i c (withOutput vs s))))
    ∨ (∃ j < vs.length, FailsAt s.sink j ∧ finish w e done = .next (afterError 4 j w
        { withOutput (vs.take j) s with
          sink := sinkAfter s.sink (j + 1), pkbyte := 0, pkbit := 0, pkcnt := 0, phase := .abort }))
    ∨ (∃ j < vs.length, SilentAt s.sink j ∧ finish w e done = .fault .sinkSilent) := by
  obtain ha | ⟨j, hj, hf⟩ | ⟨j, hj, hs⟩ := sink_cases s.sink vs.length
  · exact .inl ⟨ha, by rw [h.accepted ha]; simp [finish]⟩
  · obtain ⟨b, i, c, he⟩ := h.failed j hj hf
    exact .inr (.inl ⟨j, hj, hf, by rw [he]; simp [finish, raiseIo, raise, afterError, withPacker, stickyWith, errorCode]⟩)
  · exact .inr (.inr ⟨j, hj, hs, by rw [h.silent j hj hs]; rfl⟩)

end Sys2Proof.Machine
end

