-- ==== Sys2Proof/Laws/Packer.lean ====
section
/-! SUPPORT. The packer as a stream of bits (43_bit_packer R253 to R255): what it holds, and which bytes placing further bits
offers to the sink. -/

namespace Sys2Proof.Machine

open Sys2Proof.Safety

/-! ## Lists of bits cut into bytes -/

theorem pushedBit_append_left {xs ys : List Bool} {j : Nat} (h : j < xs.length) :
    pushedBit (xs ++ ys) j = pushedBit xs j := by
  simp [pushedBit, List.getElem?_append, h]

theorem pushedBit_append_right {xs ys : List Bool} {j : Nat} (h : xs.length ≤ j) :
    pushedBit (xs ++ ys) j = pushedBit ys (j - xs.length) := by
  simp [pushedBit, List.getElem?_append, Nat.not_lt.2 h]

theorem pushedBit_of_length_le {bits : List Bool} {j : Nat} (h : bits.length ≤ j) : pushedBit bits j = false := by
  simp [pushedBit, h]

@[simp] theorem byteOfBits_nil (k : Nat) : byteOfBits [] k = 0 := by simp [byteOfBits, pushedBit]

/-- After a whole byte the cut goes on with the rest. -/
theorem byteOfBits_byte_append {xs ys : List Bool} (h : xs.length = 8) (k : Nat) :
    byteOfBits (xs ++ ys) (k + 1) = byteOfBits ys k := by
  refine byteOf_congr fun p _ => ?_
  rw [pushedBit_append_right (by omega)]
  congr 1
  omega

theorem byteOfBits_zero_append {xs ys : List Bool} (h : xs.length = 8) : byteOfBits (xs ++ ys) 0 = byteOfBits xs 0 :=
  byteOf_congr fun p hp => pushedBit_append_left (by omega)

/-- One more bit in a byte that is not full. -/
theorem byteOfBits_concat {xs : List Bool} (bit : Bool) (h : xs.length < 8) :
    byteOfBits xs 0 ||| byteWithBit bit xs.length = byteOfBits (xs ++ [bit]) 0 := by
  apply byte_ext
  intro p hp
  rw [bitAt_or, byteOfBits, byteOfBits, bitAt_byteOf _ _ hp, bitAt_byteOf _ _ hp, bitAt_byteWithBit _ _ _ h hp]
  obtain hlt | rfl | hgt := Nat.lt_trichotomy p xs.length
  · rw [pushedBit_append_left (by omega), decide_eq_false (by omega)]; simp
  · rw [pushedBit_of_length_le (by omega), pushedBit_append_right (by omega)]; simp [pushedBit]
  · rw [pushedBit_of_length_le (by omega), pushedBit_of_length_le (by simp; omega), decide_eq_false (by omega)]; simp

/-! ## What the packer holds -/

/-- The packer holds the bits `xs`, fewer than eight, with zeros behind them (10_state R39, R44 g). -/
structure PackerHolds (s : State) (xs : List Bool) : Prop where
  short : xs.length < 8
  bit : s.pkbit = BitVec.ofNat 3 xs.length
  byte : s.pkbyte = byteOfBits xs 0

theorem packerHolds_idle {s : State} (hbit : s.pkbit = 0) (hbyte : s.pkbyte = 0) : PackerHolds s [] where
  short := by simp
  bit := hbit
  byte := by simpa using hbyte

/-- With zeros behind its bits the packer holds its pending bits. -/
theorem packerHolds_pending {s : State} (h : ∀ p, s.pkbit.toNat ≤ p → p < 8 → bitAt s.pkbyte p = false) :
    PackerHolds s (pendingBits s) where
  short := by have := s.pkbit.isLt; simp [pendingBits]; omega
  bit := by simp [pendingBits]
  byte := by
    apply byte_ext
    intro p hp
    rw [byteOfBits, bitAt_byteOf _ _ hp]
    by_cases hlt : p < s.pkbit.toNat
    · simp [pushedBit, pendingBits, hlt]
    · rw [h p (by omega) hp, pushedBit_of_length_le (by simp [pendingBits]; omega)]

/-- The bits that `popBits` places. -/
def poppedBits (stk : Half) (n : Nat) : List Bool := (List.range n).map stk.getLsbD

@[simp] theorem length_poppedBits (stk : Half) (n : Nat) : (poppedBits stk n).length = n := by simp [poppedBits]

theorem poppedBits_succ (stk : Half) (n : Nat) :
    poppedBits stk (n + 1) = stk.getLsbD 0 :: poppedBits (stk >>> 1) n := by
  simp only [poppedBits, List.range_succ_eq_map, List.map_cons, List.map_map]
  congr 1
  apply List.map_congr_left
  intro j _
  simp [Nat.add_comm]

/-- The stack gives back the low bits of the value, most significant first: the two reversals cancel (43_bit_packer
R254). -/
theorem poppedBits_extract (v : Half) (w : BitVec 5) :
    poppedBits (extract v w).1 (extract v w).2 = valueBits v (min w.toNat 16) := by
  simp only [poppedBits, valueBits, extract, clampWidth_eq]
  apply List.map_congr_left
  intro j hj
  have hj : j < min w.toNat 16 := by simpa using hj
  rw [getLsbD_extractBits _ _ _ (by omega)]
  simp [hj]

/-- The packer when it holds the bits `xs` and the bits of `ys` are placed in it: the whole bytes of `xs ++ ys` are offered
and the rest is held. -/
abbrev PacksBits (e : Emission) (k : Nat) (s : State) (bits : List Bool) : Prop :=
  Emits e k s ((List.range (bits.length / 8)).map (byteOfBits bits)) (byteOfBits bits (bits.length / 8))
    (BitVec.ofNat 3 (bits.length % 8)) (s.pkcnt + BitVec.ofNat 32 (bits.length / 8))

theorem packsBits_popBits {s : State} {xs : List Bool} (n : Nat) (stk : Half) (k : Nat) (h : PackerHolds s xs) :
    PacksBits (popBits n stk k s) k s (xs ++ poppedBits stk n) := by
  induction n generalizing stk k s xs with
  | zero =>
    have hs := h.short
    have := emits_ok k s s.pkbyte s.pkbit s.pkcnt
    rw [h.byte, h.bit] at this
    simpa [PacksBits, poppedBits, Nat.div_eq_of_lt hs, Nat.mod_eq_of_lt hs, popBits, ← h.byte, ← h.bit] using this
  | succ n ih =>
    have hs := h.short
    have hpos : s.pkbit.toNat = xs.length := by rw [h.bit, BitVec.toNat_ofNat]; omega
    have hplaced : placed (stk.getLsbD 0) s.pkbyte s.pkbit = byteOfBits (xs ++ [stk.getLsbD 0]) 0 := by
      rw [placed, h.byte, hpos, byteOfBits_concat _ hs]
    simp only [popBits, poppedBits_succ]
    by_cases h7 : s.pkbit = 7
    · have hlen : (xs ++ [stk.getLsbD 0]).length = 8 := by
        have : s.pkbit.toNat = 7 := by rw [h7]; rfl
        simp; omega
      have step := emits_placeBit_full (stk.getLsbD 0) k s h7
      have rest := ih (s := withPacker 0 0 (s.pkcnt + 1) (withOutput [placed (stk.getLsbD 0) s.pkbyte s.pkbit] s))
        (xs := []) (stk >>> 1) (k + 1) (packerHolds_idle rfl rfl)
      rw [List.nil_append] at rest
      have all := emits_andThen step rest
      rw [show xs ++ stk.getLsbD 0 :: poppedBits (stk >>> 1) n = (xs ++ [stk.getLsbD 0]) ++ poppedBits (stk >>> 1) n by simp]
      have hcount : ((xs ++ [stk.getLsbD 0]) ++ poppedBits (stk >>> 1) n).length / 8
          = (poppedBits (stk >>> 1) n).length / 8 + 1 := by
        rw [List.length_append, hlen]; omega
      have hrest : ((xs ++ [stk.getLsbD 0]) ++ poppedBits (stk >>> 1) n).length % 8
          = (poppedBits (stk >>> 1) n).length % 8 := by
        rw [List.length_append, hlen]; omega
      simp only [PacksBits]
      rw [hcount, hrest, List.range_succ_eq_map, List.map_cons, List.map_map, byteOfBits_byte_append hlen,
        byteOfBits_zero_append hlen, ← hplaced]
      have hcnt : s.pkcnt + BitVec.ofNat 32 ((poppedBits (stk >>> 1) n).length / 8 + 1)
          = s.pkcnt + 1 + BitVec.ofNat 32 ((poppedBits (stk >>> 1) n).length / 8) := by
        rw [Nat.add_comm, BitVec.ofNat_add, BitVec.add_assoc]
        rfl
      have hmap : byteOfBits (xs ++ [stk.getLsbD 0] ++ poppedBits (stk >>> 1) n) ∘ Nat.succ
          = byteOfBits (poppedBits (stk >>> 1) n) := funext fun j => byteOfBits_byte_append hlen j
      rw [hcnt, hmap]
      exact all
    · have hlt : xs.length + 1 < 8 := by
        have : s.pkbit.toNat ≠ 7 := fun hc => h7 (BitVec.eq_of_toNat_eq hc)
        omega
      have step := emits_placeBit_part (stk.getLsbD 0) k s h7
      have rest := ih (s := withPacker (placed (stk.getLsbD 0) s.pkbyte s.pkbit) (s.pkbit + 1) s.pkcnt (withOutput [] s))
        (xs := xs ++ [stk.getLsbD 0]) (stk >>> 1) k
        { short := by simpa using hlt
          bit := by
            simp only [withPacker, h.bit, List.length_append, List.length_singleton, BitVec.ofNat_add]
            rfl
          byte := hplaced }
      have all := emits_andThen step rest
      rw [show xs ++ stk.getLsbD 0 :: poppedBits (stk >>> 1) n = (xs ++ [stk.getLsbD 0]) ++ poppedBits (stk >>> 1) n by simp]
      exact all

/-- `PackValue` (43_bit_packer R254): the value's low bits join what the packer holds, most significant first. -/
theorem packsBits_packValue {s : State} {xs : List Bool} (v : Half) (w : BitVec 5) (k : Nat) (h : PackerHolds s xs) :
    PacksBits (packValue v w k s) k s (xs ++ valueBits v (min w.toNat 16)) := by
  have := packsBits_popBits (extract v w).2 (extract v w).1 k h
  rwa [poppedBits_extract] at this

theorem byteOfBits_drop (bits : List Bool) (m k : Nat) : byteOfBits (bits.drop (8 * m)) k = byteOfBits bits (m + k) := by
  refine byteOf_congr fun p _ => ?_
  simp only [pushedBit, List.getD_eq_getElem?_getD, List.getElem?_drop]
  rw [show 8 * m + (8 * k + p) = 8 * (m + k) + p by omega]

/-- What the packer holds when the whole bytes of `bits` have been offered. -/
theorem packerHolds_rest (bits : List Bool) (cnt : Word) (s : State) :
    PackerHolds (withPacker (byteOfBits bits (bits.length / 8)) (BitVec.ofNat 3 (bits.length % 8)) cnt s)
      (bits.drop (8 * (bits.length / 8))) where
  short := by simp; omega
  bit := by
    rw [List.length_drop, show bits.length - 8 * (bits.length / 8) = bits.length % 8 by omega]
    rfl
  byte := by rw [byteOfBits_drop]; rfl

/-- One placing after another: the second starts with what the first left in the packer. -/
theorem packsBits_andThen {e : Emission} {f : Nat → State → Emission} {k : Nat} {s : State} {xs ys : List Bool}
    (he : PacksBits e k s xs)
    (hf : ∀ (k : Nat) (t : State), PackerHolds t (xs.drop (8 * (xs.length / 8))) →
      PacksBits (f k t) k t (xs.drop (8 * (xs.length / 8)) ++ ys)) :
    PacksBits (andThen e f) k s (xs ++ ys) := by
  have all := emits_andThen he (hf _ _ (packerHolds_rest xs _ _))
  have hdrop : xs.drop (8 * (xs.length / 8)) ++ ys = (xs ++ ys).drop (8 * (xs.length / 8)) :=
    (List.drop_append_of_le_length (by omega)).symm
  have hcount : (xs ++ ys).length / 8 = xs.length / 8 + ((xs ++ ys).drop (8 * (xs.length / 8))).length / 8 := by
    simp only [List.length_drop, List.length_append]; omega
  have hrest : (xs ++ ys).length % 8 = ((xs ++ ys).drop (8 * (xs.length / 8))).length % 8 := by
    simp only [List.length_drop, List.length_append]; omega
  rw [hdrop] at all
  simp only [PacksBits]
  rw [hcount, hrest, List.range_add, List.map_append, List.map_map, ← byteOfBits_drop, BitVec.ofNat_add, ← BitVec.add_assoc]
  have hfirst : (List.range (xs.length / 8)).map (byteOfBits (xs ++ ys))
      = (List.range (xs.length / 8)).map (byteOfBits xs) :=
    List.map_congr_left fun j hj => byteOf_congr fun p hp => pushedBit_append_left (by
      have : j < xs.length / 8 := by simpa using hj
      omega)
  have hlast : byteOfBits (xs ++ ys) ∘ (fun j => xs.length / 8 + j)
      = byteOfBits ((xs ++ ys).drop (8 * (xs.length / 8))) := funext fun j => (byteOfBits_drop _ _ _).symm
  rw [hfirst, hlast]
  exact all

/-- The values of a file, one after another, join into one stream. -/
theorem packsBits_packValues {s : State} {xs : List Bool} (w : BitVec 5) (file : List Half) (k : Nat)
    (h : PackerHolds s xs) :
    PacksBits (packValues w file k s) k s (xs ++ file.flatMap fun v => valueBits v (min w.toNat 16)) := by
  induction file generalizing k s xs with
  | nil =>
    have := packsBits_popBits 0 0 k h
    simpa [poppedBits, popBits, packValues] using this
  | cons v file ih =>
    rw [List.flatMap_cons, ← List.append_assoc]
    exact packsBits_andThen (packsBits_packValue v w k h) fun k t ht => ih k ht

end Sys2Proof.Machine
end

