-- ==== Sys2Proof/Laws/PerInstr.lean ====
section
/-! SUPPORT. The family of statements that are made per instruction: the word that the encoder writes is an instance of the
instruction's own row of the opcode table (30_encoding R128, R132). -/

namespace Sys2Proof.Laws

/-- The instruction's word is covered by the row of its mnemonic. -/
def EncodesOnItsRow.Statement (i : Instr) : Prop :=
  match encode i with
  | .cmd w => ∃ row ∈ cmdRows, row.mnemonic = mnemonicOf i ∧ row.covers w
  | .csm q => ∃ row ∈ csmRows, row.mnemonic = mnemonicOf i ∧ row.covers q

theorem EncodesOnItsRow.cfg (n : Half) (b : BitVec 5) : Statement (.cfg n b) := by
  refine ⟨cmdRows[0], by decide, rfl, (and_highMask_eq_iff _ _ _ 21 (by decide)).2 ?_⟩
  rw [toNat_wordC]
  have := n.isLt; have := b.isLt
  simp only [cmdRows, List.getElem_cons_zero, BitVec.ofNat_eq_ofNat, BitVec.toNat_ofNat]
  omega

theorem EncodesOnItsRow.cfgA (n : Half) : Statement (.cfgA n) := by
  refine ⟨cmdRows[1], by decide, rfl, (and_highMask_eq_iff _ _ _ 16 (by decide)).2 ?_⟩
  rw [toNat_wordC]
  have := n.isLt
  simp only [cmdRows, List.getElem_cons_zero, List.getElem_cons_succ, BitVec.ofNat_eq_ofNat, BitVec.toNat_ofNat]
  omega

theorem EncodesOnItsRow.clr : Statement .clr :=
  ⟨cmdRows[2], by decide, rfl, by decide⟩

theorem EncodesOnItsRow.rst : Statement .rst :=
  ⟨cmdRows[3], by decide, rfl, by decide⟩

theorem EncodesOnItsRow.rd (sel : BitVec 4) (idx : BitVec 20) : Statement (.rd sel idx) := by
  refine ⟨cmdRows[4], by decide, rfl, (and_highMask_eq_iff _ _ _ 24 (by decide)).2 ?_⟩
  rw [toNat_wordA]
  have := sel.isLt; have := idx.isLt
  simp only [opRd, cmdRows, List.getElem_cons_zero, List.getElem_cons_succ, BitVec.ofNat_eq_ofNat, BitVec.toNat_ofNat]
  omega

theorem EncodesOnItsRow.pushb (v : Byte) : Statement (.pushb v) := by
  refine ⟨cmdRows[5], by decide, rfl, (and_highMask_eq_iff _ _ _ 8 (by decide)).2 ?_⟩
  rw [toNat_wordV]
  have := v.isLt
  simp only [opPushb, cmdRows, List.getElem_cons_zero, List.getElem_cons_succ, BitVec.ofNat_eq_ofNat, BitVec.toNat_ofNat]
  omega

theorem EncodesOnItsRow.pushbit (v : Byte) : Statement (.pushbit v) := by
  refine ⟨cmdRows[6], by decide, rfl, (and_highMask_eq_iff _ _ _ 8 (by decide)).2 ?_⟩
  rw [toNat_wordV]
  have := v.isLt
  simp only [opPushbit, cmdRows, List.getElem_cons_zero, List.getElem_cons_succ, BitVec.ofNat_eq_ofNat, BitVec.toNat_ofNat]
  omega

theorem EncodesOnItsRow.bitx (byte : Byte) (p : BitVec 4) : Statement (.bitx byte p) := by
  refine ⟨cmdRows[7], by decide, rfl, (and_highMask_eq_iff _ _ _ 12 (by decide)).2 ?_⟩
  rw [toNat_wordX]
  have := byte.isLt; have := p.isLt
  simp only [opBitx, cmdRows, List.getElem_cons_zero, List.getElem_cons_succ, BitVec.ofNat_eq_ofNat, BitVec.toNat_ofNat]
  omega

theorem EncodesOnItsRow.xtr (val : Half) (w : BitVec 5) : Statement (.xtr val w) := by
  refine ⟨cmdRows[8], by decide, rfl, (and_highMask_eq_iff _ _ _ 21 (by decide)).2 ?_⟩
  rw [toNat_wordW]
  have := val.isLt; have := w.isLt
  simp only [opXtr, cmdRows, List.getElem_cons_zero, List.getElem_cons_succ, BitVec.ofNat_eq_ofNat, BitVec.toNat_ofNat]
  omega

theorem EncodesOnItsRow.pkw (val : Half) (w : BitVec 5) : Statement (.pkw val w) := by
  refine ⟨cmdRows[9], by decide, rfl, (and_highMask_eq_iff _ _ _ 21 (by decide)).2 ?_⟩
  rw [toNat_wordW]
  have := val.isLt; have := w.isLt
  simp only [opPkw, cmdRows, List.getElem_cons_zero, List.getElem_cons_succ, BitVec.ofNat_eq_ofNat, BitVec.toNat_ofNat]
  omega

theorem EncodesOnItsRow.pkf : Statement .pkf :=
  ⟨cmdRows[10], by decide, rfl, by decide⟩

theorem EncodesOnItsRow.ser : Statement .ser :=
  ⟨cmdRows[11], by decide, rfl, by decide⟩

theorem EncodesOnItsRow.csmResize (n : Half) : Statement (.csmResize n) := by
  refine ⟨csmRows[0], by decide, rfl, (and_highMask_eq_iff _ _ _ 16 (by decide)).2 ?_⟩
  rw [toNat_requestQ]
  have := n.isLt
  simp only [copResize, csmRows, List.getElem_cons_zero, BitVec.ofNat_eq_ofNat, BitVec.toNat_ofNat]
  omega

theorem EncodesOnItsRow.csmGet (r c : Half) : Statement (.csmGet r c) := by
  refine ⟨csmRows[1], by decide, rfl, (and_highMask_eq_iff _ _ _ 32 (by decide)).2 ?_⟩
  rw [toNat_requestQ]
  have := r.isLt; have := c.isLt
  simp only [copGet, csmRows, List.getElem_cons_zero, List.getElem_cons_succ, BitVec.ofNat_eq_ofNat, BitVec.toNat_ofNat]
  omega

theorem EncodesOnItsRow.csmSet (r c : Half) (v : Byte) : Statement (.csmSet r c v) := by
  refine ⟨csmRows[2], by decide, rfl, (and_highMask_eq_iff _ _ _ 40 (by decide)).2 ?_⟩
  rw [toNat_requestQ]
  have := r.isLt; have := c.isLt; have := v.isLt
  simp only [copSet, csmRows, List.getElem_cons_zero, List.getElem_cons_succ, BitVec.ofNat_eq_ofNat, BitVec.toNat_ofNat]
  omega

theorem EncodesOnItsRow.csmLock (r c : Half) : Statement (.csmLock r c) := by
  refine ⟨csmRows[3], by decide, rfl, (and_highMask_eq_iff _ _ _ 32 (by decide)).2 ?_⟩
  rw [toNat_requestQ]
  have := r.isLt; have := c.isLt
  simp only [copLock, csmRows, List.getElem_cons_zero, List.getElem_cons_succ, BitVec.ofNat_eq_ofNat, BitVec.toNat_ofNat]
  omega

theorem EncodesOnItsRow.csmIslocked (r c : Half) : Statement (.csmIslocked r c) := by
  refine ⟨csmRows[4], by decide, rfl, (and_highMask_eq_iff _ _ _ 32 (by decide)).2 ?_⟩
  rw [toNat_requestQ]
  have := r.isLt; have := c.isLt
  simp only [copIslocked, csmRows, List.getElem_cons_zero, List.getElem_cons_succ, BitVec.ofNat_eq_ofNat, BitVec.toNat_ofNat]
  omega

theorem EncodesOnItsRow.csmSize : Statement .csmSize :=
  ⟨csmRows[5], by decide, rfl, by decide⟩

end Sys2Proof.Laws
end

