-- ==== Sys2Proof/Laws/Tracks.lean ====
section
/-! SUPPORT. The block and the bits pushed into it: one more bit through `PushBit` keeps every register what the rules make
of the bits (40_bit_extractor R167, 41_cross_sum R199, 42_row_hash R221 and R224). -/

namespace Sys2Proof.Machine

open Sys2Proof.Safety

/-- One more bit is at the end. -/
theorem pushedBit_concat (bits : List Bool) (b : Bool) (j : Nat) :
    pushedBit (bits ++ [b]) j = if j = bits.length then b else pushedBit bits j := by
  simp only [pushedBit]
  split_ifs with h
  · subst h; simp
  · by_cases h' : j < bits.length
    · simp [List.getElem?_append, h']
    · simp [List.getElem?_append, h']
      have : j - bits.length ≠ 0 := by omega
      cases hh : j - bits.length with
      | zero => omega
      | succ m => simp

/-- One more bit counts on the index of its position, when it is 1. -/
theorem bitSum_concat (idx : Nat → Nat → Nat → Nat) (n : Nat) (bits : List Bool) (b : Bool) (k : Nat) :
    bitSum idx n (bits ++ [b]) k = bitSum idx n bits k
      + (if b = true ∧ idx (bits.length / n) (bits.length % n) n = k then 1 else 0) := by
  simp only [bitSum, List.length_append, List.length_singleton, List.range_succ, List.countP_append]
  congr 1
  · apply List.countP_congr
    intro j hj
    have : j < bits.length := by simpa using hj
    rw [pushedBit_concat, if_neg (by omega)]
  · simp [List.countP_singleton, pushedBit_concat]

/-- Adding the bit to the counter of its position makes the file of the bits with it (41_cross_sum R195, R199). -/
theorem addBit_sumFile (idx : Nat → Nat → Nat → Nat) (n : Nat) (bits : List Bool) (b : Bool) :
    addBit (sumFile idx n bits) (idx (bits.length / n) (bits.length % n) n) b = sumFile idx n (bits ++ [b]) := by
  apply List.ext_getElem (by simp [sumFile])
  intro k h1 h2
  have hk : k < n := by simpa [sumFile] using h2
  have h := getD_addBit (file := sumFile idx n bits) (i := idx (bits.length / n) (bits.length % n) n) (k := k) b
    (by simpa [sumFile] using hk)
  rw [List.getD_eq_getElem _ _ h1] at h
  rw [h]
  simp only [sumFile, List.getElem_map, List.getElem_range, bitSum_concat, BitVec.ofNat_add]
  rw [List.getD_eq_getElem _ _ (by simpa using hk)]
  simp only [List.getElem_map, List.getElem_range]
  congr 1
  cases b
  · simp
  · by_cases h : k = idx (bits.length / n) (bits.length % n) n
    · subst h; simp
    · simp [h, Ne.symm h]

/-- A completed row does not change. -/
theorem rowBytes_concat_of_le (n : Nat) (bits : List Bool) (b : Bool) (r : Nat) (h : (r + 1) * n ≤ bits.length) :
    rowBytes n (bits ++ [b]) r = rowBytes n bits r := by
  simp only [rowBytes]
  apply List.map_congr_left
  intro j _
  apply byteOf_congr
  intro p _
  by_cases hc : 8 * j + p < n
  · rw [pushedBit_concat, if_neg]
    have : (r+1)*n = r*n + n := by ring
    omega
  · simp [hc]

/-- A row not begun is zero bytes. -/
theorem rowBytes_of_length_le (n : Nat) (bits : List Bool) (r : Nat) (h : bits.length ≤ r * n) :
    rowBytes n bits r = List.replicate (ceilBytes n) 0 := by
  rw [List.eq_replicate_iff]
  refine ⟨by simp [rowBytes], fun x hx => ?_⟩
  simp only [rowBytes, List.mem_map] at hx
  obtain ⟨j, _, rfl⟩ := hx
  rw [← byteOf_false]
  apply byteOf_congr
  intro p _
  rw [pushedBit_of_length_le (by omega), Bool.and_false]

/-- The append of one bit to the current row (42_row_hash R221). -/
theorem rowBytes_concat_current (n : Nat) (hn : 1 ≤ n) (bits : List Bool) (b : Bool) :
    let r := bits.length / n
    let c := bits.length % n
    (rowBytes n bits r).set (c / 8) ((rowBytes n bits r).getD (c / 8) 0 ||| byteWithBit b (c % 8))
      = rowBytes n (bits ++ [b]) r := by
  intro r c
  have hc : c < n := Nat.mod_lt _ hn
  have hN : r * n + c = bits.length := by rw [Nat.mul_comm]; exact Nat.div_add_mod _ _
  have hlen : c / 8 < ceilBytes n := by simp only [ceilBytes]; omega
  apply List.ext_getElem (by simp [rowBytes])
  intro j h1 h2
  have hj : j < ceilBytes n := by simpa [rowBytes] using h2
  apply byte_ext
  intro p hp
  have hR : bitAt ((rowBytes n (bits ++ [b]) r)[j]) p
      = (decide (8 * j + p < n) && pushedBit (bits ++ [b]) (r * n + (8 * j + p))) := by
    simp only [rowBytes, List.getElem_map, List.getElem_range]; rw [bitAt_byteOf _ _ hp]
  have hL : ∀ h : j < (rowBytes n bits r).length, bitAt ((rowBytes n bits r)[j]) p
      = (decide (8 * j + p < n) && pushedBit bits (r * n + (8 * j + p))) := by
    intro h
    simp only [rowBytes, List.getElem_map, List.getElem_range]; rw [bitAt_byteOf _ _ hp]
  rw [hR, List.getElem_set]
  split_ifs with hjc
  · rw [bitAt_or, List.getD_eq_getElem _ _ (by simpa [rowBytes] using hlen), bitAt_byteWithBit _ _ _ (by omega) hp]
    subst hjc
    rw [hL (by simpa [rowBytes] using hlen), pushedBit_concat]
    by_cases hpc : p = c % 8
    · rw [if_pos (by omega), pushedBit_of_length_le (by omega)]
      simp [hpc]; omega
    · rw [if_neg (by omega)]; simp [hpc]
  · rw [hL, pushedBit_concat, if_neg (by omega)]

/-- `PushBit` on a block that is not complete (40_bit_extractor R166, R167). -/
theorem tracks_pushBit (s : State) (bits : List Bool) (b : Bool) (h : Tracks s bits)
    (hlt : bits.length < s.dim.toNat * s.dim.toNat) : Tracks (pushBit b s) (bits ++ [b]) := by
  obtain ⟨hpos, hfit, hr, hc, hrow, hcol, hdiag, hanti, hdig, hbuf, hbyte, hbit⟩ := h
  have hn : s.dim.toNat < 65536 := s.dim.isLt
  have hcl : bits.length % s.dim.toNat < s.dim.toNat := Nat.mod_lt _ hpos
  have hrl : bits.length / s.dim.toNat < s.dim.toNat := Nat.div_lt_of_lt_mul hlt
  have hN : bits.length / s.dim.toNat * s.dim.toNat + bits.length % s.dim.toNat = bits.length := by
    rw [Nat.mul_comm]; exact Nat.div_add_mod _ _
  have happ : (appendBit b s).hbuf = rowBytes s.dim.toNat (bits ++ [b]) (bits.length / s.dim.toNat) := by
    rw [appendBit_hbuf, hbyte, hbit, hbuf]
    exact rowBytes_concat_current _ hpos bits b
  have hlb : s.hbuf.length = ceilBytes s.dim.toNat := by rw [hbuf]; simp [rowBytes]
  have hcommon : (pushBit b s).row = sumFile rowIdx s.dim.toNat (bits ++ [b])
      ∧ (pushBit b s).col = sumFile colIdx s.dim.toNat (bits ++ [b])
      ∧ (pushBit b s).diag = sumFile diagIdx s.dim.toNat (bits ++ [b])
      ∧ (pushBit b s).anti = sumFile antiIdx s.dim.toNat (bits ++ [b]) := by
    rw [pushBit_row, pushBit_col, pushBit_diag, pushBit_anti, hr, hc, hrow, hcol, hdiag, hanti]
    exact ⟨addBit_sumFile rowIdx _ _ _, addBit_sumFile colIdx _ _ _, addBit_sumFile diagIdx _ _ _,
      addBit_sumFile antiIdx _ _ _⟩
  by_cases he : s.c.toNat + 1 = s.dim.toNat
  · obtain ⟨e1, e2, e3, e4, e5, e6⟩ := pushBit_endOfRow b s he
    have hdm : (bits.length + 1) / s.dim.toNat = bits.length / s.dim.toNat + 1
        ∧ (bits.length + 1) % s.dim.toNat = 0 := by
      rw [hc] at he
      have : bits.length + 1 = s.dim.toNat * (bits.length / s.dim.toNat + 1) := by rw [Nat.mul_add, Nat.mul_comm]; omega
      rw [this]
      exact ⟨Nat.mul_div_cancel_left _ hpos, Nat.mul_mod_right _ _⟩
    constructor
    · simpa using hpos
    · simp; omega
    · rw [e5, hr]; simp [hdm]; omega
    · rw [e6]; simp [hdm]
    · simpa using hcommon.1
    · simpa using hcommon.2.1
    · simpa using hcommon.2.2.1
    · simpa using hcommon.2.2.2
    · rw [e1, happ, hdig, hr]
      simp only [pushBit_dim, List.length_append, List.length_singleton, hdm.1]
      apply List.ext_getElem (by simp [digestFile])
      intro k h1 h2
      have hk : k < s.dim.toNat := by simpa [digestFile] using h2
      simp only [List.getElem_set, digestFile, List.getElem_map, List.getElem_range]
      by_cases hkr : bits.length / s.dim.toNat = k
      · simp [hkr]
      · rw [if_neg hkr]
        by_cases hkl : k < bits.length / s.dim.toNat
        · rw [if_pos hkl, if_pos (by omega), rowBytes_concat_of_le]
          calc (k+1) * s.dim.toNat ≤ bits.length / s.dim.toNat * s.dim.toNat := Nat.mul_le_mul_right _ hkl
            _ ≤ _ := by omega
        · rw [if_neg hkl, if_neg (by omega)]
    · rw [e2, hlb]
      simp only [pushBit_dim, List.length_append, List.length_singleton, hdm.1]
      rw [rowBytes_of_length_le]
      simp; rw [Nat.add_mul]; omega
    · rw [e4]; simp [hdm]
    · rw [e3]; simp [hdm]
  · obtain ⟨e1, e2, e3, e4, e5, e6⟩ := pushBit_inRow b s he
    have hdm : (bits.length + 1) / s.dim.toNat = bits.length / s.dim.toNat
        ∧ (bits.length + 1) % s.dim.toNat = bits.length % s.dim.toNat + 1 := by
      rw [hc] at he
      have : bits.length + 1 = (bits.length % s.dim.toNat + 1) + s.dim.toNat * (bits.length / s.dim.toNat) := by
        rw [Nat.mul_comm]; omega
      have hl : bits.length % s.dim.toNat + 1 < s.dim.toNat := by omega
      constructor
      · conv_lhs => rw [this]
        rw [Nat.add_mul_div_left _ _ (by omega), Nat.div_eq_of_lt hl]; omega
      · conv_lhs => rw [this]
        rw [Nat.add_mul_mod_self_left, Nat.mod_eq_of_lt hl]
    constructor
    · simpa using hpos
    · simp; omega
    · rw [e5, hr]; simp [hdm]
    · rw [e6, hc]; simp [hdm]; omega
    · simpa using hcommon.1
    · simpa using hcommon.2.1
    · simpa using hcommon.2.2.1
    · simpa using hcommon.2.2.2
    · rw [e1, hdig]
      simp only [pushBit_dim, List.length_append, List.length_singleton, hdm.1]
      simp only [digestFile]
      apply List.map_congr_left
      intro k _
      split_ifs with hk
      · rw [rowBytes_concat_of_le]
        calc (k+1) * s.dim.toNat ≤ bits.length / s.dim.toNat * s.dim.toNat := Nat.mul_le_mul_right _ hk
            _ ≤ _ := by omega
      · rfl
    · rw [e2, happ]
      simp only [pushBit_dim, List.length_append, List.length_singleton, hdm.1]
    · rw [e4]
      simp only [pushBit_dim, List.length_append, List.length_singleton, hdm.2]
      have h7 : s.hbit = 7 ↔ s.hbit.toNat = 7 := by rw [← BitVec.toNat_inj]; rfl
      by_cases h : s.hbit = 7
      · rw [if_pos h, BitVec.toNat_add, hbyte]
        have := h7.1 h
        simp only [BitVec.ofNat_eq_ofNat, BitVec.toNat_ofNat]
        omega
      · rw [if_neg h, hbyte]; have : s.hbit.toNat ≠ 7 := fun x => h (h7.2 x); omega
    · rw [e3]
      simp only [pushBit_dim, List.length_append, List.length_singleton, hdm.2]
      have h7 : s.hbit = 7 ↔ s.hbit.toNat = 7 := by rw [← BitVec.toNat_inj]; rfl
      by_cases h : s.hbit = 7
      · rw [if_pos h]; have := h7.1 h; simp only [BitVec.ofNat_eq_ofNat, BitVec.toNat_ofNat]; omega
      · rw [if_neg h, BitVec.toNat_add, hbit]; have : s.hbit.toNat ≠ 7 := fun x => h (h7.2 x); simp only [BitVec.ofNat_eq_ofNat, BitVec.toNat_ofNat]; omega

/-- `PushBit` of several bits. -/
theorem tracks_pushBits (more : List Bool) (s : State) (bits : List Bool) (h : Tracks s bits)
    (hfit : bits.length + more.length ≤ s.dim.toNat * s.dim.toNat) : Tracks (pushBits more s) (bits ++ more) := by
  induction more generalizing s bits with
  | nil => simpa using h
  | cons b more ih =>
    rw [List.length_cons] at hfit
    have := ih (pushBit b s) (bits ++ [b]) (tracks_pushBit s bits b h (by omega)) (by simp; omega)
    simpa using this

end Sys2Proof.Machine
end

