-- ==== Sys2Proof/Tests/Slice0.lean ====
section
/-! SUPPORT. The model's own tests. Expected values come from spec/95_test_vectors.md (the vector is named with each test) or
are worked out from the encoding tables; the witnesses show, for each statement with hypotheses, a state and operands that
meet them, at the edges of its clauses. -/

namespace Sys2Proof.Tests

open Sys2Proof Sys2Proof.Machine Sys2Proof.Safety

/-! ## Ill-formed terms are refused (the smoke test) -/

theorem test_illFormed_cfg_dimension : (AsmLine.cfg 65536 0).wf = false := by decide
theorem test_illFormed_cfg_width : (AsmLine.cfg 2 32).wf = false := by decide
theorem test_illFormed_cfgA : (AsmLine.cfgA 65536).wf = false := by decide
theorem test_illFormed_rd_window : (AsmLine.rd 16 0).wf = false := by decide
theorem test_illFormed_rd_index : (AsmLine.rd 0 1048576).wf = false := by decide
theorem test_illFormed_pushb : (AsmLine.pushb 256).wf = false := by decide
theorem test_illFormed_pushbit : (AsmLine.pushbit 256).wf = false := by decide
theorem test_illFormed_bitx_byte : (AsmLine.bitx 256 0).wf = false := by decide
theorem test_illFormed_bitx_position : (AsmLine.bitx 0 16).wf = false := by decide
theorem test_illFormed_xtr_value : (AsmLine.xtr 65536 0).wf = false := by decide
theorem test_illFormed_xtr_width : (AsmLine.xtr 0 32).wf = false := by decide
theorem test_illFormed_pkw_value : (AsmLine.pkw 65536 0).wf = false := by decide
theorem test_illFormed_pkw_width : (AsmLine.pkw 0 32).wf = false := by decide
theorem test_illFormed_csmResize : (AsmLine.csmResize 65536).wf = false := by decide
theorem test_illFormed_csmGet : (AsmLine.csmGet 65536 0).wf = false ∧ (AsmLine.csmGet 0 65536).wf = false := by decide
theorem test_illFormed_csmSet : (AsmLine.csmSet 65536 0 0).wf = false ∧ (AsmLine.csmSet 0 65536 0).wf = false
    ∧ (AsmLine.csmSet 0 0 256).wf = false := by decide
theorem test_illFormed_csmLock : (AsmLine.csmLock 65536 0).wf = false ∧ (AsmLine.csmLock 0 65536).wf = false := by decide
theorem test_illFormed_csmIslocked : (AsmLine.csmIslocked 65536 0).wf = false ∧ (AsmLine.csmIslocked 0 65536).wf = false := by
  decide
theorem test_illFormed_pseudo : pseudoWf (.block [0, 256]) = false ∧ pseudoWf (.encode [255]) = true := by decide
theorem test_illFormed_params : ¬ Config.Params.wf { sMax := 0, hasCsm := true } := by decide

/-! ## Words written out bit by bit from the formats (30_encoding R123, R125, R132) -/

theorem test_decode_cfg : decodeTableWord 32 0b00000001000100010000000000000010 = some (.cfg 2 17) := by decide
theorem test_decode_cfgA : decodeTableWord 32 0b00000001100000000000001000000000 = some (.cfgA 512) := by decide
theorem test_decode_clr : decodeTableWord 32 0b00000010000000000000000000000000 = some .clr := by decide
theorem test_decode_rst : decodeTableWord 32 0b00000011000000000000000000000000 = some .rst := by decide
theorem test_decode_rd : decodeTableWord 32 0b00000100011000000000000000111111 = some (.rd 6 63) := by decide
theorem test_decode_pushb : decodeTableWord 32 0b00010000000000000000000011001111 = some (.pushb 0xCF) := by decide
theorem test_decode_pushbit : decodeTableWord 32 0b00010001000000000000000000000001 = some (.pushbit 1) := by decide
theorem test_decode_bitx : decodeTableWord 32 0b00010010000000000000100001011011 = some (.bitx 0x5B 8) := by decide
theorem test_decode_xtr : decodeTableWord 32 0b00100000000111111010101111001101 = some (.xtr 0xABCD 31) := by decide
theorem test_decode_pkw : decodeTableWord 32 0b00100001000100001111111111111111 = some (.pkw 0xFFFF 16) := by decide
theorem test_decode_pkf : decodeTableWord 32 0b00100010000000000000000000000000 = some .pkf := by decide
theorem test_decode_ser : decodeTableWord 32 0b00110000000000000000000000000000 = some .ser := by decide
theorem test_decode_csmResize : decodeTableWord 64
    0b0100000000000000000000000000000000000000000000000000000000000100 = some (.csmResize 4) := by decide
theorem test_decode_csmGet : decodeTableWord 64
    0b0100000100000000000000000000000000000000000001010000000000001001 = some (.csmGet 5 9) := by decide
theorem test_decode_csmSet : decodeTableWord 64
    0b0100001000000000000000000000001000000000000000010000000000000010 = some (.csmSet 1 2 2) := by decide
theorem test_decode_csmLock : decodeTableWord 64
    0b0100001100000000000000000000000000000000000000010000000000000010 = some (.csmLock 1 2) := by decide
theorem test_decode_csmIslocked : decodeTableWord 64
    0b0100010000000000000000000000000000000000000000000000000000000111 = some (.csmIslocked 0 7) := by decide
theorem test_decode_csmSize : decodeTableWord 64
    0b0100010100000000000000000000000000000000000000000000000000000000 = some .csmSize := by decide

/-- V-DEC1: none of these words decodes. -/
theorem test_decode_illegal : ([0x00000000, 0xFFFFFFFF, 0x05000000, 0x40000000, 0x01200002, 0x01400002, 0x01810002,
    0x01920004, 0x02000001, 0x03800000, 0x10000100, 0x11010000, 0x12001000, 0x20200000, 0x21800000, 0x22000001,
    0x30000001].all fun w => (decodeTableWord 32 w).isNone) = true := by decide

/-- 30_encoding R132: an undefined operation and, for each request, a nonzero must-be-zero field. -/
theorem test_decode_illegalRequests : ([0x4600000000000000, 0x4000000100000004, 0x4000000000010004, 0x4100000100000000,
    0x4200010000000000, 0x4300000100000000, 0x4400000100000000, 0x4500000000000001].all
    fun w => (decodeTableWord 64 w).isNone) = true := by decide

/-- The step names which check refused the word (30_encoding R126 steps 1 to 3, R132). -/
theorem test_decode_reasons : decode (.cmd 0x05000000) = .error .unknownOpcode
    ∧ decode (.cmd 0x01200002) = .error .nonzeroField ∧ decode (.cmd 0x01810002) = .error .autoWithWidth
    ∧ decode (.csm 0x4600000000000000) = .error .unknownOperation
    ∧ decode (.csm 0x4500000000000001) = .error .nonzeroRequestField := by decide

/-! ## The assembler (30_encoding R129, R130) -/

theorem test_assemble_bitx : assemble (.bitx 0x5B 1) = some (.cmd 0x1200015B) := by decide
theorem test_assembleText : assembleText "CFG 2, 17 ; wide\nBLOCK 0xA5, 0b1\nRDCSR POS\nCSM.SET 1, 2, 1".toList
    = some [.cmd 0x01110002, .cmd 0x100000A5, .cmd 0x10000001, .cmd 0x04000002, .csm 0x4200000100010002] := by decide
theorem test_assembleText_bits : assembleText "BITS \"10\"\nRDDIG 1, 2\nENCODE 7".toList
    = some [.cmd 0x11000001, .cmd 0x11000000, .cmd 0x0450000A, .cmd 0x10000007, .cmd 0x30000000] := by decide
theorem test_assembleText_refuses : assembleText "PUSHB 256".toList = none ∧ assembleText "HALT".toList = none := by decide

/-! ## Small states -/

/-- The next state, when there is one. -/
def ran : Host.Outcome State Fault Refusal → Option State
  | .next t => some t
  | .fault _ => none
  | .refused _ => none

/-- The response of an instruction, on its own port. -/
def reply (i : Instr) (s : State) : Option (BitVec 4 × Word) :=
  (ran (exec i s)).bind fun t =>
    ((if isCommand i then t.rsp else t.csmRsp).getLast?).map fun a => (a.status, a.data)

/-- A field of the state after an instruction. -/
def after {α : Type} (i : Instr) (s : State) (field : State → α) : Option α := (ran (exec i s)).map field

/-- A fresh block of dimension `n` and pack width `b`. -/
def block (n : Half) (b : BitVec 5) : State :=
  { emptyBlock n.toNat State.reset with cfgd := true, dim := n, width := b, phase := .active }

/-- The block of dimension 2 after one bit that is 1 (V-CS2). -/
def oneBit : State :=
  { block 2 2 with row := [1, 0], col := [1, 0], diag := [1, 0], anti := [0, 1], hbuf := [0x80], hbit := 1, c := 1 }

/-- The complete block of dimension 1 whose bit is 1 (V-SER2). -/
def fullOne : State :=
  { block 1 1 with row := [1], col := [1], diag := [1], anti := [1], dig := [Config.H [0x80]], r := 1 }

/-- The counters of the complete block of P1, its digests left as placeholders. -/
def fullTwo : State :=
  { block 2 2 with row := [1, 2], col := [2, 1], diag := [2, 1], anti := [1, 2], r := 2 }

/-- The block of dimension 3 one bit into its first row, with eight positions left. -/
def eightLeft : State :=
  { block 3 2 with row := [1, 0, 0], col := [1, 0, 0], diag := [1, 0, 0], anti := [0, 0, 1], hbuf := [0x80], hbit := 1,
                   c := 1 }

/-- A block whose packer holds five bits (V-SER3). -/
def pending : State := { fullTwo with pkbyte := 0xA8, pkbit := 5, pkcnt := 3 }

/-- The machine after a failed byte. -/
def aborted : State := { fullTwo with phase := .abort }

/-- A machine with the CSM port, a 4 by 4 grid, one cell set and one locked. -/
def grid : State :=
  { State.reset with params := { sMax := 512, hasCsm := true }, csz := 4, cval := [65538], clk := [3] }

/-- A sink that accepts `n` bytes and then gives the last answer, or none. -/
def sinkOf (n : Nat) (last : Option SinkAnswer) : Sink := { queued := List.replicate n .accept, thereafter := last }

/-! ## One step each -/

/-- V-CTL1 -/
theorem test_cfg : reply (.cfg 512 9) State.reset = some (0, 9)
    ∧ after (.cfg 512 9) State.reset (csrRead · .config) = some 0x80090200 := by decide
theorem test_cfg_zero : reply (.cfg 0 4) State.reset = some (3, 0) := by decide
theorem test_cfgA : reply (.cfgA 8) State.reset = some (0, 4)
    ∧ after (.cfgA 8) State.reset (csrRead · .config) = some 0x80840008 := by decide
theorem test_cfgA_tooLarge : reply (.cfgA 513) { State.reset with params := { sMax := 512, hasCsm := false } }
    = some (3, 513) := by decide
/-- V-CTL2 -/
theorem test_clr : after .clr oneBit (fun t => (t.row, t.hbuf, t.r, t.c)) = some ([0, 0], [0], 0, 0) := by decide
theorem test_clr_unconfigured : after .clr State.reset (·.phase) = some .uncfg := by decide
/-- V-CTL3 -/
theorem test_rst : after .rst pending (fun t => (t.cfgd, t.row, t.pkcnt)) = some (false, [], 0) := by decide
/-- V-CTL4 -/
theorem test_rd_csr : reply (.rd 0 1) fullTwo = some (0, 5) ∧ reply (.rd 0 0x0C) fullTwo = some (6, 0) := by decide
theorem test_rd_windows : reply (.rd 1 1) fullTwo = some (0, 2) ∧ reply (.rd 1 2) fullTwo = some (1, 2)
    ∧ reply (.rd 6 1) fullTwo = some (1, 1) ∧ reply (.rd 7 0) fullTwo = some (6, 0) := by decide
/-- The row buffer's byte, most significant by 20_memory R88 and D17 (log entry 16). -/
theorem test_rd_hbuf : reply (.rd 6 0) oneBit = some (0, 0x80000000) := by decide
/-- V-BX3 -/
theorem test_pushb :
    after (.pushb 0xCF) (block 3 2) (fun t => [t.row, t.col, t.diag, t.anti])
      = some [[2, 2, 2], [2, 3, 1], [3, 1, 2], [3, 1, 2]]
    ∧ after (.pushb 0xCF) (block 3 2) (fun t => (t.r, t.c, t.hbuf, t.hbit)) = some (2, 2, [0xC0], 2) := by decide
/-- V-BX5 -/
theorem test_pushb_noRoom : reply (.pushb 0xFF) (block 2 2) = some (1, 4) := by decide
/-- V-CS2 -/
theorem test_pushbit : reply (.pushbit 1) (block 2 2) = some (0, 0)
    ∧ after (.pushbit 1) (block 2 2) (fun t => { t with rsp := [] }) = some oneBit := by decide
/-- V-BX4 -/
theorem test_pushbit_invalid : reply (.pushbit 2) (block 2 2) = some (2, 2) := by decide
/-- V-BX1 -/
theorem test_bitx : reply (.bitx 0x5B 1) State.reset = some (0, 1) ∧ reply (.bitx 0x80 7) aborted = some (0, 0) := by decide
theorem test_bitx_range : reply (.bitx 0x5B 8) State.reset = some (1, 8) := by decide
/-- V-PK1 -/
theorem test_xtr : reply (.xtr 0x005B 4) State.reset = some (0, 0xD)
    ∧ reply (.xtr 0xABCD 12) State.reset = some (0, 0x0B3D) := by decide
theorem test_xtr_clamp : reply (.xtr 0xABCD 31) State.reset = some (0, 0xB3D5) := by decide
/-- V-PK6 -/
theorem test_pkw : reply (.pkw 0x8001 31) State.reset = some (0, 2)
    ∧ after (.pkw 0x8001 31) State.reset (·.out) = some [0x80, 0x01] := by decide
/-- The third `PKW` of the example of R259, from the state the first two leave. -/
theorem test_pkw_join : after (.pkw 3 10) { State.reset with pkbyte := 0x20, pkbit := 4, pkcnt := 2 }
    (fun t => (t.out, t.pkbyte, t.pkbit, t.pkcnt)) = some ([0x20], 0x0C, 6, 3) := by decide
/-- The `PKF` of the example of R260 -/
theorem test_pkf : reply .pkf { State.reset with pkbyte := 0x0C, pkbit := 6, pkcnt := 3 } = some (0, 4)
    ∧ after .pkf { State.reset with pkbyte := 0x0C, pkbit := 6, pkcnt := 3 } (·.out) = some [0x0C] := by decide
theorem test_pkf_idle : reply .pkf State.reset = some (0, 0) := by decide
/-- V-SER1, and P1's matrices after its 64 digest bytes -/
theorem test_ser : reply .ser fullTwo = some (0, 68)
    ∧ after .ser fullTwo (fun t => t.out.drop 64) = some [0x60, 0x90, 0x90, 0x60] := by decide
/-- V-SER3 and V-SER5 -/
theorem test_ser_stops : reply .ser pending = some (5, 5)
    ∧ reply .ser { fullTwo with sink := sinkOf 64 (some .fail) } = some (4, 64) := by decide
/-- V-CSM1 -/
theorem test_csmResize : reply (.csmResize 4) { grid with csz := 0 } = some (0, 4)
    ∧ after (.csmResize 4) grid (fun t => (t.cval, t.clk)) = some ([], []) := by decide
theorem test_csmResize_zero : reply (.csmResize 0) grid = some (3, 0) := by decide
theorem test_csmGet : reply (.csmGet 1 2) grid = some (0, 1) ∧ reply (.csmGet 2 1) grid = some (0, 0) := by decide
theorem test_csmGet_bounds : reply (.csmGet 5 9) grid = some (1, 5) ∧ reply (.csmGet 0 4) grid = some (1, 4) := by decide
theorem test_csmSet : after (.csmSet 1 1 1) grid (·.cval) = some [65537, 65538]
    ∧ after (.csmSet 1 2 0) grid (·.cval) = some [] := by decide
theorem test_csmSet_invalid : reply (.csmSet 1 2 2) grid = some (2, 2) ∧ reply (.csmSet 4 0 2) grid = some (1, 4) := by decide
theorem test_csmLock : after (.csmLock 1 2) grid (fun t => (t.clk, t.cval)) = some ([3, 65538], [65538]) := by decide
theorem test_csmLock_bounds : reply (.csmLock 4 4) grid = some (1, 4) := by decide
theorem test_csmIslocked : reply (.csmIslocked 0 3) grid = some (0, 1) ∧ reply (.csmIslocked 1 2) grid = some (0, 0) := by
  decide
theorem test_csmIslocked_bounds : reply (.csmIslocked 0 7) grid = some (1, 7) := by decide
theorem test_csmSize : reply .csmSize grid = some (0, 4) := by decide

/-- The host's delivery: the very next step runs the word. -/
theorem test_withFetchWord : (ran (step (State.reset.withFetchWord 32 0x1200015B))).map (·.rsp) = some [⟨0, 1⟩]
    ∧ (ran (step (State.reset.withFetchWord 64 0x4000000000000004))).map (·.csmRsp) = some [⟨0, 4⟩] := by decide

/-! ## Witnesses: states and operands that meet the hypotheses of the statements -/

/-- A block of dimension 8 after the byte 0xA5, its first row captured (V-RH1). -/
def oneRow : State :=
  { block 8 4 with
    row := [4, 0, 0, 0, 0, 0, 0, 0], col := [1, 0, 1, 0, 0, 1, 0, 1], diag := [1, 0, 1, 0, 0, 1, 0, 1],
    anti := [0, 1, 0, 0, 1, 0, 1, 1], dig := Config.H [0xA5] :: List.replicate 7 Config.zeroDigest, r := 1 }

theorem ready_block : ReadyToPush (block 2 2) :=
  ⟨by decide, by decide, by decide, by decide, by decide, by decide⟩

theorem ready_oneBit : ReadyToPush oneBit :=
  ⟨by decide, by decide, by decide, by decide, by decide, by decide⟩

theorem ready_eightLeft : ReadyToPush eightLeft :=
  ⟨by decide, by decide, by decide, by decide, by decide, by decide⟩

theorem ready_fullTwo (k : Sink) : ReadyToSerialize { fullTwo with sink := k } :=
  ⟨by rfl, by show 2 ≤ 16; decide, by rfl, ⟨by rfl, by rfl⟩, ⟨by rfl, by rfl, by rfl, by rfl⟩, by rfl⟩

theorem tracks_block : Tracks (block 2 2) [] :=
  ⟨by decide, by decide, by decide, by decide, by decide, by decide, by decide, by decide, by rfl, by decide, by decide,
    by decide⟩

theorem tracks_oneBit : Tracks oneBit [true] :=
  ⟨by decide, by decide, by decide, by decide, by decide, by decide, by decide, by decide, by rfl, by decide, by decide,
    by decide⟩

theorem tracks_eightLeft : Tracks eightLeft [true] :=
  ⟨by decide, by decide, by decide, by decide, by decide, by decide, by decide, by decide, by rfl, by decide, by decide,
    by decide⟩

theorem tracks_fullOne : Tracks fullOne [true] :=
  ⟨by decide, by decide, by decide, by decide, by decide, by decide, by decide, by decide, by rfl, by decide, by decide,
    by decide⟩

theorem tracks_oneRow : Tracks oneRow ([0xA5].flatMap fun v : Byte => (List.range 8).map fun p => v.getLsbD (7 - p)) :=
  ⟨by decide, by decide, by decide, by decide, by decide, by decide, by decide, by decide, by rfl, by decide, by decide,
    by decide⟩

/-- A configured state in the middle of a block, with a derived width and an error on record, meets the invariant. -/
theorem inv_oneBit : Inv { oneBit with auto := true, esticky := 2, ecode := 1, einfo := 9 } where
  sMax := by decide
  unconfigured h := absurd h (by decide)
  configured _ := ⟨by decide, by decide, [true], tracks_oneBit.1, tracks_oneBit.2, tracks_oneBit.3, tracks_oneBit.4,
    tracks_oneBit.5, tracks_oneBit.6, tracks_oneBit.7, tracks_oneBit.8, tracks_oneBit.9, tracks_oneBit.10,
    tracks_oneBit.11, tracks_oneBit.12⟩
  autoWidth _ := by decide
  packer p _ _ := BitVec.getLsbD_zero
  outcnt := by decide
  stickyZero := by decide
  lastError := by decide
  csmSize := by decide
  csmCells := ⟨by decide, by decide, by decide, by decide⟩
  csmAbsent _ := by decide

theorem accepting_accepts (n : Nat) : Accepts Sink.accepting n := fun _ _ => rfl

/-- A sink that accepts `n` bytes does. -/
theorem sinkOf_accepts (n : Nat) (last : Option SinkAnswer) : Accepts (sinkOf n last) n := fun j hj => by
  simp [answerAt, sinkOf, hj]

theorem sinkOf_last (n : Nat) (last : Option SinkAnswer) : answerAt (sinkOf n last) n = last := by
  simp [answerAt, sinkOf]

theorem test_witness_EncodeOfDecodeIsTheWord : decode (.cmd 0x1200085B) = .ok (.bitx 0x5B 8)
    ∧ decode (.csm 0x4200000200010002) = .ok (.csmSet 1 2 2) := by decide

theorem test_witness_CommandWordDecodesExactlyOnItsRow :
    decode (.cmd 0x0180FFFF) = .ok (.cfgA 0xFFFF) ∧ ∃ row ∈ cmdRows, row.covers 0x0180FFFF := by decide

theorem test_witness_RequestWordDecodesExactlyOnItsRow :
    decode (.csm 0x410000000000FFFF) = .ok (.csmGet 0 0xFFFF) ∧ ∃ row ∈ csmRows, row.covers 0x410000000000FFFF := by decide

theorem test_witness_AssembledLineIsTheInstructionsWord : (AsmLine.csmSet 65535 65535 255).wf = true
    ∧ (AsmLine.rd 15 1048575).wf = true ∧ (AsmLine.pkw 65535 31).wf = true := by decide

theorem test_witness_StepRunsTheDecodedInstruction :
    decode (.cmd 0x30000000) = .ok .ser ∧ isCommand .ser = true
    ∧ decode (.csm 0x4500000000000000) = .ok .csmSize ∧ grid.params.hasCsm = true
    ∧ { grid with inputs := [.word (.csm 0x4500000000000000)] }.inputs = .word (.csm 0x4500000000000000) :: [] := by decide

theorem test_witness_IllegalCommandIsRaised :
    decode (.cmd 0x05000000) = .error .unknownOpcode ∧ 7 ≤ (7#4).toNat ∧ 0x0C ≤ (0x0C#20).toNat
    ∧ decode (.csm 0x4600000000000000) = .error .unknownOperation ∧ grid.params.hasCsm = true := by decide

theorem test_witness_WaitingHoldsAndHardwareResetResets :
    State.reset.inputs = [] ∧ { oneBit with inputs := [.reset] }.inputs = .reset :: [] := by decide

theorem test_witness_BitxAnswersTheBitAtThePosition : (7#4).toNat ≤ 7 ∧ 7 < (8#4).toNat := by decide

/-- One push inside a row, one that ends it. -/
theorem test_witness_PushbitAddsTheBitToTheFourCounters :
    (ReadyToPush (block 2 2) ∧ (1#8).toNat ≤ 1 ∧ (block 2 2).c.toNat + 1 < (block 2 2).dim.toNat)
    ∧ (ReadyToPush oneBit ∧ (0#8).toNat ≤ 1 ∧ oneBit.c.toNat + 1 = oneBit.dim.toNat) :=
  ⟨⟨ready_block, by decide⟩, ready_oneBit, by decide⟩

theorem test_witness_PushbitFillsTheRowBufferAndCapturesTheDigest :
    (ReadyToPush (block 2 2) ∧ (1#8).toNat ≤ 1 ∧ (block 2 2).c.toNat + 1 < (block 2 2).dim.toNat)
    ∧ (ReadyToPush oneBit ∧ (1#8).toNat ≤ 1 ∧ oneBit.c.toNat + 1 = oneBit.dim.toNat) :=
  ⟨⟨ready_block, by decide⟩, ready_oneBit, by decide⟩

theorem test_witness_PushbitRefusesInOrder : aborted.phase ≠ .active
    ∧ (oneBit.phase = .active ∧ 1 < (2#8).toNat)
    ∧ (fullTwo.phase = .active ∧ (1#8).toNat ≤ 1 ∧ fullTwo.dim ≤ fullTwo.r) := by decide

/-- Exactly eight positions are left. -/
theorem test_witness_PushbEqualsEightPushbits : ReadyToPush eightLeft
    ∧ (eightLeft.dim.toNat - eightLeft.r.toNat) * eightLeft.dim.toNat - eightLeft.c.toNat = 8 :=
  ⟨ready_eightLeft, by decide⟩

theorem test_witness_PushbRefusesInOrder : aborted.phase ≠ .active ∧ oneBit.phase = .active
    ∧ (oneBit.dim.toNat - oneBit.r.toNat) * oneBit.dim.toNat - oneBit.c.toNat < 8 := by decide

/-- The bits that complete the block. -/
theorem test_witness_PushingBitsTracksTheBlock : oneBit.phase = .active ∧ Tracks oneBit [true]
    ∧ [true].length + [false, true, true].length ≤ oneBit.dim.toNat * oneBit.dim.toNat :=
  ⟨by decide, tracks_oneBit, by decide⟩

theorem test_witness_PushbTracksTheBlock : eightLeft.phase = .active ∧ Tracks eightLeft [true]
    ∧ [true].length + 8 ≤ eightLeft.dim.toNat * eightLeft.dim.toNat :=
  ⟨by decide, tracks_eightLeft, by decide⟩

theorem test_witness_CompleteBlockTakesNoBit : fullOne.phase = .active ∧ Tracks fullOne [true]
    ∧ [true].length = fullOne.dim.toNat * fullOne.dim.toNat ∧ (1#8).toNat ≤ 1 :=
  ⟨by decide, tracks_fullOne, by decide, by decide⟩

/-- The smallest and the largest dimension. -/
theorem test_witness_IndexMapsAreTheSourceFormulas : (1 ≤ 65535 ∧ 0 < 1) ∧ (65535 ≤ 65535 ∧ 65534 < 65535 ∧ 65534 < 65535) := by
  decide

theorem test_witness_DiagonalMapsAreBijections : 1 ≤ 1 ∧ 0 < 1 := by decide

theorem test_witness_CountersCountTheSetBits : Tracks oneBit [true] ∧ 1 < oneBit.dim.toNat := ⟨tracks_oneBit, by decide⟩

theorem test_witness_CountersStayWithinTheDimension :
    ∃ s, Inv s ∧ s.cfgd = true ∧ (1 : Counter) ∈ s.row := ⟨_, inv_oneBit, by decide, by decide⟩

theorem test_witness_DigestEqualityIsBytewise : digestEq Config.zeroDigest Config.zeroDigest = true := by decide

theorem test_witness_WholeByteRowsAreHashedUnchanged :
    Tracks oneRow ([0xA5].flatMap fun v : Byte => (List.range 8).map fun p => v.getLsbD (7 - p))
    ∧ oneRow.dim.toNat % 8 = 0 ∧ (0 + 1) * oneRow.dim.toNat ≤ 8 * [0xA5#8].length :=
  ⟨tracks_oneRow, by decide, by decide⟩

/-- Two bytes are filled from five waiting bits, and the sink accepts exactly two. -/
theorem test_witness_PkwAppendsTheValueToTheStream :
    pending.phase ≠ .abort ∧ (∀ p, pending.pkbit.toNat ≤ p → p < 8 → bitAt pending.pkbyte p = false)
    ∧ (pendingBits pending ++ valueBits 0x8001 (min (31#5).toNat 16)).length / 8 = 2 ∧ Accepts (sinkOf 2 none) 2 :=
  ⟨by decide, by intro p h h'; change 5 ≤ p at h; interval_cases p <;> rfl, by decide, sinkOf_accepts 2 none⟩

theorem test_witness_PkfClosesTheStream : State.reset.phase ≠ .abort ∧ State.reset.pkbit = 0
    ∧ pending.phase ≠ .abort ∧ pending.pkbit ≠ 0 ∧ Accepts pending.sink 1 :=
  ⟨by decide, by decide, by decide, by decide, accepting_accepts 1⟩

theorem test_witness_PackerCommandsAreRefusedInAbort : aborted.phase = .abort := by decide

/-- The second of two bytes fails. -/
theorem test_witness_FailedByteAbortsThePacker :
    pending.phase ≠ .abort ∧ (∀ p, pending.pkbit.toNat ≤ p → p < 8 → bitAt pending.pkbyte p = false)
    ∧ 1 < (pendingBits pending ++ valueBits 0x8001 (min (31#5).toNat 16)).length / 8
    ∧ FailsAt (sinkOf 1 (some .fail)) 1 ∧ pending.pkbit ≠ 0 ∧ FailsAt (sinkOf 0 (some .fail)) 0 :=
  ⟨by decide, by intro p h h'; change 5 ≤ p at h; interval_cases p <;> rfl, by decide,
    ⟨sinkOf_accepts 1 _, sinkOf_last 1 _⟩, by decide, ⟨sinkOf_accepts 0 _, sinkOf_last 0 _⟩⟩

/-- V-PK3's second vector; a width of 0. -/
theorem test_witness_PackedFileIsPackMatrix : State.reset.pkbit = 0 ∧ State.reset.pkbyte = 0
    ∧ packMatrix [0x3FF, 0, 0x3FF] 10 = [0xFF, 0xC0, 0x0F, 0xFC]
    ∧ Accepts State.reset.sink (packMatrix [0x3FF, 0, 0x3FF] 10).length ∧ packMatrix [5] 0 = [] :=
  ⟨by decide, by decide, by decide, accepting_accepts _, by decide⟩

theorem test_witness_SerEmitsTheBlock : ReadyToSerialize { fullTwo with sink := Sink.accepting }
    ∧ Accepts Sink.accepting (blockOutput fullTwo).length := ⟨ready_fullTwo _, accepting_accepts _⟩

theorem test_witness_SerEncodesThePushedBits : fullOne.phase = .active ∧ Tracks fullOne [true]
    ∧ [true].length = fullOne.dim.toNat * fullOne.dim.toNat ∧ fullOne.width.toNat ≤ 16 ∧ fullOne.pkbit = 0
    ∧ fullOne.pkbyte = 0 ∧ Accepts fullOne.sink (blockEncoding fullOne.dim.toNat fullOne.width.toNat [true]).length :=
  ⟨by decide, tracks_fullOne, by decide, by decide, by decide, by decide, accepting_accepts _⟩

/-- The four refusals, the widths at their boundary, and a state of the machine. -/
theorem test_witness_SerRefusesInOrder : aborted.phase ≠ .active
    ∧ ({ fullTwo with width := 17 }.phase = .active ∧ 16 < { fullTwo with width := 17 }.width.toNat)
    ∧ ({ oneBit with width := 16 }.phase = .active ∧ { oneBit with width := 16 }.width.toNat ≤ 16
      ∧ { oneBit with width := 16 }.r ≠ { oneBit with width := 16 }.dim)
    ∧ (pending.phase = .active ∧ pending.width.toNat ≤ 16 ∧ pending.r = pending.dim ∧ pending.pkbit ≠ 0)
    ∧ ∃ s, Inv s ∧ s.phase = .active ∧ s.r ≠ s.dim :=
  ⟨by decide, by decide, by decide, by decide, _, inv_oneBit, by decide, by decide⟩

/-- The last byte of the block fails. -/
theorem test_witness_FailedByteAbortsSer : ReadyToSerialize { fullTwo with sink := sinkOf 67 (some .fail) }
    ∧ 67 + 1 = (blockOutput { fullTwo with sink := sinkOf 67 (some .fail) }).length
    ∧ FailsAt (sinkOf 67 (some .fail)) 67 :=
  ⟨ready_fullTwo _, by decide, sinkOf_accepts _ _, sinkOf_last _ _⟩

theorem test_witness_SilentSinkStopsTheEmittingCommands :
    (ReadyToSerialize { fullTwo with sink := sinkOf 67 none } ∧ SilentAt (sinkOf 67 none) 67
      ∧ 67 < (blockOutput { fullTwo with sink := sinkOf 67 none }).length)
    ∧ (pending.phase ≠ .abort ∧ 1 < (pending.pkbit.toNat + min (31#5).toNat 16) / 8 ∧ SilentAt (sinkOf 1 none) 1)
    ∧ (pending.pkbit ≠ 0 ∧ SilentAt (sinkOf 0 none) 0) :=
  ⟨⟨ready_fullTwo _, ⟨sinkOf_accepts _ _, sinkOf_last _ _⟩, by decide⟩,
    ⟨by decide, by decide, sinkOf_accepts _ _, sinkOf_last _ _⟩, by decide, sinkOf_accepts _ _, sinkOf_last _ _⟩

theorem test_witness_CfgBuildsAFreshBlock : (1 : Half) ≠ 0 ∧ 1 ≤ State.reset.params.sMax
    ∧ (65535 : Half) ≤ State.reset.params.sMax := by decide

theorem test_witness_CfgRefusesAnIllegalDimension : grid.params.sMax < (513 : Half) := by decide

theorem test_witness_DerivedWidthIsTheLeastLossless : (65535 : Half) ≠ 0 ∧ 65535 ≤ State.reset.params.sMax := by decide

theorem test_witness_FreshBlockTracksNoBits : oneBit.dim ≠ 0 := by decide

theorem test_witness_ClrStartsANewBlock : aborted.cfgd = true ∧ State.reset.cfgd = false := by decide

theorem test_witness_RdAnswersTheRegisters : (0x0B#20).toNat = csrNumber .limits ∧ (0#20).toNat = csrNumber .config := by
  decide

/-- The last word of a digest, and the last byte of the row buffer. -/
theorem test_witness_RdAnswersTheWindows : oneBit.cfgd = true ∧ windowValue oneBit 5 (15#20).toNat = some (16, 0)
    ∧ (15#20).toNat < 16 ∧ windowValue oneBit 6 (0#20).toNat = some (1, 0x80000000) ∧ (0#20).toNat < 1 := by decide

theorem test_witness_RdRefusesInOrder : windowValue State.reset 1 (0#20).toNat = some (0, 0) ∧ State.reset.cfgd = false
    ∧ windowValue oneBit 1 (2#20).toNat = some (2, 0) ∧ oneBit.cfgd = true ∧ 2 ≤ (2#20).toNat := by decide

theorem test_witness_CsmResizeClearsTheGrid : grid.params.hasCsm = true ∧ grid.params.sMax < (513 : Half)
    ∧ (512 : Half) ≠ 0 ∧ 512 ≤ grid.params.sMax := by decide

theorem test_witness_CsmReadsAnswerTheCell : grid.params.hasCsm = true ∧ (3 : Half) < grid.csz := by decide

theorem test_witness_CsmSetWritesOneCell : grid.params.hasCsm = true ∧ (3 : Half) < grid.csz ∧ 1 < (2#8).toNat
    ∧ (1#8).toNat ≤ 1 ∧ ((1, 2) : Half × Half) ≠ (3, 3) ∧ cellsWf grid.cval := by decide

theorem test_witness_CsmLockLocksOneCell : grid.params.hasCsm = true ∧ (3 : Half) < grid.csz
    ∧ ((1, 2) : Half × Half) ≠ (0, 3) ∧ cellsWf grid.clk ∧ cellKey 0 3 ∈ grid.clk := by decide

theorem test_witness_CsmOutOfBoundsIsARangeError : grid.params.hasCsm = true ∧ grid.csz ≤ (4 : Half)
    ∧ (3 : Half) < grid.csz ∧ { grid with csz := 0 }.csz = 0 := by decide

theorem test_witness_AbsentPortRefusesEveryRequest : State.reset.params.hasCsm = false ∧ isCommand .csmSize = false := by
  decide

/-- A step of a state that meets the invariant. -/
theorem test_witness_EveryStepKeepsTheInvariant : ∃ s t, Inv s ∧ step s = .next t ∧ s.cfgd = true :=
  ⟨_, _, inv_oneBit, rfl, by decide⟩

theorem test_witness_InvariantGivesTheListedClauses : ∃ s, Inv s ∧ s.phase = .active ∧ s.cfgd = true :=
  ⟨_, inv_oneBit, by decide, by decide⟩

/-- A success, an error that is precise, and an `IoError`. -/
theorem test_witness_EveryErrorIsRecordedAndPrecise :
    encode (.bitx 0x5B 1) = .cmd 0x1200015B ∧ reply (.bitx 0x5B 1) oneBit = some (0, 1)
    ∧ encode (.bitx 0x5B 8) = .cmd 0x1200085B ∧ reply (.bitx 0x5B 8) oneBit = some (1, 8)
    ∧ encode .pkf = .cmd 0x22000000 ∧ reply .pkf { pending with sink := sinkOf 0 (some .fail) } = some (4, 0) := by decide

theorem test_witness_IoErrorKeepsTheBlock : ∃ t, exec .pkf { pending with sink := sinkOf 0 (some .fail) } = .next t
    ∧ t.rsp = pending.rsp ++ [⟨4, 0⟩] := ⟨_, rfl, by decide⟩

theorem test_witness_OnlyEmittingCommandsWriteOutput : ∃ t, exec (.pushbit 1) oneBit = .next t := ⟨_, rfl⟩

theorem test_witness_OnlyClrCfgRstLeaveAbort : ∃ t, exec .clr aborted = .next t ∧ aborted.phase = .abort
    ∧ t.phase ≠ .abort := ⟨_, rfl, by decide, by decide⟩

theorem test_witness_CsmAndPipelineShareNothing : ∃ t u, exec (.csmSet 1 1 1) grid = .next t ∧ isCommand (.csmSet 1 1 1) = false
    ∧ exec (.cfgA 2) grid = .next u ∧ isCommand (.cfgA 2) = true := ⟨_, _, rfl, by decide, rfl, by decide⟩

theorem test_witness_EveryTransactionCompletes : State.reset.sink.thereafter ≠ none
    ∧ { grid with inputs := [.word (.csm 0)] }.params.hasCsm = true := by decide

end Sys2Proof.Tests
end

section
/-! A command word and its row of the opcode table (30_encoding R126, R128). A row covers a word exactly when the word has
the row's opcode and the zero field of the row's format is zero, which is when the decoder, at that opcode, answers the
row's instruction. -/

namespace Sys2Proof

/-! ## What a row's mask and match say of the word's fields -/

/-- A mask of the bits from `low` up with the bare opcode as match asks for the opcode and for zeros from `low` to 23. -/
theorem and_highMask_eq_wordZ_iff (w : Word) (op : Byte) {low : Nat} (hlow : low ≤ 24) :
    w &&& (BitVec.allOnes 32 <<< low) = wordZ op
      ↔ w.extractLsb' 24 8 = op ∧ w.extractLsb' low (24 - low) = 0 := by
  have hpow : 2 ^ low * 2 ^ (24 - low) = 2 ^ 24 := by rw [← pow_add, Nat.add_sub_cancel' hlow]
  have hopcode : (w.extractLsb' 24 8).toNat = w.toNat / 2 ^ low / 2 ^ (24 - low) := by
    rw [toNat_field, Nat.div_div_eq_div_mul, hpow]
    exact Nat.mod_eq_of_lt (Nat.div_lt_of_lt_mul w.isLt)
  calc w &&& (BitVec.allOnes 32 <<< low) = wordZ op
      ↔ w.toNat / 2 ^ low * 2 ^ low = op.toNat * 2 ^ 24 := by rw [and_highMask_eq_iff w _ _ low rfl, toNat_wordZ]
    _ ↔ 2 ^ (24 - low) * op.toNat = w.toNat / 2 ^ low := by
        rw [← hpow, mul_comm (2 ^ low), ← mul_assoc, Nat.mul_left_inj (by positivity), eq_comm, mul_comm op.toNat]
    _ ↔ w.toNat / 2 ^ low / 2 ^ (24 - low) = op.toNat ∧ w.toNat / 2 ^ low % 2 ^ (24 - low) = 0 := by
        rw [Nat.div_mod_unique (by positivity), Nat.zero_add, and_iff_left (by positivity)]
    _ ↔ w.extractLsb' 24 8 = op ∧ w.extractLsb' low (24 - low) = 0 := by
        rw [← hopcode, ← toNat_field, BitVec.toNat_inj, ← BitVec.toNat_inj (y := 0)]
        rfl

/-- The row of `CFG`: the opcode and zeros in `[22:21]` and in the `auto` bit. -/
theorem covers_cfg_iff (w : Word) :
    cmdRows[0].covers w ↔ w.extractLsb' 24 8 = opCfg ∧ w.extractLsb' 21 2 = 0 ∧ w.extractLsb' 23 1 = 0 := by
  rw [TableRow.covers, and_highMask_eq_iff _ _ _ 21 (by decide)]
  have := w.isLt
  simp only [← BitVec.toNat_inj, toNat_field, cmdRows, opCfg, List.getElem_cons_zero, BitVec.ofNat_eq_ofNat,
    BitVec.toNat_ofNat]
  omega

/-- The row of `CFG.A`: the opcode, zeros in `[22:21]`, the `auto` bit set and a zero width. -/
theorem covers_cfgA_iff (w : Word) :
    cmdRows[1].covers w ↔ w.extractLsb' 24 8 = opCfg ∧ w.extractLsb' 21 2 = 0 ∧ w.extractLsb' 23 1 ≠ 0
      ∧ w.extractLsb' 16 5 = 0 := by
  rw [TableRow.covers, and_highMask_eq_iff _ _ _ 16 (by decide)]
  have := w.isLt
  simp only [ne_eq, ← BitVec.toNat_inj, toNat_field, cmdRows, opCfg, List.getElem_cons_zero, List.getElem_cons_succ,
    BitVec.ofNat_eq_ofNat, BitVec.toNat_ofNat]
  omega

/-! ## The decoder at one opcode and the row of that opcode -/

/-- At opcode `op` the decoder answers exactly on the words that `row` covers, and its answer is `instr` of the word. -/
def DecodesOnRow (op : Byte) (row : TableRow 32) (instr : Word → Instr) : Prop :=
  ∀ (w : Word) (i : Instr), w.extractLsb' 24 8 = op ∧ decodeCmd w = .ok i ↔ row.covers w ∧ instr w = i

/-- A format that only asks for zeros from `low` to 23 decodes on the row whose mask is the bits from `low` up. -/
theorem decodesOnRow_of_format {op : Byte} {row : TableRow 32} {instr : Word → Instr} {low : Nat} (hlow : low ≤ 24)
    (hmask : row.maskBits = BitVec.allOnes 32 <<< low) (hmatch : row.matchBits = wordZ op)
    (hdec : ∀ {w : Word}, w.extractLsb' 24 8 = op →
      decodeCmd w = whenZero (w.extractLsb' low (24 - low) = 0) (.ok (instr w))) :
    DecodesOnRow op row instr := by
  intro w i
  rw [TableRow.covers, hmask, hmatch, and_highMask_eq_wordZ_iff w op hlow, and_assoc]
  refine and_congr_right fun hop => ?_
  rw [hdec hop, whenZero_eq_ok, Except.ok.injEq]

theorem DecodesOnRow.exists_row {op : Byte} {row : TableRow 32} {instr : Word → Instr} {w : Word} {i : Instr}
    (hrow : DecodesOnRow op row instr) (hmem : row ∈ cmdRows) (hname : row.mnemonic = mnemonicOf (instr w))
    (hop : w.extractLsb' 24 8 = op) (h : decodeCmd w = .ok i) :
    ∃ row ∈ cmdRows, row.mnemonic = mnemonicOf i ∧ row.covers w := by
  obtain ⟨hcov, rfl⟩ := (hrow w i).1 ⟨hop, h⟩
  exact ⟨row, hmem, hname, hcov⟩

theorem DecodesOnRow.exists_instr {op : Byte} {row : TableRow 32} {instr : Word → Instr} {w : Word}
    (hrow : DecodesOnRow op row instr) (hname : row.mnemonic = mnemonicOf (instr w)) (hcov : row.covers w) :
    ∃ i, decodeCmd w = .ok i ∧ row.mnemonic = mnemonicOf i :=
  ⟨instr w, ((hrow w _).2 ⟨hcov, rfl⟩).2, hname⟩

theorem clr_decodesOnRow : DecodesOnRow opClr cmdRows[2] fun _ => .clr :=
  decodesOnRow_of_format (low := 0) (by decide) (by decide) (by decide) decodeCmd_of_opClr

theorem rst_decodesOnRow : DecodesOnRow opRst cmdRows[3] fun _ => .rst :=
  decodesOnRow_of_format (low := 0) (by decide) (by decide) (by decide) decodeCmd_of_opRst

/-- Format A has no zero field. -/
theorem rd_decodesOnRow : DecodesOnRow opRd cmdRows[4] fun w => .rd (w.extractLsb' 20 4) (w.extractLsb' 0 20) :=
  decodesOnRow_of_format (low := 24) (by decide) (by decide) (by decide) fun h => by
    rw [decodeCmd_of_opRd h, decodeA, whenZero, if_pos (BitVec.eq_of_zero_length rfl)]

theorem pushb_decodesOnRow : DecodesOnRow opPushb cmdRows[5] fun w => .pushb (w.extractLsb' 0 8) :=
  decodesOnRow_of_format (low := 8) (by decide) (by decide) (by decide) decodeCmd_of_opPushb

theorem pushbit_decodesOnRow : DecodesOnRow opPushbit cmdRows[6] fun w => .pushbit (w.extractLsb' 0 8) :=
  decodesOnRow_of_format (low := 8) (by decide) (by decide) (by decide) decodeCmd_of_opPushbit

theorem bitx_decodesOnRow : DecodesOnRow opBitx cmdRows[7] fun w => .bitx (w.extractLsb' 0 8) (w.extractLsb' 8 4) :=
  decodesOnRow_of_format (low := 12) (by decide) (by decide) (by decide) decodeCmd_of_opBitx

theorem xtr_decodesOnRow : DecodesOnRow opXtr cmdRows[8] fun w => .xtr (w.extractLsb' 0 16) (w.extractLsb' 16 5) :=
  decodesOnRow_of_format (low := 21) (by decide) (by decide) (by decide) decodeCmd_of_opXtr

theorem pkw_decodesOnRow : DecodesOnRow opPkw cmdRows[9] fun w => .pkw (w.extractLsb' 0 16) (w.extractLsb' 16 5) :=
  decodesOnRow_of_format (low := 21) (by decide) (by decide) (by decide) decodeCmd_of_opPkw

theorem pkf_decodesOnRow : DecodesOnRow opPkf cmdRows[10] fun _ => .pkf :=
  decodesOnRow_of_format (low := 0) (by decide) (by decide) (by decide) decodeCmd_of_opPkf

theorem ser_decodesOnRow : DecodesOnRow opSer cmdRows[11] fun _ => .ser :=
  decodesOnRow_of_format (low := 0) (by decide) (by decide) (by decide) decodeCmd_of_opSer

/-- Opcode `01` has two rows: the decoder answers `CFG` on the one and `CFG.A` on the other (30_encoding R126 step 3). -/
theorem cfg_decodesOnRows (w : Word) (i : Instr) :
    w.extractLsb' 24 8 = opCfg ∧ decodeCmd w = .ok i
      ↔ cmdRows[0].covers w ∧ .cfg (w.extractLsb' 0 16) (w.extractLsb' 16 5) = i
        ∨ cmdRows[1].covers w ∧ .cfgA (w.extractLsb' 0 16) = i := by
  simp only [covers_cfg_iff, covers_cfgA_iff, and_assoc, ← and_or_left]
  refine and_congr_right fun hop => ?_
  rw [decodeCmd_of_opCfg hop, decodeC, whenZero_eq_ok]
  refine and_congr_right fun _ => ?_
  by_cases hauto : w.extractLsb' 23 1 = 0#1
  · simp [hauto]
  · by_cases hwidth : w.extractLsb' 16 5 = 0#5
    · simp [hauto, hwidth]
    · simp [hauto, hwidth]

/-! ## Decoding and the rows of port `cmd` -/

/-- A command word that decodes is covered by the row of its instruction: one case for each opcode. -/
theorem covers_of_decodeCmd {w : Word} {i : Instr} (h : decodeCmd w = .ok i) :
    ∃ row ∈ cmdRows, row.mnemonic = mnemonicOf i ∧ row.covers w := by
  have hops := decodeCmd_opcode h
  simp only [List.mem_cons, List.not_mem_nil, or_false] at hops
  rcases hops with hop | hop | hop | hop | hop | hop | hop | hop | hop | hop | hop
  · obtain ⟨hcov, rfl⟩ | ⟨hcov, rfl⟩ := (cfg_decodesOnRows w i).1 ⟨hop, h⟩
    · exact ⟨cmdRows[0], List.getElem_mem _, rfl, hcov⟩
    · exact ⟨cmdRows[1], List.getElem_mem _, rfl, hcov⟩
  · exact clr_decodesOnRow.exists_row (List.getElem_mem _) rfl hop h
  · exact rst_decodesOnRow.exists_row (List.getElem_mem _) rfl hop h
  · exact rd_decodesOnRow.exists_row (List.getElem_mem _) rfl hop h
  · exact pushb_decodesOnRow.exists_row (List.getElem_mem _) rfl hop h
  · exact pushbit_decodesOnRow.exists_row (List.getElem_mem _) rfl hop h
  · exact bitx_decodesOnRow.exists_row (List.getElem_mem _) rfl hop h
  · exact xtr_decodesOnRow.exists_row (List.getElem_mem _) rfl hop h
  · exact pkw_decodesOnRow.exists_row (List.getElem_mem _) rfl hop h
  · exact pkf_decodesOnRow.exists_row (List.getElem_mem _) rfl hop h
  · exact ser_decodesOnRow.exists_row (List.getElem_mem _) rfl hop h

/-- A word that a row covers decodes to an instruction of that row: one case for each row. -/
theorem decodeCmd_of_covers {w : Word} {row : TableRow 32} (hmem : row ∈ cmdRows) (hcov : row.covers w) :
    ∃ i, decodeCmd w = .ok i ∧ row.mnemonic = mnemonicOf i := by
  simp only [cmdRows, List.mem_cons, List.not_mem_nil, or_false] at hmem
  rcases hmem with rfl | rfl | rfl | rfl | rfl | rfl | rfl | rfl | rfl | rfl | rfl | rfl
  · exact ⟨_, ((cfg_decodesOnRows w _).2 (.inl ⟨hcov, rfl⟩)).2, rfl⟩
  · exact ⟨_, ((cfg_decodesOnRows w _).2 (.inr ⟨hcov, rfl⟩)).2, rfl⟩
  · exact clr_decodesOnRow.exists_instr rfl hcov
  · exact rst_decodesOnRow.exists_instr rfl hcov
  · exact rd_decodesOnRow.exists_instr rfl hcov
  · exact pushb_decodesOnRow.exists_instr rfl hcov
  · exact pushbit_decodesOnRow.exists_instr rfl hcov
  · exact bitx_decodesOnRow.exists_instr rfl hcov
  · exact xtr_decodesOnRow.exists_instr rfl hcov
  · exact pkw_decodesOnRow.exists_instr rfl hcov
  · exact pkf_decodesOnRow.exists_instr rfl hcov
  · exact ser_decodesOnRow.exists_instr rfl hcov

/-- A row of port `cmd` is known by its mnemonic. -/
theorem cmdRows_mnemonic_injective :
    ∀ row ∈ cmdRows, ∀ other ∈ cmdRows, row.mnemonic = other.mnemonic → row = other := by decide

/-- Two rows that cover one word are the same, since the word decodes to one instruction and that has one mnemonic. -/
theorem cmdRows_disjoint {w : Word} {row other : TableRow 32} (hrow : row ∈ cmdRows) (hother : other ∈ cmdRows)
    (hcov : row.covers w) (hcov' : other.covers w) : row = other := by
  obtain ⟨i, hi, hname⟩ := decodeCmd_of_covers hrow hcov
  obtain ⟨j, hj, hname'⟩ := decodeCmd_of_covers hother hcov'
  obtain rfl : i = j := Except.ok.inj (hi.symm.trans hj)
  exact cmdRows_mnemonic_injective row hrow other hother (hname.trans hname'.symm)

/-- Settles O3: the rows and the decoder agree word by word, and the decoder's one answer keeps the rows apart. -/
theorem commandWordDecodesExactlyOnItsRow : Obligations.CommandWordDecodesExactlyOnItsRow := fun _ =>
  ⟨fun _ h => covers_of_decodeCmd h,
    fun ⟨_, hmem, hcov⟩ => (decodeCmd_of_covers hmem hcov).imp fun _ h => h.1,
    fun _ hrow _ hother hcov hcov' => cmdRows_disjoint hrow hother hcov hcov'⟩

end Sys2Proof
end

section
/-! `BITX` (40_bit_extractor R160 to R162): its two cases, neither of which reads or writes the block. -/

namespace Sys2Proof.Machine

open Sys2Proof.Safety

/-- A `Bit` in a register of any width (40_bit_extractor R163). -/
theorem setWidth_ofBool (bit : Bool) (n : Nat) : (BitVec.ofBool bit).setWidth n = if bit then 1 else 0 := by
  cases bit with
  | false => exact BitVec.setWidth_zero n 1
  | true => exact BitVec.setWidth_ofNat_one_eq_ofNat_one_of_lt Nat.one_pos

/-- The arm of `BITX` in `exec`. -/
theorem exec_bitx (byte : Byte) (p : BitVec 4) (s : State) : exec (.bitx byte p) s = execBitx byte p s := rfl

/-- Inside the byte: the bit, and no state written (40_bit_extractor R160, R162). -/
theorem execBitx_of_le (byte : Byte) {p : BitVec 4} (s : State) (hp : p.toNat ≤ 7) :
    execBitx byte p s = .next (respond (if bitAt byte p.toNat then 1 else 0) s) := by
  rw [execBitx, if_neg (Nat.not_lt.2 hp), setWidth_ofBool]

/-- Past the byte's end: `RangeError`, an error return and never a stop (40_bit_extractor R161). -/
theorem execBitx_of_gt (byte : Byte) {p : BitVec 4} (s : State) (hp : 7 < p.toNat) :
    execBitx byte p s = .next (afterError 1 p.toNat (wordX opBitx p byte) s) := by
  rw [execBitx, if_pos hp, raise_eq_afterError, errorCode]

/-- Settles O11: a position inside the byte answers its bit, and one past the end is refused with the position as info. -/
theorem bitxAnswersTheBitAtThePosition : Obligations.BitxAnswersTheBitAtThePosition := fun byte p s =>
  ⟨fun hinside => (exec_bitx byte p s).trans (execBitx_of_le byte s hinside),
    fun hpast => ⟨wordX opBitx p byte, rfl, (exec_bitx byte p s).trans (execBitx_of_gt byte s hpast)⟩⟩

end Sys2Proof.Machine
end

section
/-! The index maps (41_cross_sum R191 to R194). `AntiIdx` is `DiagIdx` at the mirrored row `n - 1 - r`, so what is said of
the one gives what is said of the other. -/

namespace Sys2Proof.Machine

/-! ## The map `DiagIdx` -/

theorem diagIdx_comm (r c n : Nat) : diagIdx r c n = diagIdx c r n := by rw [diagIdx, diagIdx, Nat.add_comm]

theorem diagIdx_lt (r c : Nat) {n : Nat} (hn : 0 < n) : diagIdx r c n < n := Nat.mod_lt _ hn

/-- Of two terms in range, one conditional subtraction reduces the sum (41_cross_sum R193). -/
theorem diagIdx_eq_ite {r c n : Nat} (hr : r < n) (hc : c < n) :
    diagIdx r c n = if r + c < n then r + c else r + c - n := by
  rw [diagIdx, Nat.add_mod_eq_ite, Nat.mod_eq_of_lt hr, Nat.mod_eq_of_lt hc]
  simp only [← Nat.not_lt, ite_not]

/-- A step down and left, the column wrapping through `n - 1` (41_cross_sum R193). -/
theorem diagIdx_down_left (r c : Nat) {n : Nat} (hn : 0 < n) :
    diagIdx ((r + 1) % n) ((c + n - 1) % n) n = diagIdx r c n := by
  have hsum : r + 1 + (c + n - 1) = r + c + n := by omega
  rw [diagIdx, diagIdx, ← Nat.add_mod, hsum, Nat.add_mod_right]

/-! ## The map `AntiIdx` -/

theorem antiIdx_eq_diagIdx (r c n : Nat) : antiIdx r c n = diagIdx (n - 1 - r) c n := rfl

theorem antiIdx_lt (r c : Nat) {n : Nat} (hn : 0 < n) : antiIdx r c n < n := Nat.mod_lt _ hn

/-- The mirrored row is in range, so the subtraction of `DiagIdx` serves (41_cross_sum R194). -/
theorem antiIdx_eq_ite {r c n : Nat} (hr : r < n) (hc : c < n) :
    antiIdx r c n = if n - 1 - r + c < n then n - 1 - r + c else n - 1 - r + c - n := by
  rw [antiIdx_eq_diagIdx, diagIdx_eq_ite (by omega) hc]

/-- The source's grouping of the sum (41_cross_sum R194). -/
theorem antiIdx_eq_source {r n : Nat} (c : Nat) (hr : r < n) : antiIdx r c n = (n - r + c - 1) % n := by
  rw [antiIdx]
  congr 1
  omega

theorem natCast_antiIdx {r n : Nat} (c : Nat) (hr : r < n) : (antiIdx r c n : Int) = ((n : Int) - r + c - 1) % n := by
  rw [antiIdx, Int.natCast_mod]
  congr 1
  omega

/-- `(c - r) mod n` decides the index (41_cross_sum R194): the sum is `c - r` moved by the constant `n - 1`. -/
theorem antiIdx_eq_iff {r r' n : Nat} (c c' : Nat) (hr : r < n) (hr' : r' < n) :
    antiIdx r c n = antiIdx r' c' n ↔ ((c : Int) - r) % n = ((c' : Int) - r') % n := by
  have shifted (x y : Int) : (n : Int) - x + y - 1 = y - x + (n - 1) := by ring
  rw [← Int.natCast_inj, natCast_antiIdx c hr, natCast_antiIdx c' hr', shifted, shifted]
  exact ⟨Int.ModEq.add_right_cancel' _, Int.ModEq.add_right _⟩

/-- A step down and right, both wrapping, keeps `(c - r) mod n` (41_cross_sum R194). -/
theorem antiIdx_down_right {r n : Nat} (c : Nat) (hr : r < n) :
    antiIdx ((r + 1) % n) ((c + 1) % n) n = antiIdx r c n := by
  rw [antiIdx_eq_iff _ _ (Nat.mod_lt _ (Nat.zero_lt_of_lt hr)) hr, Int.natCast_mod, Int.natCast_mod, ← Int.sub_emod]
  push_cast
  rw [add_sub_add_right_eq_sub]

theorem antiIdx_self {r n : Nat} (hr : r < n) : antiIdx r r n = n - 1 := by
  rw [antiIdx, Nat.sub_add_cancel (Nat.le_sub_one_of_lt hr), Nat.mod_eq_of_lt (by omega)]

/-- Settles O20: the facts of `DiagIdx` and of `AntiIdx` in turn; the bounds of the sums are arithmetic. -/
theorem indexMapsAreTheSourceFormulas : Obligations.IndexMapsAreTheSourceFormulas := by
  intro r c n hsize hr hc
  have hn : 0 < n := Nat.zero_lt_of_lt hr
  refine ⟨⟨rfl, rfl⟩, ⟨by omega, by omega, by omega⟩, ⟨rfl, ?_, ?_, ?_⟩, ⟨?_, ?_, ?_, ?_, ?_, ?_⟩⟩
  · exact diagIdx_eq_ite hr hc
  · exact diagIdx_lt r c hn
  · exact diagIdx_down_left r c hn
  · exact natCast_antiIdx c hr
  · exact antiIdx_eq_ite hr hc
  · exact antiIdx_lt r c hn
  · exact antiIdx_down_right c hr
  · exact fun _ c' hr' _ => antiIdx_eq_iff c c' hr hr'
  · exact antiIdx_self hr

end Sys2Proof.Machine
end

section
/-! The positions that one index of a counter file collects (41_cross_sum R198): a map that is a bijection along every row
takes each value once in every row, so each index collects `n` positions. -/

namespace Sys2Proof.Machine

open Set (BijOn Iio)

/-! ## The diagonal maps along a row and along a column -/

/-- Adding a constant is injective modulo `n`, and an injection of the finite `[0, n)` into itself is onto. -/
theorem bijOn_diagIdx_col (r : Nat) {n : Nat} (hn : 0 < n) : BijOn (fun c => diagIdx r c n) (Iio n) (Iio n) := by
  refine ((Set.finite_Iio n).injOn_iff_bijOn_of_mapsTo fun c _ => diagIdx_lt r c hn).1 ?_
  intro c hc c' hc' heq
  exact (Nat.ModEq.add_left_cancel' r heq).eq_of_lt_of_lt hc hc'

theorem bijOn_diagIdx_row (c : Nat) {n : Nat} (hn : 0 < n) : BijOn (fun r => diagIdx r c n) (Iio n) (Iio n) := by
  simpa only [diagIdx_comm] using bijOn_diagIdx_col c hn

theorem bijOn_antiIdx_col (r : Nat) {n : Nat} (hn : 0 < n) : BijOn (fun c => antiIdx r c n) (Iio n) (Iio n) := by
  simpa only [antiIdx_eq_diagIdx] using bijOn_diagIdx_col (n - 1 - r) hn

/-- Mirroring the rows of the block. -/
theorem bijOn_mirror (n : Nat) : BijOn (fun r => n - 1 - r) (Iio n) (Iio n) := by
  have hmaps : Set.MapsTo (fun r => n - 1 - r) (Iio n) (Iio n) := fun r hr => by
    simp only [Set.mem_Iio] at hr ⊢
    omega
  have hinv : Set.LeftInvOn (fun r => n - 1 - r) (fun r => n - 1 - r) (Iio n) := fun r hr =>
    Nat.sub_sub_self (Nat.le_sub_one_of_lt hr)
  exact Set.InvOn.bijOn ⟨hinv, hinv⟩ hmaps hmaps

theorem bijOn_antiIdx_row (c : Nat) {n : Nat} (hn : 0 < n) : BijOn (fun r => antiIdx r c n) (Iio n) (Iio n) := by
  simp only [antiIdx_eq_diagIdx]
  exact (bijOn_diagIdx_row c hn).comp (bijOn_mirror n)

/-! ## The positions on one index -/

/-- The positions of the block that an index map sends to index `k`. -/
def positionsOn (idx : Nat → Nat → Nat → Nat) (n k : Nat) : Finset (Nat × Nat) :=
  (Finset.range n ×ˢ Finset.range n).filter fun p => idx p.1 p.2 n = k

theorem mem_positionsOn {idx : Nat → Nat → Nat → Nat} {n k : Nat} {p : Nat × Nat} :
    p ∈ positionsOn idx n k ↔ (p.1 < n ∧ p.2 < n) ∧ idx p.1 p.2 n = k := by
  simp only [positionsOn, Finset.mem_filter, Finset.mem_product, Finset.mem_range]

/-- One position in every row: the rows number the positions on an index. -/
theorem card_positionsOn_of_bijOn {idx : Nat → Nat → Nat → Nat} {n k : Nat} (hk : k < n)
    (hidx : ∀ r < n, BijOn (fun c => idx r c n) (Iio n) (Iio n)) : (positionsOn idx n k).card = n := by
  calc (positionsOn idx n k).card = (Finset.range n).card := Finset.card_nbij Prod.fst ?maps ?inj ?onto
    _ = n := Finset.card_range n
  case maps => exact fun p hp => Finset.mem_coe.2 (Finset.mem_range.2 (mem_positionsOn.1 hp).1.1)
  case inj =>
    rintro ⟨r, c⟩ hp ⟨r', c'⟩ hp' (rfl : r = r')
    obtain ⟨⟨hr, hc⟩, hidxc⟩ := mem_positionsOn.1 hp
    obtain ⟨⟨_, hc'⟩, hidxc'⟩ := mem_positionsOn.1 hp'
    exact congrArg (Prod.mk r) ((hidx r hr).injOn hc hc' (hidxc.trans hidxc'.symm))
  case onto =>
    intro r hr
    have hr : r < n := Finset.mem_range.1 hr
    obtain ⟨c, hc, hidxc⟩ := (hidx r hr).surjOn hk
    exact ⟨(r, c), mem_positionsOn.2 ⟨⟨hr, hc⟩, hidxc⟩, rfl⟩

theorem card_positionsOn_diagIdx {n k : Nat} (hk : k < n) : (positionsOn diagIdx n k).card = n :=
  card_positionsOn_of_bijOn hk fun r hr => bijOn_diagIdx_col r (Nat.zero_lt_of_lt hr)

theorem card_positionsOn_antiIdx {n k : Nat} (hk : k < n) : (positionsOn antiIdx n k).card = n :=
  card_positionsOn_of_bijOn hk fun r hr => bijOn_antiIdx_col r (Nat.zero_lt_of_lt hr)

theorem positionsOn_rowIdx {n k : Nat} (hk : k < n) : positionsOn rowIdx n k = {k} ×ˢ Finset.range n := by
  ext ⟨r, c⟩
  simp only [mem_positionsOn, rowIdx, Finset.mem_product, Finset.mem_singleton, Finset.mem_range]
  constructor
  · rintro ⟨⟨_, hc⟩, rfl⟩
    exact ⟨rfl, hc⟩
  · rintro ⟨rfl, hc⟩
    exact ⟨⟨hk, hc⟩, rfl⟩

theorem positionsOn_colIdx {n k : Nat} (hk : k < n) : positionsOn colIdx n k = Finset.range n ×ˢ {k} := by
  ext ⟨r, c⟩
  simp only [mem_positionsOn, colIdx, Finset.mem_product, Finset.mem_singleton, Finset.mem_range]
  constructor
  · rintro ⟨⟨hr, _⟩, rfl⟩
    exact ⟨hr, rfl⟩
  · rintro ⟨hr, rfl⟩
    exact ⟨⟨hr, hk⟩, rfl⟩

theorem card_positionsOn_rowIdx {n k : Nat} (hk : k < n) : (positionsOn rowIdx n k).card = n := by
  rw [positionsOn_rowIdx hk, Finset.card_product, Finset.card_singleton, Finset.card_range, Nat.one_mul]

theorem card_positionsOn_colIdx {n k : Nat} (hk : k < n) : (positionsOn colIdx n k).card = n := by
  rw [positionsOn_colIdx hk, Finset.card_product, Finset.card_singleton, Finset.card_range, Nat.mul_one]

/-- Settles O21: the bijections along rows and columns, and the positions that they leave on each index. -/
theorem diagonalMapsAreBijections : Obligations.DiagonalMapsAreBijections := fun _ hn =>
  ⟨fun r _ => ⟨bijOn_diagIdx_col r hn, bijOn_antiIdx_col r hn⟩,
    fun c _ => ⟨bijOn_diagIdx_row c hn, bijOn_antiIdx_row c hn⟩,
    fun _ hk => ⟨card_positionsOn_diagIdx hk, card_positionsOn_antiIdx hk, positionsOn_rowIdx hk, positionsOn_colIdx hk⟩⟩

end Sys2Proof.Machine
end

section
/-! The sum law (41_cross_sum R197, R199). A counter holds `bitSum` of its index modulo `2 ^ 16`. Numbering the positions
row by row turns `bitSum` into the number of 1 bits on the positions of the index, which are `n`, so nothing wraps. -/

namespace Sys2Proof.Machine

open Sys2Proof.Safety

/-- The two ways of counting below a bound. -/
theorem countP_range_eq_card (p : Nat → Bool) (n : Nat) :
    (List.range n).countP p = ((Finset.range n).filter fun j => p j = true).card := by
  simpa only [Nat.count, Bool.decide_eq_true] using Nat.count_eq_card_filter_range (fun j => p j = true) n

/-- A 1 bit is one that was pushed. -/
theorem lt_length_of_pushedBit {bits : List Bool} {j : Nat} (h : pushedBit bits j = true) : j < bits.length := by
  by_contra hge
  rw [pushedBit_of_length_le (Nat.le_of_not_lt hge)] at h
  exact Bool.false_ne_true h

/-- The 1 bits of a block on index `k` of an index map. -/
def setBitsOn (idx : Nat → Nat → Nat → Nat) (n : Nat) (bits : List Bool) (k : Nat) : Finset (Nat × Nat) :=
  (positionsOn idx n k).filter fun p => pushedBit bits (p.1 * n + p.2) = true

theorem mem_setBitsOn {idx : Nat → Nat → Nat → Nat} {n k : Nat} {bits : List Bool} {p : Nat × Nat} :
    p ∈ setBitsOn idx n bits k
      ↔ ((p.1 < n ∧ p.2 < n) ∧ idx p.1 p.2 n = k) ∧ pushedBit bits (p.1 * n + p.2) = true := by
  rw [setBitsOn, Finset.mem_filter, mem_positionsOn]

/-- `bitSum` counts by the number of a position, bit `j` being at row `j / n` and column `j % n` (20_memory R81). -/
theorem bitSum_eq_card_setBitsOn (idx : Nat → Nat → Nat → Nat) {n : Nat} {bits : List Bool} (k : Nat)
    (hfits : bits.length ≤ n * n) : bitSum idx n bits k = (setBitsOn idx n bits k).card := by
  have hcount : bitSum idx n bits k
      = ((Finset.range bits.length).filter fun j => pushedBit bits j = true ∧ idx (j / n) (j % n) n = k).card := by
    simp only [bitSum, countP_range_eq_card, Bool.and_eq_true, beq_iff_eq]
  have number (p : Nat × Nat) (hp : p.2 < n) : (p.1 * n + p.2) / n = p.1 ∧ (p.1 * n + p.2) % n = p.2 :=
    (Nat.div_mod_unique (Nat.zero_lt_of_lt hp)).2 ⟨by rw [Nat.mul_comm, Nat.add_comm], hp⟩
  rw [hcount]
  refine Finset.card_nbij' (fun j => (j / n, j % n)) (fun p => p.1 * n + p.2) ?_ ?_ ?_ ?_
  · intro j hj
    obtain ⟨hlen, hbit, hidx⟩ : j < bits.length ∧ pushedBit bits j = true ∧ idx (j / n) (j % n) n = k := by simpa using hj
    have hn : 0 < n := Nat.pos_of_mul_pos_left ((Nat.zero_lt_of_lt hlen).trans_le hfits)
    have hrow : j / n < n := Nat.div_lt_of_lt_mul (hlen.trans_le hfits)
    exact mem_setBitsOn.2 ⟨⟨⟨hrow, Nat.mod_lt j hn⟩, hidx⟩, by rwa [Nat.div_add_mod']⟩
  · intro p hp
    obtain ⟨⟨⟨_, hcol⟩, hidx⟩, hbit⟩ := mem_setBitsOn.1 hp
    obtain ⟨hdiv, hmod⟩ := number p hcol
    simpa [hdiv, hmod, hbit, hidx] using lt_length_of_pushedBit hbit
  · exact fun j _ => Nat.div_add_mod' j n
  · intro p hp
    obtain ⟨⟨⟨_, hcol⟩, _⟩, _⟩ := mem_setBitsOn.1 hp
    obtain ⟨hdiv, hmod⟩ := number p hcol
    exact Prod.ext hdiv hmod

/-- A counter whose index collects few enough positions does not wrap (41_cross_sum R197). -/
theorem toNat_getD_sumFile {idx : Nat → Nat → Nat → Nat} {n k : Nat} {bits : List Bool} (hk : k < n)
    (hfits : bits.length ≤ n * n) (hcard : (positionsOn idx n k).card < 2 ^ 16) :
    ((sumFile idx n bits).getD k 0).toNat = (setBitsOn idx n bits k).card := by
  have hlen : k < (sumFile idx n bits).length := by simpa [sumFile] using hk
  have hle : (setBitsOn idx n bits k).card ≤ (positionsOn idx n k).card := Finset.card_filter_le _ _
  rw [List.getD_eq_getElem _ _ hlen]
  simp only [sumFile, List.getElem_map, List.getElem_range, BitVec.toNat_ofNat]
  rw [bitSum_eq_card_setBitsOn idx k hfits, Nat.mod_eq_of_lt (hle.trans_lt hcard)]

/-! ## The four files -/

/-- The 1 bits on an index of `ROW` are those of one row. -/
theorem card_setBitsOn_rowIdx {n k : Nat} (bits : List Bool) (hk : k < n) :
    (setBitsOn rowIdx n bits k).card = (List.range n).countP fun c => pushedBit bits (k * n + c) := by
  rw [setBitsOn, positionsOn_rowIdx hk, Finset.singleton_product, Finset.filter_map, Finset.card_map]
  exact (countP_range_eq_card (fun c => pushedBit bits (k * n + c)) n).symm

/-- The 1 bits on an index of `COL` are those of one column. -/
theorem card_setBitsOn_colIdx {n k : Nat} (bits : List Bool) (hk : k < n) :
    (setBitsOn colIdx n bits k).card = (List.range n).countP fun r => pushedBit bits (r * n + k) := by
  rw [setBitsOn, positionsOn_colIdx hk, Finset.product_singleton, Finset.filter_map, Finset.card_map]
  exact (countP_range_eq_card (fun r => pushedBit bits (r * n + k)) n).symm

theorem setBitsOn_diagIdx (n : Nat) (bits : List Bool) (k : Nat) :
    setBitsOn diagIdx n bits k = (Finset.range n ×ˢ Finset.range n).filter fun p =>
      (p.1 + p.2) % n = k ∧ pushedBit bits (p.1 * n + p.2) = true :=
  Finset.filter_filter _ _ _

/-- `setBitsOn` with the source's formula of the index. -/
theorem setBitsOn_antiIdx (n : Nat) (bits : List Bool) (k : Nat) :
    setBitsOn antiIdx n bits k = (Finset.range n ×ˢ Finset.range n).filter fun p =>
      (n - p.1 + p.2 - 1) % n = k ∧ pushedBit bits (p.1 * n + p.2) = true := by
  rw [setBitsOn, positionsOn, Finset.filter_filter]
  refine Finset.filter_congr fun p hp => ?_
  obtain ⟨hrow, _⟩ := Finset.mem_product.1 hp
  rw [antiIdx_eq_source p.2 (Finset.mem_range.1 hrow)]

/-- Settles O22: each file is a `sumFile`, and `S` positions on an index are below `2 ^ 16`. -/
theorem countersCountTheSetBits : Obligations.CountersCountTheSetBits := by
  intro s bits htracks n m k hk
  have counts {idx : Nat → Nat → Nat → Nat} (hcard : (positionsOn idx n k).card = n) :
      ((sumFile idx n bits).getD k 0).toNat = (setBitsOn idx n bits k).card :=
    toNat_getD_sumFile hk htracks.fits (hcard.trans_lt s.dim.isLt)
  rw [htracks.row, htracks.col, htracks.diag, htracks.anti]
  refine ⟨?row, ?col, ?diag, ?anti⟩
  case row => exact (counts (card_positionsOn_rowIdx hk)).trans (card_setBitsOn_rowIdx bits hk)
  case col => exact (counts (card_positionsOn_colIdx hk)).trans (card_setBitsOn_colIdx bits hk)
  case diag => exact (counts (card_positionsOn_diagIdx hk)).trans (congrArg _ (setBitsOn_diagIdx n bits k))
  case anti => exact (counts (card_positionsOn_antiIdx hk)).trans (congrArg _ (setBitsOn_antiIdx n bits k))

end Sys2Proof.Machine
end

section
/-! The row hash (42_row_hash R226, R228). Cutting the bits of whole bytes into bytes gives the bytes back; with `S` a
multiple of 8 the rows begin and end between two bytes, so a row's buffer is a run of the input bytes. -/

namespace Sys2Proof.Machine

open Sys2Proof.Safety

/-! ## Digest equality -/

/-- Two digests agree when their elements, read as the model reads them, do. -/
theorem digest_eq_iff_elements (x y : Config.Digest) :
    x = y ↔ ∀ k < 32, x.toList.getD k 0 = y.toList.getD k 0 := by
  constructor
  · rintro rfl k _
    rfl
  · intro h
    refine Vector.ext fun k hk => ?_
    have hread (z : Config.Digest) : z.toList.getD k 0 = z[k] := by
      rw [List.getD_eq_getElem _ _ (by simpa using hk), Vector.getElem_toList]
    rw [← hread x, ← hread y, h k hk]

theorem digestEq_iff_elements (x y : Config.Digest) :
    digestEq x y = true ↔ ∀ k < 32, x.toList.getD k 0 = y.toList.getD k 0 := by
  simp only [digestEq, element, Config.dlen, List.all_eq_true, List.mem_range, beq_iff_eq]

theorem digestEq_iff_eq (x y : Config.Digest) : digestEq x y = true ↔ x = y :=
  (digestEq_iff_elements x y).trans (digest_eq_iff_elements x y).symm

/-- Settles O24: the comparison runs over all the bytes of a digest, and `rowAccepted` is that comparison. -/
theorem digestEqualityIsBytewise : Obligations.DigestEqualityIsBytewise := fun x y candidate =>
  ⟨digestEq_iff_elements x y, digestEq_iff_eq x y, digestEq_iff_eq (Config.H candidate) y⟩

/-! ## The bits of whole bytes -/

@[simp] theorem length_byteBits (v : Byte) : (byteBits v).length = 8 := rfl

theorem byteOfBits_byteBits (v : Byte) : byteOfBits (byteBits v) 0 = v := by
  have hbit (p : Nat) (hp : p < 8) : pushedBit (byteBits v) (8 * 0 + p) = bitAt v p := by
    simp [pushedBit, byteBits, hp]
  exact (byteOf_congr hbit).trans (byteOf_bitAt v)

theorem length_flatMap_byteBits (bytes : List Byte) : (bytes.flatMap byteBits).length = 8 * bytes.length := by
  simp [List.length_flatMap, Nat.mul_comm]

/-- Cutting the bits of whole bytes into bytes gives the bytes back. -/
theorem byteOfBits_flatMap_byteBits (bytes : List Byte) (k : Nat) :
    byteOfBits (bytes.flatMap byteBits) k = bytes.getD k 0 := by
  induction bytes generalizing k with
  | nil => exact byteOfBits_nil k
  | cons v bytes ih =>
    rw [List.flatMap_cons]
    cases k with
    | zero => rw [byteOfBits_zero_append (length_byteBits v), byteOfBits_byteBits, List.getD_cons_zero]
    | succ k => rw [byteOfBits_byte_append (length_byteBits v), ih, List.getD_cons_succ]

/-! ## Rows of whole bytes -/

/-- Rows of `8 * m` bits are cut between bytes: nothing is added at a row's end (42_row_hash R225). -/
theorem rowBytes_of_wholeBytes (m : Nat) (bits : List Bool) (r : Nat) :
    rowBytes (8 * m) bits r = (List.range m).map fun j => byteOfBits bits (r * m + j) := by
  have hcount : ceilBytes (8 * m) = m := by rw [ceilBytes]; omega
  rw [rowBytes, hcount]
  refine List.map_congr_left fun j hj => byteOf_congr fun p hp => ?_
  have hj : j < m := List.mem_range.1 hj
  have hplace : r * (8 * m) + (8 * j + p) = 8 * (r * m + j) + p := by ring
  rw [hplace, decide_eq_true (by omega), Bool.true_and]

/-- The buffer of a complete row of whole bytes is a run of the input bytes (20_memory R83, 42_row_hash R226). -/
theorem rowBytes_flatMap_byteBits {m r : Nat} {bytes : List Byte} (h : (r + 1) * m ≤ bytes.length) :
    rowBytes (8 * m) (bytes.flatMap byteBits) r = (bytes.drop (r * m)).take m := by
  rw [Nat.succ_mul] at h
  rw [rowBytes_of_wholeBytes]
  refine List.ext_getElem (by simp; omega) fun j hj _ => ?_
  have hj : j < m := by simpa using hj
  rw [List.getElem_map, List.getElem_range, byteOfBits_flatMap_byteBits, List.getElem_take, List.getElem_drop,
    List.getD_eq_getElem]

/-! ## The digest of a complete row -/

/-- A complete row of a block has its digest in the store (42_row_hash R224). -/
theorem getD_dig_of_completeRow {s : State} {bits : List Bool} {r : Nat} (htracks : Tracks s bits)
    (hrow : (r + 1) * s.dim.toNat ≤ bits.length) :
    s.dig.getD r Config.zeroDigest = Config.H (rowBytes s.dim.toNat bits r) := by
  have hcaptured : r < bits.length / s.dim.toNat := (Nat.le_div_iff_mul_le htracks.dim_pos).2 hrow
  have hr : r < s.dim.toNat := Nat.le_of_mul_le_mul_right (hrow.trans htracks.fits) htracks.dim_pos
  rw [htracks.dig, List.getD_eq_getElem _ _ (by simpa [digestFile] using hr)]
  simp only [digestFile, List.getElem_map, List.getElem_range, if_pos hcaptured]

/-- Settles O25: a complete row's digest is that of its buffer, which is the run of its input bytes. -/
theorem wholeByteRowsAreHashedUnchanged : Obligations.WholeByteRowsAreHashedUnchanged := by
  intro s bytes r n htracks hwhole hrow
  obtain ⟨m, hm⟩ : 8 ∣ n := Nat.dvd_of_mod_eq_zero hwhole
  have hdim : s.dim.toNat = 8 * m := hm
  have htracks : Tracks s (bytes.flatMap byteBits) := htracks
  have hdigest := getD_dig_of_completeRow (r := r) htracks (by rwa [length_flatMap_byteBits])
  have hbytes (k : Nat) : k * n / 8 = k * m := by rw [hm, Nat.mul_left_comm, Nat.mul_div_cancel_left _ (by decide)]
  have hrun : (r + 1) * m ≤ bytes.length := by
    rw [hm, Nat.mul_left_comm] at hrow
    omega
  have hlen : (r + 1) * m - r * m = m := by rw [Nat.succ_mul, Nat.add_sub_cancel_left]
  rw [hbytes, hbytes, hlen, hdigest, hdim, rowBytes_flatMap_byteBits hrun]

end Sys2Proof.Machine
end

section
/-! The packed file (43_bit_packer R256). `packMatrix` cuts the stream of the file's bits into bytes; the packer offers the
whole bytes as they fill and the flush the one left over, so together they offer that cut. -/

namespace Sys2Proof.Machine

open Sys2Proof.Safety

/-! ## The stream of a file -/

@[simp] theorem length_valueBits (v : Half) (n : Nat) : (valueBits v n).length = n := by simp [valueBits]

theorem pushedBit_valueBits (v : Half) {n j : Nat} (hj : j < n) : pushedBit (valueBits v n) j = v.getLsbD (n - 1 - j) := by
  simp [pushedBit, valueBits, hj]

/-- The low `n` bits of each value of a file, in the order `PackValue` places them (43_bit_packer R254). -/
def fileBits (file : List Half) (n : Nat) : List Bool := file.flatMap fun v => valueBits v n

@[simp] theorem fileBits_cons (v : Half) (file : List Half) (n : Nat) :
    fileBits (v :: file) n = valueBits v n ++ fileBits file n := List.flatMap_cons

@[simp] theorem length_fileBits (file : List Half) (n : Nat) : (fileBits file n).length = file.length * n := by
  simp [fileBits, List.length_flatMap]

theorem streamBit_cons_of_lt (v : Half) (file : List Half) {n j : Nat} (h : j < n) :
    streamBit (v :: file) n j = v.getLsbD (n - 1 - j) := by
  rw [streamBit, Nat.div_eq_of_lt h, Nat.mod_eq_of_lt h, List.getD_cons_zero]

theorem streamBit_cons_of_le (v : Half) (file : List Half) {n j : Nat} (hn : 0 < n) (h : n ≤ j) :
    streamBit (v :: file) n j = streamBit file n (j - n) := by
  rw [streamBit, streamBit, Nat.div_eq_sub_div hn h, Nat.mod_eq_sub_mod h, List.getD_cons_succ]

/-- The stream bits of R256 are the bits of the values, one value after another. -/
theorem pushedBit_fileBits (file : List Half) {n j : Nat} (h : j < file.length * n) :
    pushedBit (fileBits file n) j = streamBit file n j := by
  induction file generalizing j with
  | nil => simp at h
  | cons v file ih =>
    rw [List.length_cons, Nat.succ_mul] at h
    rw [fileBits_cons]
    by_cases hj : j < n
    · rw [pushedBit_append_left (by simpa using hj), pushedBit_valueBits v hj, streamBit_cons_of_lt v file hj]
    · have hn : 0 < n := Nat.pos_of_ne_zero fun hzero => by simp [hzero] at h
      rw [pushedBit_append_right (by simpa using hj), length_valueBits, ih (by omega),
        streamBit_cons_of_le v file hn (by omega)]

/-! ## Bits cut into bytes -/

/-- A list of bits cut into bytes, the last one filled up with zeros. -/
def cutBytes (bits : List Bool) : List Byte := (List.range (ceilBytes bits.length)).map (byteOfBits bits)

@[simp] theorem length_cutBytes (bits : List Bool) : (cutBytes bits).length = ceilBytes bits.length := by simp [cutBytes]

theorem cutBytes_of_wholeBytes {bits : List Bool} (h : bits.length % 8 = 0) :
    cutBytes bits = (List.range (bits.length / 8)).map (byteOfBits bits) := by
  rw [cutBytes, show ceilBytes bits.length = bits.length / 8 by rw [ceilBytes]; omega]

theorem cutBytes_of_openByte {bits : List Bool} (h : bits.length % 8 ≠ 0) :
    cutBytes bits = (List.range (bits.length / 8)).map (byteOfBits bits) ++ [byteOfBits bits (bits.length / 8)] := by
  rw [cutBytes, show ceilBytes bits.length = bits.length / 8 + 1 by rw [ceilBytes]; omega, List.range_succ, List.map_append,
    List.map_singleton]

theorem byteOfBits_of_length_le {bits : List Bool} {k : Nat} (h : bits.length ≤ 8 * k) : byteOfBits bits k = 0 :=
  (byteOf_congr fun _ _ => pushedBit_of_length_le (by omega)).trans byteOf_false

/-- The closed form of R256 is the cut of the file's bits. -/
theorem packMatrix_eq_cutBytes (file : List Half) (w : Nat) : packMatrix file w = cutBytes (fileBits file (min w 16)) := by
  rw [packMatrix, cutBytes, length_fileBits]
  refine List.map_congr_left fun k _ => byteOf_congr fun p _ => ?_
  by_cases hin : 8 * k + p < file.length * min w 16
  · rw [decide_eq_true hin, Bool.true_and, pushedBit_fileBits file hin]
  · rw [decide_eq_false hin, Bool.false_and, pushedBit_of_length_le (by simpa using hin)]

theorem length_packMatrix (file : List Half) (w : Nat) :
    (packMatrix file w).length = (file.length * min w 16 + 7) / 8 := by
  rw [packMatrix_eq_cutBytes, length_cutBytes, length_fileBits, ceilBytes]

/-! ## Packing and flushing -/

/-- In an idle packer only the count can differ. -/
theorem withPacker_idle {s : State} (hbit : s.pkbit = 0) (hbyte : s.pkbyte = 0) (cnt : Word) :
    withPacker 0 0 cnt s = { s with pkcnt := cnt } :=
  calc withPacker 0 0 cnt s
    _ = withPacker s.pkbyte s.pkbit cnt s := by rw [hbit, hbyte]
    _ = { s with pkcnt := cnt } := rfl

/-- Placing bits and then flushing offers their cut and leaves the packer idle (43_bit_packer R253, R255). -/
theorem emits_andThen_packFlush {e : Emission} {k : Nat} {s : State} {bits : List Bool} (he : PacksBits e k s bits) :
    Emits (andThen e packFlush) k s (cutBytes bits) 0 0 0 := by
  by_cases hwhole : bits.length % 8 = 0
  · have hbyte : byteOfBits bits (bits.length / 8) = 0 := byteOfBits_of_length_le (by omega)
    rw [PacksBits, hwhole, hbyte] at he
    rw [cutBytes_of_wholeBytes hwhole, ← List.append_nil (List.map _ _)]
    exact emits_andThen he (emits_packFlush_idle _ _ rfl)
  · have hopen : BitVec.ofNat 3 (bits.length % 8) ≠ 0 := fun hzero =>
      hwhole (by simpa using congrArg BitVec.toNat hzero)
    rw [cutBytes_of_openByte hwhole]
    exact emits_andThen he (emits_packFlush_pending _ _ hopen)

/-- From an idle packer a packed file offers `PackMatrix` and leaves the packer idle (43_bit_packer R256). -/
theorem emits_packFile_idle {s : State} (hbit : s.pkbit = 0) (hbyte : s.pkbyte = 0) (w : BitVec 5) (file : List Half)
    (k : Nat) : Emits (packFile w file k s) k s (packMatrix file w.toNat) 0 0 0 := by
  have hpacks : PacksBits (packValues w file k s) k s (fileBits file (min w.toNat 16)) := by
    have := packsBits_packValues w file k (packerHolds_idle hbit hbyte)
    rwa [List.nil_append, ← fileBits] at this
  rw [packFile, packMatrix_eq_cutBytes]
  exact emits_andThen_packFlush hpacks

/-- Settles O31: the packer offers the cut of the file's bits, and every byte of it is accepted. -/
theorem packedFileIsPackMatrix : Obligations.PackedFileIsPackMatrix := by
  intro s file w k hbit hbyte haccepts
  refine ⟨?_, length_packMatrix file w.toNat, fun hempty => ?_⟩
  · rw [(emits_packFile_idle hbit hbyte w file k).accepted haccepts,
      withPacker_idle (s := withOutput (packMatrix file w.toNat) s) hbit hbyte]
  · apply List.eq_nil_of_length_eq_zero
    rw [length_packMatrix]
    obtain rfl | rfl := hempty <;> simp

end Sys2Proof.Machine
end

section
/-! The refusals of `SER` (44_serializer R291): the four checks, one lemma each, and the bounds on the count of missing
bits. The count goes through the bits pushed: the position of a tracked block is their number. -/

namespace Sys2Proof.Machine

open Sys2Proof.Safety

/-! ## The four checks -/

/-- A refusal of `SER` is the record of the error, with the word of `SER` (60_exceptions R405). -/
theorem failsWith_ser {s : State} {code : BitVec 4} {info : Nat}
    (h : execSer s = .next (afterError code info (wordZ opSer) s)) : FailsWith .ser s code info :=
  ⟨wordZ opSer, rfl, h⟩

/-- Check 1: a block is open. -/
theorem execSer_of_not_active {s : State} (hphase : s.phase ≠ .active) :
    execSer s = .next (afterError 5 (phaseCode s.phase).toNat (wordZ opSer) s) := by
  rw [execSer, if_pos hphase, raise_eq_afterError, errorCode]

/-- Check 2: a counter has 16 bits, and a wider field is refused, not clamped. -/
theorem execSer_of_wide {s : State} (hphase : s.phase = .active) (hwide : 16 < s.width.toNat) :
    execSer s = .next (afterError 1 s.width.toNat (wordZ opSer) s) := by
  rw [execSer, if_neg (not_not.2 hphase), if_pos hwide, raise_eq_afterError, errorCode]

/-- Check 3: no digest is emitted that was not captured. -/
theorem execSer_of_incomplete {s : State} (hphase : s.phase = .active) (hwidth : s.width.toNat ≤ 16) (hrow : s.r ≠ s.dim) :
    execSer s = .next (afterError 5 (bitsMissing s) (wordZ opSer) s) := by
  rw [execSer, if_neg (not_not.2 hphase), if_neg (Nat.not_lt.2 hwidth), if_pos hrow, raise_eq_afterError, errorCode]

/-- Check 4: no unflushed stream of `PKW` runs into the block's output. -/
theorem execSer_of_pending {s : State} (hphase : s.phase = .active) (hwidth : s.width.toNat ≤ 16) (hrow : s.r = s.dim)
    (hpending : s.pkbit ≠ 0) : execSer s = .next (afterError 5 s.pkbit.toNat (wordZ opSer) s) := by
  rw [execSer, if_neg (not_not.2 hphase), if_neg (Nat.not_lt.2 hwidth), if_neg (not_not.2 hrow), if_pos hpending,
    raise_eq_afterError, errorCode]

/-! ## The bits missing -/

/-- The position counts the bits pushed (40_bit_extractor R167). -/
theorem position_eq_length_of_tracks {s : State} {bits : List Bool} (htracks : Tracks s bits) :
    s.r.toNat * s.dim.toNat + s.c.toNat = bits.length := by
  rw [htracks.r, htracks.c, Nat.div_add_mod']

theorem bitsMissing_of_tracks {s : State} {bits : List Bool} (htracks : Tracks s bits) :
    bitsMissing s = s.dim.toNat * s.dim.toNat - bits.length := by
  rw [bitsMissing, position_eq_length_of_tracks htracks]

/-- All bits pushed would put the position at row `S`. -/
theorem length_lt_of_tracks {s : State} {bits : List Bool} (htracks : Tracks s bits) (hrow : s.r ≠ s.dim) :
    bits.length < s.dim.toNat * s.dim.toNat := by
  refine lt_of_le_of_ne htracks.fits fun hfull => hrow (BitVec.eq_of_toNat_eq ?_)
  rw [htracks.r, hfull, Nat.mul_div_cancel _ htracks.dim_pos]

/-- The dimension has 16 bits, so a block's positions have a number of 32 bits. -/
theorem bitsMissing_lt (s : State) : bitsMissing s < 2 ^ 32 :=
  calc bitsMissing s
    _ ≤ s.dim.toNat * s.dim.toNat := Nat.sub_le _ _
    _ < 2 ^ 16 * 2 ^ 16 := Nat.mul_lt_mul'' s.dim.isLt s.dim.isLt

/-- In a state of the machine an active block is configured, and its registers follow the bits pushed (10_state R44 a). -/
theorem exists_tracks_of_active {s : State} (hinv : Inv s) (hphase : s.phase = .active) : ∃ bits, Tracks s bits := by
  cases hcfgd : s.cfgd with
  | false => exact absurd hphase (hinv.unconfigured hcfgd).phase
  | true =>
    obtain ⟨_, _, htracks⟩ := hinv.configured hcfgd
    exact htracks

theorem bitsMissing_pos {s : State} (hinv : Inv s) (hphase : s.phase = .active) (hrow : s.r ≠ s.dim) :
    1 ≤ bitsMissing s := by
  obtain ⟨bits, htracks⟩ := exists_tracks_of_active hinv hphase
  rw [bitsMissing_of_tracks htracks]
  exact Nat.sub_pos_of_lt (length_lt_of_tracks htracks hrow)

/-- Settles O34: each check refuses once the checks before it passed, and an incomplete block of the machine misses a bit. -/
theorem serRefusesInOrder : Obligations.SerRefusesInOrder := fun s =>
  ⟨fun hphase => failsWith_ser (execSer_of_not_active hphase),
    fun hphase hwide => failsWith_ser (execSer_of_wide hphase hwide),
    fun hphase hwidth hrow => failsWith_ser (execSer_of_incomplete hphase hwidth hrow),
    fun hphase hwidth hrow hpending => failsWith_ser (execSer_of_pending hphase hwidth hrow hpending),
    fun hinv hphase hrow => ⟨bitsMissing_pos hinv hphase hrow, bitsMissing_lt s⟩⟩

end Sys2Proof.Machine
end

section
/-! The derived width (45_control R321). `CFG.A` sets `clog2 (S + 1)`, and that `clog2` is a least exponent says in one
equivalence which widths hold every value up to `S`; the bounds are that equivalence at the widths 0 and 16. -/

namespace Sys2Proof.Machine

/-! ## The width as a number -/

/-- The widths that hold every value up to `n` are those from the derived one up. -/
theorem clog2_succ_le_iff (n k : Nat) : clog2 (n + 1) ≤ k ↔ n < 2 ^ k := clog2_le_iff (n + 1) k

theorem lt_two_pow_clog2_succ (n : Nat) : n < 2 ^ clog2 (n + 1) := (clog2_succ_le_iff n _).1 le_rfl

/-- Width 0 holds only the value 0. -/
theorem clog2_succ_pos {n : Nat} (hn : n ≠ 0) : 1 ≤ clog2 (n + 1) := by
  by_contra hzero
  have hlt : n < 2 ^ 0 := (clog2_succ_le_iff n 0).1 (by omega)
  omega

/-- A dimension has 16 bits, so its derived width passes `SER`'s width check (44_serializer R291). -/
theorem clog2_succ_toNat_le (n : Half) : clog2 (n.toNat + 1) ≤ 16 := (clog2_succ_le_iff n.toNat 16).2 n.isLt

/-- 512 itself needs ten bits: nine hold only the values below it (90_conflicts C2). -/
theorem clog2_513 : clog2 513 = 10 := by
  have hten : clog2 513 ≤ 10 := (clog2_succ_le_iff 512 10).2 (by decide)
  have hnine : ¬ clog2 513 ≤ 9 := fun h => absurd ((clog2_succ_le_iff 512 9).1 h) (by decide)
  omega

/-! ## The width that `CFG.A` sets -/

/-- The arm of `CFG.A` in `exec`. -/
theorem exec_cfgA (n : Half) (s : State) : exec (.cfgA n) s = execCfgA n s := rfl

/-- The five bits of `B` hold every derived width (10_state R31). -/
theorem toNat_ofNat_clog2_succ (n : Half) : (BitVec.ofNat 5 (clog2 (n.toNat + 1))).toNat = clog2 (n.toNat + 1) := by
  have hle := clog2_succ_toNat_le n
  rw [BitVec.toNat_ofNat, Nat.mod_eq_of_lt (by omega)]

/-- A legal dimension passes both checks of `CFG` (45_control R320). -/
theorem configureChecked_of_legal {n : Half} {s : State} (hzero : n ≠ 0) (hmax : n ≤ s.params.sMax) (b : BitVec 5)
    (auto : Bool) (w : Word) :
    configureChecked n b auto w s = respond (b.setWidth 32) (configure n b auto s) := by
  obtain ⟨hn, _⟩ | ⟨_, hlt, _⟩ | ⟨_, _, heq⟩ := configureChecked_cases n b auto w s
  · exact absurd hn hzero
  · exact absurd hmax (BitVec.not_le.2 hlt)
  · exact heq

/-- `CFG.A` of a legal dimension has a next state, whose width is the derived one. -/
theorem exec_cfgA_width {n : Half} {s : State} (hzero : n ≠ 0) (hmax : n ≤ s.params.sMax) :
    ∃ t, exec (.cfgA n) s = .next t ∧ t.width.toNat = clog2 (n.toNat + 1) := by
  refine ⟨_, exec_cfgA n s, ?_⟩
  rw [configureChecked_of_legal hzero hmax, respond_width, configure_width, toNat_ofNat_clog2_succ]

/-- Settles O39: the width set is `clog2 (S + 1)`, the least exponent of a power of two above `S`. -/
theorem derivedWidthIsTheLeastLossless : Obligations.DerivedWidthIsTheLeastLossless := by
  refine ⟨fun s n hzero hmax => ?_, clog2_513⟩
  obtain ⟨t, hnext, hwidth⟩ := exec_cfgA_width hzero hmax
  have hpos : n.toNat ≠ 0 := fun h => hzero (BitVec.eq_of_toNat_eq h)
  refine ⟨t, hnext, ?_⟩
  rw [hwidth]
  exact ⟨lt_two_pow_clog2_succ n.toNat, fun k => (clog2_succ_le_iff n.toNat k).2, clog2_succ_pos hpos,
    clog2_succ_toNat_le n⟩

end Sys2Proof.Machine
end

section
/-! The bounds of the CSM (46_csm_option R361). The four requests that name a cell differ only in what they do inside the
grid: each is a bounds check around its own effect, so what the check refuses is said once for all four. -/

namespace Sys2Proof.Machine

open Sys2Proof.Safety

/-- The row is checked first, whatever the column is. -/
theorem withCell_of_row_out {s : State} {r : Half} (c : Half) (body : State → State) (hrow : s.csz ≤ r) :
    withCell r c body s = csmRespond 1 (BitVec.ofNat 32 r.toNat) s := by
  rw [withCell, if_pos hrow, errorCode, BitVec.ofNat_toNat]

theorem withCell_of_column_out {s : State} {r c : Half} (body : State → State) (hrow : r < s.csz) (hcol : s.csz ≤ c) :
    withCell r c body s = csmRespond 1 (BitVec.ofNat 32 c.toNat) s := by
  rw [withCell, if_neg (BitVec.not_le.2 hrow), if_pos hcol, errorCode, BitVec.ofNat_toNat]

/-- `GET`, `SET`, `LOCK` and `ISLOCKED` share the bounds check. -/
theorem exists_withCell_of_cellRequest {i : Instr} {r c : Half} {v : Byte}
    (hi : i ∈ [Instr.csmGet r c, .csmSet r c v, .csmLock r c, .csmIslocked r c]) (s : State) :
    ∃ body, exec i s = onCsmPort s (withCell r c body) := by
  simp only [List.mem_cons, List.not_mem_nil, or_false] at hi
  obtain rfl | rfl | rfl | rfl := hi
  · exact ⟨_, rfl⟩
  · exact ⟨_, rfl⟩
  · exact ⟨_, rfl⟩
  · exact ⟨_, rfl⟩

/-- A request that only responds is answered and changes nothing. -/
theorem answers_of_csmRespond {i : Instr} {s : State} {body : State → State} {status : BitVec 4} {data : Word}
    (hport : s.params.hasCsm = true) (hexec : exec i s = onCsmPort s body) (hbody : body s = csmRespond status data s) :
    Answers i s status data s :=
  hexec.trans (onCsmPort_eq_next_iff.2 ⟨hport, hbody.symm⟩)

/-- Settles O50: the bounds check refuses by the row, then by the column; in a grid of size 0 every row is out. -/
theorem csmOutOfBoundsIsARangeError : Obligations.CsmOutOfBoundsIsARangeError := by
  intro s r c v hport i hi
  obtain ⟨body, hexec⟩ := exists_withCell_of_cellRequest hi s
  have hrowOut (hrow : s.csz ≤ r) : Answers i s 1 (BitVec.ofNat 32 r.toNat) s :=
    answers_of_csmRespond hport hexec (withCell_of_row_out c body hrow)
  have hcolumnOut (hrow : r < s.csz) (hcol : s.csz ≤ c) : Answers i s 1 (BitVec.ofNat 32 c.toNat) s :=
    answers_of_csmRespond hport hexec (withCell_of_column_out body hrow hcol)
  exact ⟨hrowOut, hcolumnOut, fun hzero => hrowOut (BitVec.not_lt.1 (hzero ▸ BitVec.not_lt_zero))⟩

end Sys2Proof.Machine
end

section
/-! Every transaction completes (60_exceptions R413). Of the two ways a step can stop, the port's absence can meet only a
request and a silent sink only an emitting command; every other branch of every command ends in a next state. -/

namespace Sys2Proof.Machine

open Sys2Proof.Safety

/-! ## The two stops -/

/-- What port `cmd` delivers is never a request: no row of the port's table has a request's mnemonic (30_encoding R128,
R132). -/
theorem isCommand_of_decodeCmd {w : Word} {i : Instr} (h : decodeCmd w = .ok i) : isCommand i = true := by
  obtain ⟨row, hmem, hname, -⟩ := covers_of_decodeCmd h
  have hnamed : ∃ row ∈ cmdRows, row.mnemonic = mnemonicOf i := ⟨row, hmem, hname⟩
  cases i with
  | cfg | cfgA | clr | rst | rd | pushb | pushbit | bitx | xtr | pkw | pkf | ser => rfl
  | csmResize | csmGet | csmSet | csmLock | csmIslocked | csmSize =>
    exact absurd hnamed (by simp only [mnemonicOf]; decide)

/-- Every request is some effect behind the port. -/
theorem exists_onCsmPort_of_request {i : Instr} (hi : isCommand i = false) (s : State) :
    ∃ body, exec i s = onCsmPort s body := by
  cases i with
  | csmResize => exact ⟨_, by rw [exec, execCsmResize]⟩
  | csmGet | csmSet | csmLock | csmIslocked | csmSize => exact ⟨_, rfl⟩
  | cfg | cfgA | clr | rst | rd | pushb | pushbit | bitx | xtr | pkw | pkf | ser =>
    exact absurd hi.symm Bool.false_ne_true

theorem request_completes {i : Instr} {s : State} (hi : isCommand i = false) (hport : s.params.hasCsm = true) :
    ∃ t, exec i s = .next t := by
  obtain ⟨body, hexec⟩ := exists_onCsmPort_of_request hi s
  exact ⟨body s, hexec.trans (onCsmPort_eq_next_iff.2 ⟨hport, rfl⟩)⟩

/-- A sink that goes on answering ends every emission: all bytes accepted, or `IoError` at the first that is not. -/
theorem finish_completes {e : Emission} {s : State} (hsink : s.sink.thereafter ≠ none)
    (hemits : ∃ vs b i c, Emits e 0 s vs b i c) (w : Word) (done : Nat → State → State) :
    ∃ t, finish w e done = .next t := by
  obtain ⟨vs, b, i, c, hemits⟩ := hemits
  obtain ⟨-, hdone⟩ | ⟨j, -, -, hfailed⟩ | ⟨j, -, hsilent, -⟩ := finish_cases hemits w done
  · exact ⟨_, hdone⟩
  · exact ⟨_, hfailed⟩
  · exact absurd hsilent (not_silentAt hsink j)

/-! ## The commands with checks -/

theorem execRd_completes (sel : BitVec 4) (idx : BitVec 20) (s : State) : ∃ t, execRd sel idx s = .next t := by
  unfold execRd
  cases windowOf sel with
  | none => exact ⟨_, rfl⟩
  | some win =>
    cases win with
    | csr =>
      cases csrOf idx.toNat with
      | none => exact ⟨_, rfl⟩
      | some reg => exact ⟨_, rfl⟩
    | row | col | diag | anti | dig | hbuf => dsimp only; split_ifs <;> exact ⟨_, rfl⟩

theorem execPushb_completes (v : Byte) (s : State) : ∃ t, execPushb v s = .next t := by
  unfold execPushb
  split_ifs <;> exact ⟨_, rfl⟩

theorem execPushbit_completes (v : Byte) (s : State) : ∃ t, execPushbit v s = .next t := by
  unfold execPushbit
  split_ifs <;> exact ⟨_, rfl⟩

theorem execBitx_completes (byte : Byte) (p : BitVec 4) (s : State) : ∃ t, execBitx byte p s = .next t := by
  obtain hinside | hpast := le_or_gt p.toNat 7
  · exact ⟨_, execBitx_of_le byte s hinside⟩
  · exact ⟨_, execBitx_of_gt byte s hpast⟩

/-! ## The emitting commands -/

theorem execPkw_completes {s : State} (hsink : s.sink.thereafter ≠ none) (val : Half) (w : BitVec 5) :
    ∃ t, execPkw val w s = .next t := by
  unfold execPkw
  split_ifs
  · exact ⟨_, rfl⟩
  · exact finish_completes hsink (emits_packValue val w 0 s) _ _

theorem execPkf_completes {s : State} (hsink : s.sink.thereafter ≠ none) : ∃ t, execPkf s = .next t := by
  unfold execPkf
  dsimp only
  by_cases habort : s.phase = .abort
  · exact ⟨_, if_pos habort⟩
  · rw [if_neg habort]
    exact finish_completes hsink (emits_packFlush 0 s) _ _

theorem execSer_completes {s : State} (hsink : s.sink.thereafter ≠ none) : ∃ t, execSer s = .next t := by
  unfold execSer
  split_ifs
  · exact ⟨_, rfl⟩
  · exact ⟨_, rfl⟩
  · exact ⟨_, rfl⟩
  · exact ⟨_, rfl⟩
  · exact finish_completes hsink (emits_serEmit s) _ _

/-! ## Every instruction -/

/-- The meaning of every instruction is a next state, on every operand and in every phase. -/
theorem exec_completes {i : Instr} {s : State} (hsink : s.sink.thereafter ≠ none)
    (hport : isCommand i = true ∨ s.params.hasCsm = true) : ∃ t, exec i s = .next t := by
  cases i with
  | cfg | cfgA | clr | rst | xtr => exact ⟨_, rfl⟩
  | rd sel idx => exact execRd_completes sel idx s
  | pushb v => exact execPushb_completes v s
  | pushbit v => exact execPushbit_completes v s
  | bitx byte p => exact execBitx_completes byte p s
  | pkw val w => exact execPkw_completes hsink val w
  | pkf => exact execPkf_completes hsink
  | ser => exact execSer_completes hsink
  | csmResize | csmGet | csmSet | csmLock | csmIslocked | csmSize =>
    exact request_completes rfl (hport.resolve_left Bool.false_ne_true)

/-! ## Taking a transaction -/

theorem step_of_nothing_delivered {s : State} (hinputs : s.inputs = []) : step s = .next s := by
  rw [step, fetch, hinputs]

theorem step_of_hardware_reset {s : State} {rest : List Input} (hinputs : s.inputs = .reset :: rest) :
    step s = .next (resetBlock { s with inputs := rest }) := by
  rw [step, fetch, hinputs]

theorem step_of_decoded_command {s : State} {w : Word} {rest : List Input} {i : Instr}
    (hinputs : s.inputs = .word (.cmd w) :: rest) (hdecode : decode (.cmd w) = .ok i) :
    step s = exec i { s with inputs := rest } := by
  rw [step, fetch, hinputs]
  simp only [fetchWord, hdecode]

theorem step_of_undecodable_command {s : State} {w : Word} {rest : List Input} {e : DecodeError}
    (hinputs : s.inputs = .word (.cmd w) :: rest) (hdecode : decode (.cmd w) = .error e) :
    step s = .next (raise .illegalCommand 0 w { s with inputs := rest }) := by
  rw [step, fetch, hinputs]
  simp only [fetchWord, hdecode]

theorem step_of_decoded_request {s : State} {q : Request} {rest : List Input} {i : Instr}
    (hport : s.params.hasCsm = true) (hinputs : s.inputs = .word (.csm q) :: rest) (hdecode : decode (.csm q) = .ok i) :
    step s = exec i { s with inputs := rest } := by
  rw [step, fetch, hinputs]
  simp only [fetchWord, hport, hdecode, if_true]

theorem step_of_undecodable_request {s : State} {q : Request} {rest : List Input} {e : DecodeError}
    (hport : s.params.hasCsm = true) (hinputs : s.inputs = .word (.csm q) :: rest)
    (hdecode : decode (.csm q) = .error e) :
    step s = .next (csmRespond (errorCode .illegalCommand) 0 { s with inputs := rest }) := by
  rw [step, fetch, hinputs]
  simp only [fetchWord, hport, hdecode, if_true]

/-! ## Every transaction -/

/-- A command word has a rule whether it decodes or not (30_encoding R126). -/
theorem step_completes_of_command {s : State} {w : Word} {rest : List Input} (hsink : s.sink.thereafter ≠ none)
    (hinputs : s.inputs = .word (.cmd w) :: rest) : ∃ t, step s = .next t := by
  cases hdecode : decode (.cmd w) with
  | error e => exact ⟨_, step_of_undecodable_command hinputs hdecode⟩
  | ok i =>
    rw [step_of_decoded_command hinputs hdecode]
    exact exec_completes hsink (.inl (isCommand_of_decodeCmd hdecode))

/-- So has a request word, where there is a port to carry it (30_encoding R132). -/
theorem step_completes_of_request {s : State} {q : Request} {rest : List Input} (hsink : s.sink.thereafter ≠ none)
    (hport : s.params.hasCsm = true) (hinputs : s.inputs = .word (.csm q) :: rest) : ∃ t, step s = .next t := by
  cases hdecode : decode (.csm q) with
  | error e => exact ⟨_, step_of_undecodable_request hport hinputs hdecode⟩
  | ok i =>
    rw [step_of_decoded_request hport hinputs hdecode]
    exact exec_completes hsink (.inr hport)

/-- Settles O60, by what is delivered next: nothing, a hardware reset, a command word or a request word. -/
theorem everyTransactionCompletes : Obligations.EveryTransactionCompletes := by
  intro s hsink hoccurs
  cases hinputs : s.inputs with
  | nil => exact ⟨_, step_of_nothing_delivered hinputs⟩
  | cons input rest =>
    cases input with
    | reset => exact ⟨_, step_of_hardware_reset hinputs⟩
    | word p =>
      cases p with
      | cmd w => exact step_completes_of_command hsink hinputs
      | csm q =>
        have hport : s.params.hasCsm = true := hoccurs.resolve_right fun hnone => hnone q rest hinputs
        exact step_completes_of_request hsink hport hinputs

end Sys2Proof.Machine
end

section
/-! Words and instructions (30_encoding R122 to R132). A word is the word of a format exactly when its fields are the
operands and its zero fields are zero; so each port's decoder answers an instruction exactly on that instruction's word, which
is both directions of the round trip at once. -/

namespace Sys2Proof

/-! ## A word and the fields of its format -/

theorem eq_wordZ_iff {w : Word} {op : Byte} : w = wordZ op ↔ w.extractLsb' 24 8 = op ∧ w.extractLsb' 0 24 = 0 := by
  have := w.isLt; have := op.isLt
  simp only [← BitVec.toNat_inj, toNat_field, toNat_wordZ, BitVec.ofNat_eq_ofNat, BitVec.toNat_ofNat]
  omega

theorem eq_wordC_iff {w : Word} {auto : BitVec 1} {b : BitVec 5} {n : Half} :
    w = wordC auto b n ↔ w.extractLsb' 24 8 = opCfg ∧ w.extractLsb' 21 2 = 0 ∧ w.extractLsb' 23 1 = auto
      ∧ w.extractLsb' 16 5 = b ∧ w.extractLsb' 0 16 = n := by
  have := w.isLt; have := auto.isLt; have := b.isLt; have := n.isLt
  simp only [← BitVec.toNat_inj, toNat_field, toNat_wordC, opCfg, BitVec.ofNat_eq_ofNat, BitVec.toNat_ofNat]
  omega

theorem eq_wordV_iff {w : Word} {op v : Byte} :
    w = wordV op v ↔ w.extractLsb' 24 8 = op ∧ w.extractLsb' 8 16 = 0 ∧ w.extractLsb' 0 8 = v := by
  have := w.isLt; have := op.isLt; have := v.isLt
  simp only [← BitVec.toNat_inj, toNat_field, toNat_wordV, BitVec.ofNat_eq_ofNat, BitVec.toNat_ofNat]
  omega

theorem eq_wordX_iff {w : Word} {op byte : Byte} {p : BitVec 4} :
    w = wordX op p byte ↔ w.extractLsb' 24 8 = op ∧ w.extractLsb' 12 12 = 0 ∧ w.extractLsb' 8 4 = p
      ∧ w.extractLsb' 0 8 = byte := by
  have := w.isLt; have := op.isLt; have := p.isLt; have := byte.isLt
  simp only [← BitVec.toNat_inj, toNat_field, toNat_wordX, BitVec.ofNat_eq_ofNat, BitVec.toNat_ofNat]
  omega

theorem eq_wordW_iff {w : Word} {op : Byte} {width : BitVec 5} {val : Half} :
    w = wordW op width val ↔ w.extractLsb' 24 8 = op ∧ w.extractLsb' 21 3 = 0 ∧ w.extractLsb' 16 5 = width
      ∧ w.extractLsb' 0 16 = val := by
  have := w.isLt; have := op.isLt; have := width.isLt; have := val.isLt
  simp only [← BitVec.toNat_inj, toNat_field, toNat_wordW, BitVec.ofNat_eq_ofNat, BitVec.toNat_ofNat]
  omega

theorem eq_wordA_iff {w : Word} {op : Byte} {sel : BitVec 4} {idx : BitVec 20} :
    w = wordA op sel idx ↔ w.extractLsb' 24 8 = op ∧ w.extractLsb' 20 4 = sel ∧ w.extractLsb' 0 20 = idx := by
  have := w.isLt; have := op.isLt; have := sel.isLt; have := idx.isLt
  simp only [← BitVec.toNat_inj, toNat_field, toNat_wordA]
  omega

theorem eq_requestQ_iff {q : Request} {cop v : Byte} {r c : Half} :
    q = requestQ cop v r c ↔ q.extractLsb' 56 8 = cop ∧ q.extractLsb' 40 16 = 0 ∧ q.extractLsb' 32 8 = v
      ∧ q.extractLsb' 16 16 = r ∧ q.extractLsb' 0 16 = c := by
  have := q.isLt; have := cop.isLt; have := v.isLt; have := r.isLt; have := c.isLt
  simp only [← BitVec.toNat_inj, toNat_field, toNat_requestQ, BitVec.ofNat_eq_ofNat, BitVec.toNat_ofNat]
  omega

/-! ## The decoder of each format at its opcode -/

theorem decodeZ_eq_ok_iff {w : Word} {op : Byte} {i j : Instr} (hop : w.extractLsb' 24 8 = op) :
    decodeZ i w = .ok j ↔ i = j ∧ w = wordZ op := by
  rw [decodeZ, whenZero_eq_ok, Except.ok.injEq, eq_wordZ_iff, and_iff_right hop, and_comm]

/-- The `auto` bit chooses between `CFG` and `CFG.A`; with it set the width field must be zero (30_encoding R126 step 3). -/
theorem decodeCmd_opCfg_eq_ok_iff {w : Word} {i : Instr} (hop : w.extractLsb' 24 8 = opCfg) :
    decodeCmd w = .ok i ↔ (∃ n b, .cfg n b = i ∧ w = wordC 0 b n) ∨ ∃ n, .cfgA n = i ∧ w = wordC 1 0 n := by
  have hauto : w.extractLsb' 23 1 ≠ 0 ↔ w.extractLsb' 23 1 = 1 := by
    have := (w.extractLsb' 23 1).isLt
    simp only [ne_eq, ← BitVec.toNat_inj, BitVec.ofNat_eq_ofNat, BitVec.toNat_ofNat]
    omega
  have hrows := cfg_decodesOnRows w i
  rw [covers_cfg_iff, covers_cfgA_iff, hauto] at hrows
  simp only [and_iff_right hop] at hrows
  simp only [hrows, eq_wordC_iff, and_iff_right hop]
  constructor
  · rintro (⟨⟨hzero, h0⟩, rfl⟩ | ⟨⟨hzero, h1, hb⟩, rfl⟩)
    · exact .inl ⟨_, _, rfl, hzero, h0, rfl, rfl⟩
    · exact .inr ⟨_, rfl, hzero, h1, hb, rfl⟩
  · rintro (⟨_, _, rfl, hzero, h0, rfl, rfl⟩ | ⟨_, rfl, hzero, h1, hb, rfl⟩)
    · exact .inl ⟨⟨hzero, h0⟩, rfl⟩
    · exact .inr ⟨⟨hzero, h1, hb⟩, rfl⟩

theorem decodeV_eq_ok_iff {w : Word} {op : Byte} {instr : Byte → Instr} {i : Instr} (hop : w.extractLsb' 24 8 = op) :
    decodeV instr w = .ok i ↔ ∃ v, instr v = i ∧ w = wordV op v := by
  rw [decodeV, whenZero_eq_ok, Except.ok.injEq]
  simp only [eq_wordV_iff, and_iff_right hop]
  exact ⟨fun ⟨hzero, h⟩ => ⟨_, h, hzero, rfl⟩, fun ⟨_, h, hzero, hv⟩ => ⟨hzero, hv ▸ h⟩⟩

theorem decodeX_eq_ok_iff {w : Word} {op : Byte} {instr : Byte → BitVec 4 → Instr} {i : Instr}
    (hop : w.extractLsb' 24 8 = op) : decodeX instr w = .ok i ↔ ∃ byte p, instr byte p = i ∧ w = wordX op p byte := by
  rw [decodeX, whenZero_eq_ok, Except.ok.injEq]
  simp only [eq_wordX_iff, and_iff_right hop]
  exact ⟨fun ⟨hzero, h⟩ => ⟨_, _, h, hzero, rfl, rfl⟩,
    fun ⟨_, _, h, hzero, hp, hbyte⟩ => ⟨hzero, hp ▸ hbyte ▸ h⟩⟩

theorem decodeW_eq_ok_iff {w : Word} {op : Byte} {instr : Half → BitVec 5 → Instr} {i : Instr}
    (hop : w.extractLsb' 24 8 = op) :
    decodeW instr w = .ok i ↔ ∃ val width, instr val width = i ∧ w = wordW op width val := by
  rw [decodeW, whenZero_eq_ok, Except.ok.injEq]
  simp only [eq_wordW_iff, and_iff_right hop]
  exact ⟨fun ⟨hzero, h⟩ => ⟨_, _, h, hzero, rfl, rfl⟩,
    fun ⟨_, _, h, hzero, hwidth, hval⟩ => ⟨hzero, hwidth ▸ hval ▸ h⟩⟩

theorem decodeA_eq_ok_iff {w : Word} {op : Byte} {instr : BitVec 4 → BitVec 20 → Instr} {i : Instr}
    (hop : w.extractLsb' 24 8 = op) : decodeA instr w = .ok i ↔ ∃ sel idx, instr sel idx = i ∧ w = wordA op sel idx := by
  rw [decodeA, Except.ok.injEq]
  simp only [eq_wordA_iff, and_iff_right hop]
  exact ⟨fun h => ⟨_, _, h, rfl, rfl⟩, fun ⟨_, _, h, hsel, hidx⟩ => hsel ▸ hidx ▸ h⟩

/-! ## The two decoders -/

/-- A command word that decodes is the word of its instruction: one case for each opcode. -/
theorem encode_of_decodeCmd {w : Word} {i : Instr} (h : decodeCmd w = .ok i) : encode i = .cmd w := by
  have hops := decodeCmd_opcode h
  simp only [List.mem_cons, List.not_mem_nil, or_false] at hops
  rcases hops with hop | hop | hop | hop | hop | hop | hop | hop | hop | hop | hop
  · rw [decodeCmd_opCfg_eq_ok_iff hop] at h
    obtain ⟨_, _, rfl, rfl⟩ | ⟨_, rfl, rfl⟩ := h <;> rfl
  · rw [decodeCmd_of_opClr hop, decodeZ_eq_ok_iff hop] at h
    obtain ⟨rfl, rfl⟩ := h; rfl
  · rw [decodeCmd_of_opRst hop, decodeZ_eq_ok_iff hop] at h
    obtain ⟨rfl, rfl⟩ := h; rfl
  · rw [decodeCmd_of_opRd hop, decodeA_eq_ok_iff hop] at h
    obtain ⟨_, _, rfl, rfl⟩ := h; rfl
  · rw [decodeCmd_of_opPushb hop, decodeV_eq_ok_iff hop] at h
    obtain ⟨_, rfl, rfl⟩ := h; rfl
  · rw [decodeCmd_of_opPushbit hop, decodeV_eq_ok_iff hop] at h
    obtain ⟨_, rfl, rfl⟩ := h; rfl
  · rw [decodeCmd_of_opBitx hop, decodeX_eq_ok_iff hop] at h
    obtain ⟨_, _, rfl, rfl⟩ := h; rfl
  · rw [decodeCmd_of_opXtr hop, decodeW_eq_ok_iff hop] at h
    obtain ⟨_, _, rfl, rfl⟩ := h; rfl
  · rw [decodeCmd_of_opPkw hop, decodeW_eq_ok_iff hop] at h
    obtain ⟨_, _, rfl, rfl⟩ := h; rfl
  · rw [decodeCmd_of_opPkf hop, decodeZ_eq_ok_iff hop] at h
    obtain ⟨rfl, rfl⟩ := h; rfl
  · rw [decodeCmd_of_opSer hop, decodeZ_eq_ok_iff hop] at h
    obtain ⟨rfl, rfl⟩ := h; rfl

/-- The decoder answers every command on its own word. -/
theorem decodeCmd_of_encode {w : Word} {i : Instr} (h : encode i = .cmd w) : decodeCmd w = .ok i := by
  cases i with
  | cfg n b =>
    obtain rfl := PortWord.cmd.inj h
    obtain ⟨hop, -⟩ := eq_wordC_iff.1 (rfl : wordC 0 b n = _)
    exact (decodeCmd_opCfg_eq_ok_iff hop).2 (.inl ⟨n, b, rfl, rfl⟩)
  | cfgA n =>
    obtain rfl := PortWord.cmd.inj h
    obtain ⟨hop, -⟩ := eq_wordC_iff.1 (rfl : wordC 1 0 n = _)
    exact (decodeCmd_opCfg_eq_ok_iff hop).2 (.inr ⟨n, rfl, rfl⟩)
  | clr =>
    obtain rfl := PortWord.cmd.inj h
    obtain ⟨hop, -⟩ := eq_wordZ_iff.1 (rfl : wordZ opClr = _)
    exact (decodeCmd_of_opClr hop).trans ((decodeZ_eq_ok_iff hop).2 ⟨rfl, rfl⟩)
  | rst =>
    obtain rfl := PortWord.cmd.inj h
    obtain ⟨hop, -⟩ := eq_wordZ_iff.1 (rfl : wordZ opRst = _)
    exact (decodeCmd_of_opRst hop).trans ((decodeZ_eq_ok_iff hop).2 ⟨rfl, rfl⟩)
  | rd sel idx =>
    obtain rfl := PortWord.cmd.inj h
    obtain ⟨hop, -⟩ := eq_wordA_iff.1 (rfl : wordA opRd sel idx = _)
    exact (decodeCmd_of_opRd hop).trans ((decodeA_eq_ok_iff hop).2 ⟨sel, idx, rfl, rfl⟩)
  | pushb v =>
    obtain rfl := PortWord.cmd.inj h
    obtain ⟨hop, -⟩ := eq_wordV_iff.1 (rfl : wordV opPushb v = _)
    exact (decodeCmd_of_opPushb hop).trans ((decodeV_eq_ok_iff hop).2 ⟨v, rfl, rfl⟩)
  | pushbit v =>
    obtain rfl := PortWord.cmd.inj h
    obtain ⟨hop, -⟩ := eq_wordV_iff.1 (rfl : wordV opPushbit v = _)
    exact (decodeCmd_of_opPushbit hop).trans ((decodeV_eq_ok_iff hop).2 ⟨v, rfl, rfl⟩)
  | bitx byte p =>
    obtain rfl := PortWord.cmd.inj h
    obtain ⟨hop, -⟩ := eq_wordX_iff.1 (rfl : wordX opBitx p byte = _)
    exact (decodeCmd_of_opBitx hop).trans ((decodeX_eq_ok_iff hop).2 ⟨byte, p, rfl, rfl⟩)
  | xtr val w =>
    obtain rfl := PortWord.cmd.inj h
    obtain ⟨hop, -⟩ := eq_wordW_iff.1 (rfl : wordW opXtr w val = _)
    exact (decodeCmd_of_opXtr hop).trans ((decodeW_eq_ok_iff hop).2 ⟨val, w, rfl, rfl⟩)
  | pkw val w =>
    obtain rfl := PortWord.cmd.inj h
    obtain ⟨hop, -⟩ := eq_wordW_iff.1 (rfl : wordW opPkw w val = _)
    exact (decodeCmd_of_opPkw hop).trans ((decodeW_eq_ok_iff hop).2 ⟨val, w, rfl, rfl⟩)
  | pkf =>
    obtain rfl := PortWord.cmd.inj h
    obtain ⟨hop, -⟩ := eq_wordZ_iff.1 (rfl : wordZ opPkf = _)
    exact (decodeCmd_of_opPkf hop).trans ((decodeZ_eq_ok_iff hop).2 ⟨rfl, rfl⟩)
  | ser =>
    obtain rfl := PortWord.cmd.inj h
    obtain ⟨hop, -⟩ := eq_wordZ_iff.1 (rfl : wordZ opSer = _)
    exact (decodeCmd_of_opSer hop).trans ((decodeZ_eq_ok_iff hop).2 ⟨rfl, rfl⟩)
  | csmResize | csmGet | csmSet | csmLock | csmIslocked | csmSize => exact nomatch h

theorem decodeCmd_eq_ok_iff {w : Word} {i : Instr} : decodeCmd w = .ok i ↔ encode i = .cmd w :=
  ⟨encode_of_decodeCmd, decodeCmd_of_encode⟩

/-- A request word that decodes is the word of its instruction: one case for each operation. -/
theorem encode_of_decodeCsm {q : Request} {i : Instr} (h : decodeCsm q = .ok i) : encode i = .csm q := by
  simp only [decodeCsm] at h
  split_ifs at h with hcop hcop hcop hcop hcop hcop
  · obtain ⟨⟨hgap, hv, hr⟩, rfl⟩ := whenRequestZero_eq_ok.1 h
    rw [encode, ← eq_requestQ_iff.2 ⟨hcop, hgap, hv, hr, rfl⟩]
  · obtain ⟨⟨hgap, hv⟩, rfl⟩ := whenRequestZero_eq_ok.1 h
    rw [encode, ← eq_requestQ_iff.2 ⟨hcop, hgap, hv, rfl, rfl⟩]
  · obtain ⟨hgap, rfl⟩ := whenRequestZero_eq_ok.1 h
    rw [encode, ← eq_requestQ_iff.2 ⟨hcop, hgap, rfl, rfl, rfl⟩]
  · obtain ⟨⟨hgap, hv⟩, rfl⟩ := whenRequestZero_eq_ok.1 h
    rw [encode, ← eq_requestQ_iff.2 ⟨hcop, hgap, hv, rfl, rfl⟩]
  · obtain ⟨⟨hgap, hv⟩, rfl⟩ := whenRequestZero_eq_ok.1 h
    rw [encode, ← eq_requestQ_iff.2 ⟨hcop, hgap, hv, rfl, rfl⟩]
  · obtain ⟨⟨hgap, hv, hr, hc⟩, rfl⟩ := whenRequestZero_eq_ok.1 h
    rw [encode, ← eq_requestQ_iff.2 ⟨hcop, hgap, hv, hr, hc⟩]

/-- The decoder on the word of format Q with these fields. -/
theorem decodeCsm_requestQ (cop v : Byte) (r c : Half) :
    decodeCsm (requestQ cop v r c)
      = if cop = copResize then whenRequestZero ((0 : Half) = 0 ∧ v = 0 ∧ r = 0) (.csmResize c)
        else if cop = copGet then whenRequestZero ((0 : Half) = 0 ∧ v = 0) (.csmGet r c)
        else if cop = copSet then whenRequestZero ((0 : Half) = 0) (.csmSet r c v)
        else if cop = copLock then whenRequestZero ((0 : Half) = 0 ∧ v = 0) (.csmLock r c)
        else if cop = copIslocked then whenRequestZero ((0 : Half) = 0 ∧ v = 0) (.csmIslocked r c)
        else if cop = copSize then whenRequestZero ((0 : Half) = 0 ∧ v = 0 ∧ r = 0 ∧ c = 0) .csmSize
        else .error .unknownOperation := by
  obtain ⟨hcop, hgap, hv, hr, hc⟩ := eq_requestQ_iff.1 (rfl : requestQ cop v r c = _)
  simp only [decodeCsm, hcop, hgap, hv, hr, hc]

/-- The decoder answers every request on its own word. -/
theorem decodeCsm_of_encode {q : Request} {i : Instr} (h : encode i = .csm q) : decodeCsm q = .ok i := by
  cases i with
  | csmResize | csmGet | csmSet | csmLock | csmIslocked | csmSize =>
    obtain rfl := PortWord.csm.inj h
    rw [decodeCsm_requestQ]
    simp [whenRequestZero, copResize, copGet, copSet, copLock, copIslocked, copSize]
  | cfg | cfgA | clr | rst | rd | pushb | pushbit | bitx | xtr | pkw | pkf | ser => exact nomatch h

theorem decodeCsm_eq_ok_iff {q : Request} {i : Instr} : decodeCsm q = .ok i ↔ encode i = .csm q :=
  ⟨encode_of_decodeCsm, decodeCsm_of_encode⟩

/-- On each port the words that decode to an instruction are its own word alone. -/
theorem decode_eq_ok_iff {p : PortWord} {i : Instr} : decode p = .ok i ↔ encode i = p := by
  cases p with
  | cmd w => exact decodeCmd_eq_ok_iff
  | csm q => exact decodeCsm_eq_ok_iff

/-- Settles O1: an instruction's own word is among the words that decode to it. -/
theorem decodeOfEncodeIsTheInstruction : Obligations.DecodeOfEncodeIsTheInstruction := fun _ => decode_eq_ok_iff.2 rfl

/-- Settles O2: no other word decodes to it. -/
theorem encodeOfDecodeIsTheWord : Obligations.EncodeOfDecodeIsTheWord := fun _ _ => decode_eq_ok_iff.1

/-! ## Words written as numbers -/

/-- An opcode-table word decodes to the instruction whose word it is. -/
theorem decodeTableWord_of_encode {nbits w : Nat} {i : Instr} (h : tableWord nbits w = some (encode i)) :
    decodeTableWord nbits w = some i := by
  rw [decodeTableWord, h]
  simp only [decode_eq_ok_iff.2 rfl, Except.toOption]

/-- Settles O5: each number is the word of its instruction. -/
theorem writtenOutWordsDecode : Obligations.WrittenOutWordsDecode := by
  refine ⟨?_, ?_, ?_, ?_, ?_, ?_, ?_, ?_⟩ <;> exact decodeTableWord_of_encode (by decide)

/-! ## The rows of format Q -/

/-- A mask of the bits from `low` up with the bare operation as match asks for the operation and for zeros down to `low`. -/
theorem covers_iff_of_highMask {row : TableRow 64} {cop : Byte} {low : Nat} (hmask : row.maskBits = BitVec.allOnes 64 <<< low)
    (hmatch : row.matchBits = requestQ cop 0 0 0) (q : Request) :
    row.covers q ↔ q.toNat / 2 ^ low * 2 ^ low = cop.toNat * 2 ^ 56 := by
  rw [TableRow.covers, and_highMask_eq_iff q _ _ low hmask, hmatch, toNat_requestQ]
  simp

/-- The three requests that name a cell and carry no value have one layout. -/
theorem eq_requestQ_of_highBits {q : Request} {cop : Byte} (h : q.toNat / 2 ^ 32 * 2 ^ 32 = cop.toNat * 2 ^ 56) :
    q = requestQ cop 0 (q.extractLsb' 16 16) (q.extractLsb' 0 16) := by
  have := q.isLt
  rw [← BitVec.toNat_inj]
  simp only [toNat_requestQ, toNat_field, BitVec.ofNat_eq_ofNat, BitVec.toNat_ofNat]
  omega

/-- A request word that a row covers is the word of an instruction of that row: one case for each row. -/
theorem exists_encode_of_covers {q : Request} {row : TableRow 64} (hmem : row ∈ csmRows) (hcov : row.covers q) :
    ∃ i, encode i = .csm q ∧ row.mnemonic = mnemonicOf i := by
  have := q.isLt
  simp only [csmRows, List.mem_cons, List.not_mem_nil, or_false] at hmem
  rcases hmem with rfl | rfl | rfl | rfl | rfl | rfl
  · rw [covers_iff_of_highMask (cop := copResize) (low := 16) (by decide) (by decide)] at hcov
    have hword : q = requestQ copResize 0 0 (q.extractLsb' 0 16) := by
      rw [← BitVec.toNat_inj]
      simp only [toNat_requestQ, toNat_field, BitVec.ofNat_eq_ofNat, BitVec.toNat_ofNat]
      omega
    exact ⟨.csmResize _, by rw [encode, ← hword], rfl⟩
  · rw [covers_iff_of_highMask (cop := copGet) (low := 32) (by decide) (by decide)] at hcov
    exact ⟨.csmGet _ _, by rw [encode, ← eq_requestQ_of_highBits hcov], rfl⟩
  · rw [covers_iff_of_highMask (cop := copSet) (low := 40) (by decide) (by decide)] at hcov
    have hword : q = requestQ copSet (q.extractLsb' 32 8) (q.extractLsb' 16 16) (q.extractLsb' 0 16) := by
      rw [← BitVec.toNat_inj]
      simp only [toNat_requestQ, toNat_field]
      omega
    exact ⟨.csmSet _ _ _, by rw [encode, ← hword], rfl⟩
  · rw [covers_iff_of_highMask (cop := copLock) (low := 32) (by decide) (by decide)] at hcov
    exact ⟨.csmLock _ _, by rw [encode, ← eq_requestQ_of_highBits hcov], rfl⟩
  · rw [covers_iff_of_highMask (cop := copIslocked) (low := 32) (by decide) (by decide)] at hcov
    exact ⟨.csmIslocked _ _, by rw [encode, ← eq_requestQ_of_highBits hcov], rfl⟩
  · rw [covers_iff_of_highMask (cop := copSize) (low := 0) (by decide) (by decide)] at hcov
    have hword : q = requestQ copSize 0 0 0 := by
      rw [← BitVec.toNat_inj]
      simp only [toNat_requestQ, BitVec.ofNat_eq_ofNat, BitVec.toNat_ofNat]
      omega
    exact ⟨.csmSize, by rw [encode, ← hword], rfl⟩

/-- The row of each instruction covers its word (30_encoding R132). -/
theorem exists_row_of_encode {q : Request} {i : Instr} (h : encode i = .csm q) :
    ∃ row ∈ csmRows, row.mnemonic = mnemonicOf i ∧ row.covers q := by
  cases i with
  | csmResize n => exact PortWord.csm.inj h ▸ Laws.EncodesOnItsRow.csmResize n
  | csmGet r c => exact PortWord.csm.inj h ▸ Laws.EncodesOnItsRow.csmGet r c
  | csmSet r c v => exact PortWord.csm.inj h ▸ Laws.EncodesOnItsRow.csmSet r c v
  | csmLock r c => exact PortWord.csm.inj h ▸ Laws.EncodesOnItsRow.csmLock r c
  | csmIslocked r c => exact PortWord.csm.inj h ▸ Laws.EncodesOnItsRow.csmIslocked r c
  | csmSize => exact PortWord.csm.inj h ▸ Laws.EncodesOnItsRow.csmSize
  | cfg | cfgA | clr | rst | rd | pushb | pushbit | bitx | xtr | pkw | pkf | ser => exact nomatch h

/-- A row of port `csm` is known by its mnemonic. -/
theorem csmRows_mnemonic_injective :
    ∀ row ∈ csmRows, ∀ other ∈ csmRows, row.mnemonic = other.mnemonic → row = other := by decide

/-- Two rows that cover one word are the same, since the word decodes to one instruction and that has one mnemonic. -/
theorem csmRows_disjoint {q : Request} {row other : TableRow 64} (hrow : row ∈ csmRows) (hother : other ∈ csmRows)
    (hcov : row.covers q) (hcov' : other.covers q) : row = other := by
  obtain ⟨i, hi, hname⟩ := exists_encode_of_covers hrow hcov
  obtain ⟨j, hj, hname'⟩ := exists_encode_of_covers hother hcov'
  obtain rfl : i = j := Except.ok.inj ((decodeCsm_of_encode hi).symm.trans (decodeCsm_of_encode hj))
  exact csmRows_mnemonic_injective row hrow other hother (hname.trans hname'.symm)

/-- Settles O4: a row covers the words of its own instructions, and those are the words that decode. -/
theorem requestWordDecodesExactlyOnItsRow : Obligations.RequestWordDecodesExactlyOnItsRow := fun _ =>
  ⟨fun _ h => exists_row_of_encode (decode_eq_ok_iff.1 h),
    fun ⟨_, hmem, hcov⟩ => (exists_encode_of_covers hmem hcov).imp fun _ h => decode_eq_ok_iff.2 h.1,
    fun _ hrow _ hother hcov hcov' => csmRows_disjoint hrow hother hcov hcov'⟩

/-! ## The assembler's sums -/

/-- A line assembles to the word whose number its sum is (30_encoding R129). -/
theorem assemble_cmd {l : AsmLine} {w : Word} (hwf : l.wf = true) (hsum : asmNumber l = (false, w.toNat)) :
    assemble l = some (.cmd w) := by
  rw [assemble, if_pos hwf, hsum]
  simp only [BitVec.ofNat_toNat, BitVec.setWidth_eq]

theorem assemble_csm {l : AsmLine} {q : Request} (hwf : l.wf = true) (hsum : asmNumber l = (true, q.toNat)) :
    assemble l = some (.csm q) := by
  rw [assemble, if_pos hwf, hsum]
  simp only [BitVec.ofNat_toNat, BitVec.setWidth_eq]

/-- An operand that fits its field is in the field as it is. -/
theorem toNat_ofNat_of_fits {x n : Nat} (h : x < 2 ^ n) : (BitVec.ofNat n x).toNat = x := by
  rw [BitVec.toNat_ofNat, Nat.mod_eq_of_lt h]

/-- Settles O6: line by line, the sum is the number of the instruction's word. -/
theorem assembledLineIsTheInstructionsWord : Obligations.AssembledLineIsTheInstructionsWord := by
  intro l hwf
  have hfits := hwf
  cases l <;> simp only [AsmLine.wf, Bool.and_eq_true, decide_eq_true_eq, and_assoc] at hfits
  case cfg n b =>
    obtain ⟨hn, hb⟩ := hfits
    exact assemble_cmd hwf (by rw [toNat_wordC, toNat_ofNat_of_fits hn, toNat_ofNat_of_fits hb]; rfl)
  case cfgA n => exact assemble_cmd hwf (by rw [toNat_wordC, toNat_ofNat_of_fits hfits]; rfl)
  case clr | rst | pkf | ser => exact assemble_cmd hwf (by rw [toNat_wordZ]; rfl)
  case rd sel idx =>
    obtain ⟨hsel, hidx⟩ := hfits
    exact assemble_cmd hwf (by rw [toNat_wordA, toNat_ofNat_of_fits hsel, toNat_ofNat_of_fits hidx]; rfl)
  case pushb v | pushbit v => exact assemble_cmd hwf (by rw [toNat_wordV, toNat_ofNat_of_fits hfits]; rfl)
  case bitx byte p =>
    obtain ⟨hbyte, hp⟩ := hfits
    exact assemble_cmd hwf (by rw [toNat_wordX, toNat_ofNat_of_fits hbyte, toNat_ofNat_of_fits hp]; rfl)
  case xtr val w | pkw val w =>
    obtain ⟨hval, hw⟩ := hfits
    exact assemble_cmd hwf (by rw [toNat_wordW, toNat_ofNat_of_fits hval, toNat_ofNat_of_fits hw]; rfl)
  case csmResize n => exact assemble_csm hwf (by rw [toNat_requestQ, toNat_ofNat_of_fits hfits]; rfl)
  case csmGet r c | csmLock r c | csmIslocked r c =>
    obtain ⟨hr, hc⟩ := hfits
    exact assemble_csm hwf (by rw [toNat_requestQ, toNat_ofNat_of_fits hr, toNat_ofNat_of_fits hc]; rfl)
  case csmSet r c v =>
    obtain ⟨hr, hc, hv⟩ := hfits
    exact assemble_csm hwf (by
      rw [toNat_requestQ, toNat_ofNat_of_fits hr, toNat_ofNat_of_fits hc, toNat_ofNat_of_fits hv]; rfl)
  case csmSize => exact assemble_csm hwf rfl

end Sys2Proof
end

section
/-! The feed (40_bit_extractor R164 to R167): the branches of `PUSHBIT` and `PUSHB`, what one valid bit does to the block, and a
row of `PUSHBIT` as one `PushBit` after another, which goes on as long as positions are left. -/

namespace Sys2Proof.Machine

open Sys2Proof.Safety

/-- A command that raises fails with the code of the kind (60_exceptions R405). -/
theorem failsWith_of_raise {i : Instr} {s : State} (k : ErrorKind) {info : Nat} {w : Word} (hword : encode i = .cmd w)
    (hexec : exec i s = .next (raise k info w s)) : FailsWith i s (errorCode k) info :=
  ⟨w, hword, hexec⟩

/-! ## The branches of `PUSHBIT` and `PUSHB` -/

theorem exec_pushbit_of_not_active {s : State} (v : Byte) (hphase : s.phase ≠ .active) :
    exec (.pushbit v) s = .next (raise .sequenceError (phaseCode s.phase).toNat (wordV opPushbit v) s) := by
  rw [exec, execPushbit, if_pos hphase]

theorem exec_pushbit_of_invalid {s : State} {v : Byte} (hphase : s.phase = .active) (hv : 1 < v.toNat) :
    exec (.pushbit v) s = .next (raise .invalidValue v.toNat (wordV opPushbit v) s) := by
  rw [exec, execPushbit, if_neg (not_not.2 hphase), if_pos hv]

theorem exec_pushbit_of_complete {s : State} {v : Byte} (hphase : s.phase = .active) (hv : v.toNat ≤ 1) (hrow : s.dim ≤ s.r) :
    exec (.pushbit v) s = .next (raise .rangeError s.r.toNat (wordV opPushbit v) s) := by
  rw [exec, execPushbit, if_neg (not_not.2 hphase), if_neg (Nat.not_lt.2 hv), if_pos hrow]

theorem exec_pushbit_of_room {s : State} {v : Byte} (hphase : s.phase = .active) (hv : v.toNat ≤ 1) (hrow : s.r < s.dim) :
    exec (.pushbit v) s = .next (respond 0 (pushBit (v == 1) s)) := by
  rw [exec, execPushbit, if_neg (not_not.2 hphase), if_neg (Nat.not_lt.2 hv), if_neg (BitVec.not_le.2 hrow)]

theorem exec_pushb_of_not_active {s : State} (v : Byte) (hphase : s.phase ≠ .active) :
    exec (.pushb v) s = .next (raise .sequenceError (phaseCode s.phase).toNat (wordV opPushb v) s) := by
  rw [exec, execPushb, if_pos hphase]

theorem exec_pushb_of_short {s : State} (v : Byte) (hphase : s.phase = .active) (hleft : positionsLeft s < 8) :
    exec (.pushb v) s = .next (raise .rangeError (positionsLeft s) (wordV opPushb v) s) := by
  rw [exec, execPushb, if_neg (not_not.2 hphase), if_pos hleft]

theorem exec_pushb_of_room {s : State} (v : Byte) (hphase : s.phase = .active) (hleft : 8 ≤ positionsLeft s) :
    exec (.pushb v) s = .next (respond 0 (pushBits (byteBits v) s)) := by
  rw [exec, execPushb, if_neg (not_not.2 hphase), if_neg (Nat.not_lt.2 hleft)]

/-- Settles O14: each check of `PUSHBIT` refuses once the checks before it passed. -/
theorem pushbitRefusesInOrder : Obligations.PushbitRefusesInOrder := fun _ v =>
  ⟨fun hphase => failsWith_of_raise .sequenceError rfl (exec_pushbit_of_not_active v hphase),
    fun hphase hv => failsWith_of_raise .invalidValue rfl (exec_pushbit_of_invalid hphase hv),
    fun hphase hv hrow => failsWith_of_raise .rangeError rfl (exec_pushbit_of_complete hphase hv hrow)⟩

/-- Settles O16: `PUSHB` asks for the phase, then for all eight positions. -/
theorem pushbRefusesInOrder : Obligations.PushbRefusesInOrder := fun _ v =>
  ⟨fun hphase => failsWith_of_raise .sequenceError rfl (exec_pushb_of_not_active v hphase),
    fun hphase hleft => failsWith_of_raise .rangeError rfl (exec_pushb_of_short v hphase hleft)⟩

/-! ## A valid bit as a number -/

theorem eq_zero_or_one_of_le {v : Byte} (hv : v.toNat ≤ 1) : v = 0 ∨ v = 1 := by
  simp only [← BitVec.toNat_inj, BitVec.ofNat_eq_ofNat, BitVec.toNat_ofNat]
  omega

/-- Added to a counter, a valid bit is its own value (41_cross_sum R190). -/
theorem counterBit_of_valid {v : Byte} (hv : v.toNat ≤ 1) : (BitVec.ofBool (v == 1)).setWidth 16 = v.setWidth 16 := by
  obtain rfl | rfl := eq_zero_or_one_of_le hv <;> rfl

/-- Placed in a byte, a valid bit is its value moved to its position. -/
theorem byteWithBit_of_valid {v : Byte} (hv : v.toNat ≤ 1) (p : Nat) : byteWithBit (v == 1) p = v <<< (7 - p) := by
  rw [byteWithBit]
  obtain rfl | rfl := eq_zero_or_one_of_le hv <;> rfl

/-! ## What a valid bit does to a block that is ready for it -/

theorem exec_pushbit_of_ready {s : State} {v : Byte} (hready : ReadyToPush s) (hv : v.toNat ≤ 1) :
    exec (.pushbit v) s = .next (respond 0 (pushBit (v == 1) s)) :=
  exec_pushbit_of_room hready.phase hv hready.position.1

/-- A counter of a file of `n` counters after a valid bit on index `i`. -/
theorem getD_addBit_of_valid {file : List Counter} {v : Byte} {n k : Nat} (i : Nat) (hv : v.toNat ≤ 1)
    (hlen : file.length = n) (hk : k < n) :
    (addBit file i (v == 1)).getD k 0 = file.getD k 0 + (if k = i then v.setWidth 16 else 0) := by
  rw [getD_addBit _ (hlen ▸ hk), counterBit_of_valid hv]

/-- The position after a bit: the next column, or the next row. -/
theorem pushBit_position {s : State} (bit : Bool) (hrow : s.r < s.dim) :
    (s.c.toNat + 1 = s.dim.toNat → (pushBit bit s).r.toNat = s.r.toNat + 1 ∧ (pushBit bit s).c = 0)
    ∧ (s.c.toNat + 1 < s.dim.toNat → (pushBit bit s).r = s.r ∧ (pushBit bit s).c.toNat = s.c.toNat + 1) := by
  have := s.dim.isLt
  rw [BitVec.lt_def] at hrow
  constructor
  · intro hlast
    obtain ⟨-, -, -, -, hr, hc⟩ := pushBit_endOfRow bit s hlast
    exact ⟨by rw [hr, BitVec.toNat_ofNat]; omega, hc⟩
  · intro hinside
    obtain ⟨-, -, -, -, hr, hc⟩ := pushBit_inRow bit s (by omega)
    exact ⟨hr, by rw [hc, BitVec.toNat_ofNat]; omega⟩

/-- Settles O12: the counters by `PushBit`'s four additions, the position by its advance, the rest by its frame. -/
theorem pushbitAddsTheBitToTheFourCounters : Obligations.PushbitAddsTheBitToTheFourCounters := by
  intro s v hready hv n r c
  obtain ⟨hrow, -⟩ := hready.position
  obtain ⟨hrowLen, hcolLen, hdiagLen, hantiLen⟩ := hready.counters
  obtain ⟨hlast, hinside⟩ := pushBit_position (v == 1) hrow
  have hanti : antiIdx r c n = (n - r + c - 1) % n := antiIdx_eq_source c (BitVec.lt_def.1 hrow)
  refine ⟨_, exec_pushbit_of_ready hready hv, fun k hk => ⟨?_, ?_, ?_, ?_⟩, ⟨?_, ?_, ?_, ?_⟩, hlast, hinside, ?_⟩
  · rw [respond_row, pushBit_row, getD_addBit_of_valid _ hv hrowLen hk]
  · rw [respond_col, pushBit_col, getD_addBit_of_valid _ hv hcolLen hk]
  · rw [respond_diag, pushBit_diag, getD_addBit_of_valid _ hv hdiagLen hk, diagIdx]
  · rw [respond_anti, pushBit_anti, getD_addBit_of_valid _ hv hantiLen hk, hanti]
  · rw [respond_row, pushBit_row, length_addBit, hrowLen]
  · rw [respond_col, pushBit_col, length_addBit, hcolLen]
  · rw [respond_diag, pushBit_diag, length_addBit, hdiagLen]
  · rw [respond_anti, pushBit_anti, length_addBit, hantiLen]
  · conv_lhs => rw [respond, pushBit_frame]
    rfl

/-- The cursors of the row buffer after one more bit of the row (42_row_hash R221). -/
theorem cursors_next {hbyte : Half} {hbit : BitVec 3} {c : Nat} (hc : c < 2 ^ 16) (hbyteAt : hbyte.toNat = c / 8)
    (hbitAt : hbit.toNat = c % 8) :
    (if hbit = 7 then hbyte + 1 else hbyte).toNat = (c + 1) / 8 ∧ (if hbit = 7 then 0 else hbit + 1).toNat = (c + 1) % 8 := by
  have hseven : hbit = 7 ↔ hbit.toNat = 7 := (BitVec.toNat_inj (y := 7)).symm
  split_ifs with h
  · have := hseven.1 h
    constructor
    · simp only [BitVec.toNat_add, hbyteAt, BitVec.ofNat_eq_ofNat, BitVec.toNat_ofNat]; omega
    · simp only [BitVec.ofNat_eq_ofNat, BitVec.toNat_ofNat]; omega
  · have := mt hseven.2 h
    constructor
    · rw [hbyteAt]; omega
    · simp only [BitVec.toNat_add, hbitAt, BitVec.ofNat_eq_ofNat, BitVec.toNat_ofNat]; omega

/-- Settles O13: inside a row the bit is appended; at its end the digest is of the buffer with the bit in it. -/
theorem pushbitFillsTheRowBufferAndCapturesTheDigest : Obligations.PushbitFillsTheRowBufferAndCapturesTheDigest := by
  intro s v hready hv r c buffer
  obtain ⟨hbyteAt, hbitAt⟩ := hready.cursors
  have hbuffer : (appendBit (v == 1) s).hbuf = buffer := by
    rw [appendBit_hbuf, hbyteAt, hbitAt, byteWithBit_of_valid hv]
  refine ⟨_, exec_pushbit_of_ready hready hv, fun hinside => ?_, fun hlast => ?_⟩
  · obtain ⟨hdig, hhbuf, hhbit, hhbyte, -⟩ := pushBit_inRow (v == 1) s (Nat.ne_of_lt hinside)
    obtain ⟨hbyteNext, hbitNext⟩ := cursors_next s.c.isLt hbyteAt hbitAt
    exact ⟨hhbuf.trans hbuffer, (congrArg _ hhbyte).trans hbyteNext, (congrArg _ hhbit).trans hbitNext, hdig⟩
  · obtain ⟨hdig, hhbuf, hhbit, hhbyte, -⟩ := pushBit_endOfRow (v == 1) s hlast
    rw [hready.buffer] at hhbuf
    exact ⟨by rw [respond_dig, hdig, hbuffer], hhbuf, hhbyte, hhbit⟩

/-! ## Several bits -/

/-- `PushBit` of several bits does not look at the record of responses. -/
theorem pushBits_withRsp (bits : List Bool) (s : State) (log : List Response) :
    pushBits bits { s with rsp := log } = { pushBits bits s with rsp := log } := by
  induction bits generalizing s with
  | nil => rfl
  | cons bit bits ih => rw [pushBits_cons, pushBit_withRsp, ih, pushBits_cons]

theorem pushBits_rsp (bits : List Bool) (s : State) : (pushBits bits s).rsp = s.rsp := by rw [pushBits_frame]

/-- The two counts of the spec agree (40_bit_extractor R164, 44_serializer R291). -/
theorem positionsLeft_eq_bitsMissing (s : State) : positionsLeft s = bitsMissing s := by
  rw [positionsLeft, bitsMissing, Nat.sub_mul, Nat.sub_sub]

theorem row_lt_of_positionsLeft {s : State} (h : 0 < positionsLeft s) : s.r < s.dim := by
  rw [BitVec.lt_def]
  by_contra hge
  rw [positionsLeft, Nat.sub_eq_zero_of_le (Nat.not_lt.1 hge), Nat.zero_mul, Nat.zero_sub] at h
  exact Nat.lt_irrefl 0 h

/-- A bit takes one position and leaves the column in range. -/
theorem positionsLeft_pushBit {s : State} (bit : Bool) (hrow : s.r < s.dim) (hcol : s.c < s.dim) :
    positionsLeft (pushBit bit s) + 1 = positionsLeft s ∧ (pushBit bit s).c < s.dim := by
  obtain ⟨hlast, hinside⟩ := pushBit_position bit hrow
  rw [BitVec.lt_def] at hrow hcol
  obtain ⟨m, hm⟩ : ∃ m, s.dim.toNat - s.r.toNat = m + 1 := ⟨s.dim.toNat - s.r.toNat - 1, by omega⟩
  have hleft : positionsLeft s = m * s.dim.toNat + s.dim.toNat - s.c.toNat := by
    rw [positionsLeft, hm, Nat.succ_mul]
  rw [hleft, positionsLeft, pushBit_dim, BitVec.lt_def]
  obtain heq | hlt := Nat.eq_or_lt_of_le (Nat.succ_le_of_lt hcol)
  · obtain ⟨hr, hc⟩ := hlast heq
    have hzero : (0 : Half).toNat = 0 := rfl
    rw [hr, hc, show s.dim.toNat - (s.r.toNat + 1) = m by omega, hzero]
    omega
  · obtain ⟨hr, hc⟩ := hinside hlt
    rw [hr, hc, hm, Nat.succ_mul]
    omega

/-- The `PUSHBIT` of a bit, where there is room. -/
theorem exec_pushbitOf {s : State} (bit : Bool) (hphase : s.phase = .active) (hrow : s.r < s.dim) :
    exec (pushbitOf bit) s = .next (respond 0 (pushBit bit s)) := by
  cases bit
  · exact exec_pushbit_of_room hphase (by decide) hrow
  · exact exec_pushbit_of_room hphase (by decide) hrow

theorem runInstrs_cons_of_next {i : Instr} {s t : State} (is : List Instr) (h : exec i s = .next t) :
    runInstrs (i :: is) s = runInstrs is t := by
  simp only [runInstrs, h]

/-- A `PUSHBIT` for each bit is `PushBit` of all of them, with a response each (30_encoding R130). -/
theorem runInstrs_pushbitOf {s : State} (bits : List Bool) (hphase : s.phase = .active) (hcol : s.c < s.dim)
    (hleft : bits.length ≤ positionsLeft s) :
    runInstrs (bits.map pushbitOf) s
      = .next { pushBits bits s with rsp := s.rsp ++ List.replicate bits.length { status := 0, data := 0 } } := by
  induction bits generalizing s with
  | nil => simp [runInstrs]
  | cons bit bits ih =>
    rw [List.length_cons] at hleft
    have hrow : s.r < s.dim := row_lt_of_positionsLeft (by omega)
    obtain ⟨hnext, hcolNext⟩ := positionsLeft_pushBit bit hrow hcol
    have hrest : bits.length ≤ positionsLeft (pushBit bit s) := by omega
    rw [List.map_cons, runInstrs_cons_of_next _ (exec_pushbitOf bit hphase hrow),
      ih (s := respond 0 (pushBit bit s)) (by simpa using hphase) (by simpa using hcolNext) hrest, respond, pushBits_withRsp,
      pushBits_cons, pushBit_rsp, List.append_assoc]
    rfl

/-- Settles O15: both are `PushBit` of the byte's bits, which does not look at the responses. -/
theorem pushbEqualsEightPushbits : Obligations.PushbEqualsEightPushbits := by
  intro s v hready hleft
  have hrun := runInstrs_pushbitOf (byteBits v) hready.phase hready.position.2 hleft
  refine ⟨_, hrun, ?_⟩
  rw [SucceedsWith, exec_pushb_of_room v hready.phase hleft, respond, pushBits_rsp]

/-! ## Bits pushed into a tracked block -/

/-- `t` has the dimension, the files, the row buffer, the cursors and the position of `s`. -/
def SameBlock (s t : State) : Prop :=
  t = { t with
    dim := s.dim, r := s.r, c := s.c, row := s.row, col := s.col, diag := s.diag, anti := s.anti, dig := s.dig,
    hbuf := s.hbuf, hbit := s.hbit, hbyte := s.hbyte }

/-- What a block tracks depends on those registers alone. -/
theorem tracks_of_sameBlock {s t : State} {bits : List Bool} (hsame : SameBlock s t) (h : Tracks s bits) : Tracks t bits := by
  rw [hsame]
  exact ⟨h.dim_pos, h.fits, h.r, h.c, h.row, h.col, h.diag, h.anti, h.dig, h.hbuf, h.hbyte, h.hbit⟩

theorem tracks_withRsp {s : State} {bits : List Bool} (h : Tracks s bits) (log : List Response) :
    Tracks { s with rsp := log } bits := tracks_of_sameBlock rfl h

theorem column_lt_of_tracks {s : State} {bits : List Bool} (h : Tracks s bits) : s.c < s.dim := by
  rw [BitVec.lt_def, h.c]
  exact Nat.mod_lt _ h.dim_pos

theorem positionsLeft_of_tracks {s : State} {bits : List Bool} (h : Tracks s bits) :
    positionsLeft s = s.dim.toNat * s.dim.toNat - bits.length := by
  rw [positionsLeft_eq_bitsMissing, bitsMissing_of_tracks h]

/-- Settles O17: the run is `PushBit` of the bits, and each keeps the registers what the rules make of the bits. -/
theorem pushingBitsTracksTheBlock : Obligations.PushingBitsTracksTheBlock := by
  intro s before bits hphase htracks hfits
  have hleft : bits.length ≤ positionsLeft s := by rw [positionsLeft_of_tracks htracks]; omega
  refine ⟨_, runInstrs_pushbitOf bits hphase (column_lt_of_tracks htracks) hleft, ?_, ?_, ?_⟩
  · exact tracks_withRsp (tracks_pushBits bits s before htracks hfits) _
  · rw [pushBits_frame]; exact hphase
  · rw [pushBits_frame]

/-- Settles O18: `PUSHB` is `PushBit` of the bits of its byte. -/
theorem pushbTracksTheBlock : Obligations.PushbTracksTheBlock := by
  intro s before v hphase htracks hfits
  have hleft : 8 ≤ positionsLeft s := by rw [positionsLeft_of_tracks htracks]; omega
  exact ⟨_, exec_pushb_of_room v hphase hleft,
    tracks_withRsp (tracks_pushBits (byteBits v) s before htracks hfits) _⟩

/-- All bits pushed put the position at row `S` (40_bit_extractor R167). -/
theorem row_eq_of_complete {s : State} {bits : List Bool} (htracks : Tracks s bits)
    (hfull : bits.length = s.dim.toNat * s.dim.toNat) : s.r = s.dim := by
  apply BitVec.eq_of_toNat_eq
  rw [htracks.r, hfull, Nat.mul_div_cancel _ htracks.dim_pos]

/-- Settles O19: all `S * S` bits put the position at row `S`, column 0, and the buffer is that of a row not begun. -/
theorem completeBlockTakesNoBit : Obligations.CompleteBlockTakesNoBit := by
  intro s bits v hphase htracks hfull
  have hrow : s.r = s.dim := row_eq_of_complete htracks hfull
  have hcol : s.c = 0 := by
    apply BitVec.eq_of_toNat_eq
    rw [htracks.c, hfull, Nat.mul_mod_left]
    rfl
  have hnone : positionsLeft s = 0 := by rw [positionsLeft_of_tracks htracks, hfull, Nat.sub_self]
  have hbuffer : s.hbuf = List.replicate (ceilBytes s.dim.toNat) 0 := by
    rw [htracks.hbuf, hfull, Nat.mul_div_cancel _ htracks.dim_pos, rowBytes_of_length_le _ _ _ hfull.le]
  refine ⟨hrow, hcol, ?_, ?_, fun hv => ?_⟩
  · rw [hbuffer]
    exact fun _ => List.eq_of_mem_replicate
  · have h := failsWith_of_raise .rangeError rfl (exec_pushb_of_short v hphase (by omega))
    rwa [hnone] at h
  · have h := failsWith_of_raise .rangeError rfl (exec_pushbit_of_complete hphase hv (BitVec.le_of_eq hrow.symm))
    rwa [hrow] at h

end Sys2Proof.Machine
end

section
/-! The commands that emit (43_bit_packer R258 to R260, 44_serializer R291 to R296). Each is `finish` of an emission whose bytes
are known, so what it does is what the sink does with those bytes: all accepted, one failed, or silence at one. -/

namespace Sys2Proof.Machine

open Sys2Proof.Safety

/-! ## The end of an emitting command -/

section
variable {e : Emission} {s : State} {vs : List Byte} {b : Byte} {p : BitVec 3} {c : Word}

theorem finish_of_accepts (h : Emits e 0 s vs b p c) (ha : Accepts s.sink vs.length) (w : Word)
    (done : Nat → State → State) :
    finish w e done = .next (done vs.length (withPacker b p c (withOutput vs s))) := by
  rw [h.accepted ha, finish, Nat.zero_add]

/-- A command that ends in `finish` fails where the sink fails, with the bytes before that. -/
theorem failsOutput_of_finish {i : Instr} {w : Word} {done : Nat → State → State} {j : Nat} (h : Emits e 0 s vs b p c)
    (hword : encode i = .cmd w) (hexec : exec i s = finish w e done) (hj : j < vs.length) (hf : FailsAt s.sink j) :
    FailsOutput i s (vs.take j) := by
  have hlen : (vs.take j).length = j := List.length_take_of_le hj.le
  obtain ⟨b, p, c, he⟩ := h.failed j hj hf
  refine ⟨w, hword, ?_⟩
  rw [hexec, he, finish, Nat.zero_add, hlen]
  rfl

theorem fault_of_finish {i : Instr} {w : Word} {done : Nat → State → State} {j : Nat} (h : Emits e 0 s vs b p c)
    (hexec : exec i s = finish w e done) (hj : j < vs.length) (hs : SilentAt s.sink j) :
    exec i s = .fault .sinkSilent := by
  rw [hexec, h.silent j hj hs, finish]

end

/-! ## `XTR` (43_bit_packer R258) -/

/-- Settles O26: the stack holds the low bits in reversed order, and `XTR` answers the stack. -/
theorem xtrAnswersTheReversedLowBits : Obligations.XtrAnswersTheReversedLowBits := by
  intro val w s
  refine ⟨(extract val w).1.setWidth 32, rfl, fun j => ?_⟩
  rw [BitVec.getLsbD_setWidth, extract, getLsbD_extractBits _ _ _ (clampWidth_le w), clampWidth_eq, ← Bool.and_assoc,
    ← Bool.decide_and]
  congr 1
  exact decide_eq_decide.2 ⟨fun h => h.2, fun h => ⟨by omega, h⟩⟩

/-! ## `PKW` and `PKF` (43_bit_packer R259, R260) -/

/-- Settles O29: the phase is the one check of both. -/
theorem packerCommandsAreRefusedInAbort : Obligations.PackerCommandsAreRefusedInAbort := by
  intro s val w habort
  have hinfo : (phaseCode s.phase).toNat = 2 := by rw [habort]; rfl
  rw [← hinfo]
  constructor
  · exact failsWith_of_raise .sequenceError rfl (by rw [exec, execPkw, if_pos habort])
  · exact failsWith_of_raise .sequenceError rfl (by rw [exec, execPkf]; exact if_pos habort)

theorem exec_pkw_of_open {s : State} (val : Half) (w : BitVec 5) (hphase : s.phase ≠ .abort) :
    exec (.pkw val w) s = finish (wordW opPkw w val) (packValue val w 0 s) fun k t => respond (BitVec.ofNat 32 k) t := by
  rw [exec, execPkw, if_neg hphase]

theorem exec_pkf_of_open {s : State} (hphase : s.phase ≠ .abort) :
    exec .pkf s = finish (wordZ opPkf) (packFlush 0 s) fun _ t =>
      respond (BitVec.ofNat 32 (s.pkcnt.toNat + if s.pkbit = 0 then 0 else 1)) t := by
  rw [exec, execPkf]
  exact if_neg hphase

/-- Settles O27: the waiting bits are what the packer holds, and the value's bits join them. -/
theorem pkwAppendsTheValueToTheStream : Obligations.PkwAppendsTheValueToTheStream := by
  intro s val w hphase hclean stream m haccepts
  have hpacks : PacksBits (packValue val w 0 s) 0 s stream := packsBits_packValue val w 0 (packerHolds_pending hclean)
  have hlen : ((List.range m).map (byteOfBits stream)).length = m := by simp
  rw [SucceedsWith, exec_pkw_of_open val w hphase, finish_of_accepts hpacks (by rwa [hlen]), hlen]
  rfl

/-- Settles O28: an idle packer emits nothing, a partly filled byte is emitted alone. -/
theorem pkfClosesTheStream : Obligations.PkfClosesTheStream := by
  intro s hphase
  constructor
  · intro hidle
    rw [SucceedsWith, exec_pkf_of_open hphase, finish_of_accepts (emits_packFlush_idle 0 s hidle) (accepts_zero _), if_pos hidle,
      Nat.add_zero, BitVec.ofNat_toNat, BitVec.setWidth_eq, withOutput_nil]
    rfl
  · intro hpending haccepts
    have hcount : BitVec.ofNat 32 (s.pkcnt.toNat + 1) = s.pkcnt + 1 := by
      rw [BitVec.ofNat_add, BitVec.ofNat_toNat, BitVec.setWidth_eq]
      rfl
    rw [SucceedsWith, exec_pkf_of_open hphase, finish_of_accepts (emits_packFlush_pending 0 s hpending) haccepts,
      if_neg hpending, hcount]
    rfl

/-- Settles O30: the bytes that the two commands offer are those of O27 and O28. -/
theorem failedByteAbortsThePacker : Obligations.FailedByteAbortsThePacker := by
  intro s val w hphase
  constructor
  · intro hclean stream k hk hfails
    have hpacks : PacksBits (packValue val w 0 s) 0 s stream := packsBits_packValue val w 0 (packerHolds_pending hclean)
    have hout := failsOutput_of_finish hpacks rfl (exec_pkw_of_open val w hphase) (by simpa using hk) hfails
    rwa [← List.map_take, List.take_range, min_eq_left hk.le] at hout
  · intro hpending hfails
    exact failsOutput_of_finish (emits_packFlush_pending 0 s hpending) rfl (exec_pkf_of_open hphase) Nat.one_pos hfails

/-- How many bytes placing bits fills, whatever the packer's byte holds. -/
theorem emits_popBits_length (n : Nat) (stk : Half) (k : Nat) (s : State) :
    ∃ vs b p c, vs.length = (s.pkbit.toNat + n) / 8 ∧ Emits (popBits n stk k s) k s vs b p c := by
  induction n generalizing stk k s with
  | zero => exact ⟨[], _, _, _, by have := s.pkbit.isLt; simp; omega, emits_ok k s s.pkbyte s.pkbit s.pkcnt⟩
  | succ n ih =>
    by_cases h7 : s.pkbit = 7
    · obtain ⟨ws, b, p, c, hlen, hrest⟩ := ih (stk >>> 1) _ (withPacker 0 0 (s.pkcnt + 1)
        (withOutput [placed (stk.getLsbD 0) s.pkbyte s.pkbit] s))
      have hfull : s.pkbit.toNat = 7 := congrArg BitVec.toNat h7
      refine ⟨_, b, p, c, ?_, emits_andThen (emits_placeBit_full (stk.getLsbD 0) k s h7) hrest⟩
      rw [List.length_append, hlen, hfull]
      simp only [withPacker, List.length_singleton, BitVec.ofNat_eq_ofNat, BitVec.toNat_ofNat]
      omega
    · obtain ⟨ws, b, p, c, hlen, hrest⟩ := ih (stk >>> 1) _ (withPacker (placed (stk.getLsbD 0) s.pkbyte s.pkbit)
        (s.pkbit + 1) s.pkcnt (withOutput [] s))
      have hpart : s.pkbit.toNat ≠ 7 := fun h => h7 (BitVec.eq_of_toNat_eq h)
      have := s.pkbit.isLt
      refine ⟨_, b, p, c, ?_, emits_andThen (emits_placeBit_part (stk.getLsbD 0) k s h7) hrest⟩
      rw [List.length_append, hlen]
      simp only [withPacker, List.length_nil, BitVec.toNat_add, BitVec.ofNat_eq_ofNat, BitVec.toNat_ofNat]
      omega

theorem emits_packValue_length (val : Half) (w : BitVec 5) (k : Nat) (s : State) :
    ∃ vs b p c, vs.length = (s.pkbit.toNat + min w.toNat 16) / 8 ∧ Emits (packValue val w k s) k s vs b p c :=
  emits_popBits_length _ _ k s

/-! ## A fresh block -/

theorem sumFile_nil (idx : Nat → Nat → Nat → Nat) (n : Nat) : sumFile idx n [] = List.replicate n 0 := by
  rw [List.eq_replicate_iff]
  refine ⟨by simp [sumFile], fun x hx => ?_⟩
  obtain ⟨k, -, rfl⟩ := List.mem_map.1 hx
  rfl

theorem digestFile_zero (n : Nat) (bits : List Bool) : digestFile n bits 0 = List.replicate n Config.zeroDigest := by
  rw [List.eq_replicate_iff]
  refine ⟨by simp [digestFile], fun x hx => ?_⟩
  obtain ⟨k, -, rfl⟩ := List.mem_map.1 hx
  exact if_neg (Nat.not_lt_zero k)

/-- Settles O40: counters, digests and buffer are those of no bits, and the position is that of the first. -/
theorem freshBlockTracksNoBits : Obligations.FreshBlockTracksNoBits := by
  intro s hdim
  have hpos : 1 ≤ s.dim.toNat := Nat.one_le_iff_ne_zero.2 fun h => hdim (BitVec.eq_of_toNat_eq h)
  have hrow : ([] : List Bool).length / s.dim.toNat = 0 := Nat.zero_div _
  have hcol : ([] : List Bool).length % s.dim.toNat = 0 := Nat.zero_mod _
  exact {
    dim_pos := hpos
    fits := Nat.zero_le _
    r := hrow.symm
    c := hcol.symm
    row := (sumFile_nil _ _).symm
    col := (sumFile_nil _ _).symm
    diag := (sumFile_nil _ _).symm
    anti := (sumFile_nil _ _).symm
    dig := by rw [fresh_dim, hrow, digestFile_zero, fresh_dig]
    hbuf := by rw [fresh_dim, rowBytes_of_length_le _ _ _ (Nat.zero_le _), fresh_hbuf]
    hbyte := by rw [fresh_dim, hcol]; rfl
    hbit := by rw [fresh_dim, hcol]; rfl }

/-! ## `SER` (44_serializer R291 to R296) -/

/-- From an idle packer one packed file after another is offered, and the packer is idle again (44_serializer R293). -/
theorem emits_packFiles_idle {s : State} (hbit : s.pkbit = 0) (hbyte : s.pkbyte = 0) (w : BitVec 5) (file : List Counter)
    (files : List (List Counter)) (k : Nat) :
    Emits (packFiles w (file :: files) k s) k s ((file :: files).flatMap fun f => packMatrix f w.toNat) 0 0 0 := by
  have hfirst := emits_packFile_idle hbit hbyte w file k
  induction files generalizing s file k with
  | nil =>
    rw [List.flatMap_singleton, ← List.append_nil (packMatrix file w.toNat)]
    exact emits_andThen hfirst (emits_ok _ (withPacker 0 0 0 (withOutput (packMatrix file w.toNat) s)) 0 0 0)
  | cons next files ih =>
    rw [List.flatMap_cons]
    exact emits_andThen hfirst (ih rfl rfl next _ (emits_packFile_idle rfl rfl w next _))

/-- From an idle packer `SER` offers the block's output (44_serializer R296) and leaves the packer idle. -/
theorem emits_serEmit_idle {s : State} (hbit : s.pkbit = 0) (hbyte : s.pkbyte = 0) :
    Emits (serEmit s) 0 s (blockOutput s) 0 0 0 := by
  have houtput : blockOutput s = s.dig.flatMap Vector.toList
      ++ [s.row, s.col, s.diag, s.anti].flatMap fun f => packMatrix f s.width.toNat := by
    simp [blockOutput]
  rw [houtput]
  have hfiles := emits_packFiles_idle
    (s := withPacker s.pkbyte s.pkbit s.pkcnt (withOutput (s.dig.flatMap Vector.toList) s)) hbit hbyte
  exact emits_andThen (emits_emitBytes _ 0 s) (hfiles _ _ _ _)

theorem exec_ser_of_ready {s : State} (hphase : s.phase = .active) (hwidth : s.width.toNat ≤ 16) (hrow : s.r = s.dim)
    (hidle : s.pkbit = 0) :
    exec .ser s = finish (wordZ opSer) (serEmit s) fun k t => respond (BitVec.ofNat 32 k) (fresh t) := by
  rw [exec, execSer, if_neg (not_not.2 hphase), if_neg (Nat.not_lt.2 hwidth), if_neg (not_not.2 hrow), if_neg (not_not.2 hidle)]

theorem exec_ser_of_readyToSerialize {s : State} (h : ReadyToSerialize s) :
    exec .ser s = finish (wordZ opSer) (serEmit s) fun k t => respond (BitVec.ofNat 32 k) (fresh t) :=
  exec_ser_of_ready h.phase h.width h.complete h.idle.1

theorem emits_serEmit_of_ready {s : State} (h : ReadyToSerialize s) : Emits (serEmit s) 0 s (blockOutput s) 0 0 0 :=
  emits_serEmit_idle h.idle.1 h.idle.2

theorem length_flatMap_toList (digests : List Config.Digest) :
    (digests.flatMap Vector.toList).length = 32 * digests.length := by
  simp [List.length_flatMap, Nat.mul_comm]

/-- The size of a block's output (44_serializer R292). -/
theorem length_blockOutput {s : State} (h : ReadyToSerialize s) :
    (blockOutput s).length = 32 * s.dim.toNat + 4 * ((s.dim.toNat * s.width.toNat + 7) / 8) := by
  obtain ⟨hrow, hcol, hdiag, hanti⟩ := h.counters
  simp only [blockOutput, List.length_append, length_flatMap_toList, length_packMatrix, h.digests, hrow, hcol, hdiag, hanti,
    min_eq_left h.width]
  omega

/-- `SER` with every byte accepted. -/
theorem exec_ser_of_accepts {s : State} (h : ReadyToSerialize s) (ha : Accepts s.sink (blockOutput s).length) :
    exec .ser s = .next (respond (BitVec.ofNat 32 (blockOutput s).length)
      (fresh { withOutput (blockOutput s) s with pkcnt := 0 })) := by
  rw [exec_ser_of_readyToSerialize h, finish_of_accepts (emits_serEmit_of_ready h) ha,
    withPacker_idle (s := withOutput (blockOutput s) s) h.idle.1 h.idle.2]

/-- Settles O32: the bytes are offered as R296 gives them, and completion is `Fresh`. -/
theorem serEmitsTheBlock : Obligations.SerEmitsTheBlock := by
  intro s hready haccepts
  refine ⟨length_blockOutput hready, ?_⟩
  rw [SucceedsWith, exec_ser_of_accepts hready haccepts, ← length_blockOutput hready]
  rfl

/-- Settles O35: `SER` stops at the failed byte of its output. -/
theorem failedByteAbortsSer : Obligations.FailedByteAbortsSer := fun _ _ hready hk hfails =>
  failsOutput_of_finish (emits_serEmit_of_ready hready) rfl (exec_ser_of_readyToSerialize hready) hk hfails

/-- Settles O36: each of the three offers more bytes than the sink answers. -/
theorem silentSinkStopsTheEmittingCommands : Obligations.SilentSinkStopsTheEmittingCommands := by
  refine ⟨fun s k hready hk hsilent => ?_, fun s val w k hphase hk hsilent => ?_, fun s hphase hpending hsilent => ?_⟩
  · exact fault_of_finish (emits_serEmit_of_ready hready) (exec_ser_of_readyToSerialize hready) hk hsilent
  · obtain ⟨vs, b, p, c, hlen, hemits⟩ := emits_packValue_length val w 0 s
    exact fault_of_finish hemits (exec_pkw_of_open val w hphase) (hlen ▸ hk) hsilent
  · exact fault_of_finish (emits_packFlush_pending 0 s hpending) (exec_pkf_of_open hphase) Nat.one_pos hsilent

/-! ## `SER` of the bits pushed -/

@[simp] theorem length_sumFile (idx : Nat → Nat → Nat → Nat) (n : Nat) (bits : List Bool) :
    (sumFile idx n bits).length = n := by simp [sumFile]

@[simp] theorem length_digestFile (n : Nat) (bits : List Bool) (done : Nat) : (digestFile n bits done).length = n := by
  simp [digestFile]

/-- With every row captured the store is the digests of the rows. -/
theorem digestFile_complete (n : Nat) (bits : List Bool) :
    digestFile n bits n = (List.range n).map fun r => Config.H (rowBytes n bits r) :=
  List.map_congr_left fun _ hr => if_pos (List.mem_range.1 hr)

section
variable {s : State} {bits : List Bool}

theorem readyToSerialize_of_tracks (htracks : Tracks s bits) (hfull : bits.length = s.dim.toNat * s.dim.toNat)
    (hphase : s.phase = .active) (hwidth : s.width.toNat ≤ 16) (hbit : s.pkbit = 0) (hbyte : s.pkbyte = 0) :
    ReadyToSerialize s where
  phase := hphase
  width := hwidth
  complete := row_eq_of_complete htracks hfull
  idle := ⟨hbit, hbyte⟩
  counters := by
    rw [htracks.row, htracks.col, htracks.diag, htracks.anti]
    simp only [length_sumFile, and_self]
  digests := by rw [htracks.dig, length_digestFile]

/-- The output of a complete block is the encoding of its bits (20_memory R92). -/
theorem blockOutput_eq_blockEncoding (htracks : Tracks s bits) (hfull : bits.length = s.dim.toNat * s.dim.toNat) :
    blockOutput s = blockEncoding s.dim.toNat s.width.toNat bits := by
  rw [blockOutput, blockEncoding, htracks.row, htracks.col, htracks.diag, htracks.anti, htracks.dig, hfull,
    Nat.mul_div_cancel _ htracks.dim_pos, digestFile_complete, List.flatMap_map]

end

/-- Settles O33: the block's output is the encoding of its bits, and completion leaves a fresh block. -/
theorem serEncodesThePushedBits : Obligations.SerEncodesThePushedBits := by
  intro s bits hphase htracks hfull hwidth hbit hbyte haccepts
  have hready := readyToSerialize_of_tracks htracks hfull hphase hwidth hbit hbyte
  have hdim : s.dim ≠ 0 := fun h => by
    have := htracks.dim_pos
    rw [h] at this
    exact absurd this (by decide)
  rw [← blockOutput_eq_blockEncoding htracks hfull] at haccepts ⊢
  refine ⟨_, exec_ser_of_accepts hready haccepts, rfl, ?_⟩
  exact tracks_withRsp (freshBlockTracksNoBits { withOutput (blockOutput s) s with pkcnt := 0 } hdim) _

end Sys2Proof.Machine
end

section
/-! Transactions and the system commands (60_exceptions R404 and R421, 45_control R320 to R330): what is taken from the queue, and
the branches of `CFG`, `CFG.A`, `CLR`, `RST` and `RD`. -/

namespace Sys2Proof.Machine

open Sys2Proof.Safety

/-! ## Transactions -/

theorem isCommand_iff (i : Instr) : isCommand i = true ↔ ∃ w, encode i = .cmd w := by
  unfold isCommand
  split
  · rename_i w hword; exact ⟨fun _ => ⟨w, hword⟩, fun _ => rfl⟩
  · rename_i q hword; exact ⟨fun h => absurd h Bool.false_ne_true, fun ⟨w, h⟩ => by rw [hword] at h; exact nomatch h⟩

/-- What port `csm` delivers is never a command. -/
theorem not_isCommand_of_decodeCsm {q : Request} {i : Instr} (h : decode (.csm q) = .ok i) : ¬ isCommand i = true := by
  rw [isCommand_iff]
  rintro ⟨w, hw⟩
  exact nomatch (decode_eq_ok_iff.1 h).symm.trans hw

/-- Settles O7: on port `cmd` always, on port `csm` where the port exists. -/
theorem stepRunsTheDecodedInstruction : Obligations.StepRunsTheDecodedInstruction := by
  intro s p rest i hinputs hdecode hport
  cases p with
  | cmd w => exact step_of_decoded_command hinputs hdecode
  | csm q => exact step_of_decoded_request (hport.resolve_left (not_isCommand_of_decodeCsm hdecode)) hinputs hdecode

/-- Settles O9: nothing is taken from an empty queue, and a hardware reset is `resetBlock`. -/
theorem waitingHoldsAndHardwareResetResets : Obligations.WaitingHoldsAndHardwareResetResets := fun _ =>
  ⟨step_of_nothing_delivered, fun _ hinputs => (step_of_hardware_reset hinputs).trans (congrArg _ (resetBlock_eq _))⟩

/-- Settles O10: the reset state spelled out is the list of values, and R6 gives the parameters. -/
theorem resetHoldsTheListedValues : Obligations.ResetHoldsTheListedValues :=
  ⟨resetBlock_eq State.reset, rfl⟩

/-! ## The branches of `RD` -/

theorem exec_rd_of_reservedWindow {sel : BitVec 4} (idx : BitVec 20) (s : State) (hwin : windowOf sel = none) :
    exec (.rd sel idx) s = .next (raise .illegalCommand 0 (wordA opRd sel idx) s) := by
  simp only [exec, execRd, hwin]

theorem exec_rd_of_reservedCsr {sel : BitVec 4} {idx : BitVec 20} (s : State) (hwin : windowOf sel = some .csr)
    (hreg : csrOf idx.toNat = none) :
    exec (.rd sel idx) s = .next (raise .illegalCommand 0 (wordA opRd sel idx) s) := by
  simp only [exec, execRd, hwin, hreg]

theorem exec_rd_of_csr {sel : BitVec 4} {idx : BitVec 20} {reg : Csr} (s : State) (hwin : windowOf sel = some .csr)
    (hreg : csrOf idx.toNat = some reg) : exec (.rd sel idx) s = .next (respond (csrRead s reg) s) := by
  simp only [exec, execRd, hwin, hreg]

/-- Windows 1 to 6: the configuration first, then the index (45_control R330). -/
theorem exec_rd_of_window {sel : BitVec 4} {win : Window} (idx : BitVec 20) (s : State) (hwin : windowOf sel = some win)
    (hne : win ≠ .csr) :
    exec (.rd sel idx) s
      = if s.cfgd = false then .next (raise .sequenceError (phaseCode s.phase).toNat (wordA opRd sel idx) s)
        else if windowLimit s win ≤ idx.toNat then .next (raise .rangeError idx.toNat (wordA opRd sel idx) s)
        else .next (respond (windowRead s idx.toNat win) s) := by
  cases win with
  | csr => exact absurd rfl hne
  | row | col | diag | anti | dig | hbuf => simp only [exec, execRd, hwin]

/-- Windows 7 to 15 are reserved (45_control R330). -/
theorem windowOf_eq_none : ∀ sel : BitVec 4, 7 ≤ sel.toNat → windowOf sel = none := by decide

theorem csrOf_eq_none {idx : Nat} (h : 0x0C ≤ idx) : csrOf idx = none := List.getElem?_eq_none h

theorem csrOf_csrNumber (reg : Csr) : csrOf (csrNumber reg) = some reg := by cases reg <;> rfl

/-- Settles O8: the three places where nothing is named by a word, a window or a register number. -/
theorem illegalCommandIsRaised : Obligations.IllegalCommandIsRaised := by
  refine ⟨fun s w rest e hinputs hdecode => ?_, fun s sel idx hreserved => ?_, fun s q rest e hinputs hdecode hport => ?_⟩
  · rw [step_of_undecodable_command hinputs hdecode, raise_eq_afterError, errorCode]
  · obtain hwin | ⟨rfl, hreg⟩ := hreserved
    · exact failsWith_of_raise .illegalCommand rfl (exec_rd_of_reservedWindow idx s (windowOf_eq_none sel hwin))
    · exact failsWith_of_raise .illegalCommand rfl (exec_rd_of_reservedCsr s rfl (csrOf_eq_none hreg))
  · rw [step_of_undecodable_request hport hinputs hdecode]
    rfl

/-! ## What `RD` answers -/

/-- Each register is its bit ranges (10_state R43). -/
theorem toNat_csrRead (s : State) (reg : Csr) : (csrRead s reg).toNat = csrValue s reg := by
  cases reg with
  | config =>
    simp only [csrRead, csrValue, toNat_append_sum, BitVec.toNat_ofBool, BitVec.toNat_ofNat]
    omega
  | status =>
    have hfull : (flagFull s).toNat * 4 = if s.cfgd = true ∧ s.r = s.dim then 4 else 0 := by
      cases hcfgd : s.cfgd <;> by_cases hrow : s.r = s.dim <;> simp [flagFull, hcfgd, hrow]
    have hpend : (flagPkpend s).toNat * 8 = if s.pkbit = 0 then 0 else 8 := by
      by_cases hbit : s.pkbit = 0#3 <;> simp [flagPkpend, hbit]
    simp only [csrRead, csrValue, toNat_append_sum, BitVec.toNat_ofBool, BitVec.toNat_ofNat, ← hfull, ← hpend]
    cases s.phase <;> simp only [phaseCode, BitVec.ofNat_eq_ofNat, BitVec.toNat_ofNat] <;> omega
  | pos => rw [csrRead, csrValue, toNat_append_sum]
  | hcur =>
    simp only [csrRead, csrValue, toNat_append_sum, BitVec.toNat_ofNat]
    omega
  | pkst =>
    simp only [csrRead, csrValue, toNat_append_sum, BitVec.toNat_ofNat]
    omega
  | esticky =>
    have := s.esticky.isLt
    simp only [csrRead, csrValue, toNat_append_sum, toNat_field, BitVec.toNat_ofNat]
    omega
  | ecode =>
    simp only [csrRead, csrValue, toNat_append_sum, BitVec.toNat_ofNat]
    omega
  | limits =>
    simp only [csrRead, csrValue, toNat_append_sum, BitVec.toNat_ofNat]
    omega
  | pkcnt | outcnt | einfo | ecmd => rfl

/-- Settles O43: the register of the index is read, and nothing is asked of the phase. -/
theorem rdAnswersTheRegisters : Obligations.RdAnswersTheRegisters := fun s reg _ hidx =>
  ⟨csrRead s reg, exec_rd_of_csr s rfl (hidx ▸ csrOf_csrNumber reg), toNat_csrRead s reg⟩

/-- A counter is answered as it is. -/
theorem toNat_counter_word (x : Counter) : (x.setWidth 32).toNat = x.toNat :=
  BitVec.toNat_setWidth_of_le (by decide)

/-- What the numbers of 45_control R330 say is the window that the model selects, with its limit and its data. -/
theorem exists_window_of_windowValue {s : State} {sel : BitVec 4} {idx limit value : Nat}
    (h : windowValue s sel idx = some (limit, value)) :
    ∃ win, windowOf sel = some win ∧ win ≠ .csr ∧ windowLimit s win = limit ∧ (windowRead s idx win).toNat = value := by
  have hsel (n : Nat) (hn : sel.toNat = n) : sel = BitVec.ofNat 4 n := by rw [← hn, BitVec.ofNat_toNat, BitVec.setWidth_eq]
  unfold windowValue at h
  split at h
  · rename_i hn
    obtain ⟨rfl, rfl⟩ := Prod.mk.inj (Option.some.inj h)
    exact ⟨.row, hsel _ hn ▸ rfl, by decide, rfl, toNat_counter_word _⟩
  · rename_i hn
    obtain ⟨rfl, rfl⟩ := Prod.mk.inj (Option.some.inj h)
    exact ⟨.col, hsel _ hn ▸ rfl, by decide, rfl, toNat_counter_word _⟩
  · rename_i hn
    obtain ⟨rfl, rfl⟩ := Prod.mk.inj (Option.some.inj h)
    exact ⟨.diag, hsel _ hn ▸ rfl, by decide, rfl, toNat_counter_word _⟩
  · rename_i hn
    obtain ⟨rfl, rfl⟩ := Prod.mk.inj (Option.some.inj h)
    exact ⟨.anti, hsel _ hn ▸ rfl, by decide, rfl, toNat_counter_word _⟩
  · rename_i hn
    obtain ⟨rfl, rfl⟩ := Prod.mk.inj (Option.some.inj h)
    exact ⟨.dig, hsel _ hn ▸ rfl, by decide, rfl, toNat_packBytes_four _ _ _ _⟩
  · rename_i hn
    obtain ⟨rfl, rfl⟩ := Prod.mk.inj (Option.some.inj h)
    exact ⟨.hbuf, hsel _ hn ▸ rfl, by decide, rfl, toNat_packBytes_one _⟩
  · exact nomatch h

/-- Settles O44: past the two checks `RD` answers the window's data. -/
theorem rdAnswersTheWindows : Obligations.RdAnswersTheWindows := by
  intro s sel idx limit value hcfgd hvalue hidx
  obtain ⟨win, hwin, hne, rfl, rfl⟩ := exists_window_of_windowValue hvalue
  refine ⟨windowRead s idx.toNat win, ?_, rfl⟩
  rw [SucceedsWith, exec_rd_of_window idx s hwin hne, if_neg (by simp [hcfgd]), if_neg (Nat.not_le.2 hidx)]
  rfl

/-- Settles O45: the two checks of a window in their order. -/
theorem rdRefusesInOrder : Obligations.RdRefusesInOrder := by
  intro s sel idx limit value hvalue
  obtain ⟨win, hwin, hne, rfl, -⟩ := exists_window_of_windowValue hvalue
  have hexec := exec_rd_of_window idx s hwin hne
  refine ⟨fun hcfgd => ?_, fun hcfgd hidx => ?_⟩
  · rw [if_pos hcfgd] at hexec
    exact failsWith_of_raise .sequenceError rfl hexec
  · rw [if_neg (by simp [hcfgd]), if_pos hidx] at hexec
    exact failsWith_of_raise .rangeError rfl hexec

/-! ## `CFG`, `CFG.A`, `CLR`, `RST` -/

theorem exec_cfg (n : Half) (b : BitVec 5) (s : State) :
    exec (.cfg n b) s = .next (configureChecked n b false (wordC 0 b n) s) := rfl

theorem configureChecked_of_illegal {n : Half} {s : State} (h : n = 0 ∨ s.params.sMax < n) (b : BitVec 5) (auto : Bool)
    (w : Word) : configureChecked n b auto w s = raise .constructionError n.toNat w s := by
  obtain ⟨rfl, heq⟩ | ⟨-, -, heq⟩ | ⟨hzero, hmax, -⟩ := configureChecked_cases n b auto w s
  · exact heq
  · exact heq
  · exact absurd h (not_or.2 ⟨hzero, BitVec.not_lt.2 hmax⟩)

/-- Settles O37: both pass the checks; the response is the width, which five bits hold. -/
theorem cfgBuildsAFreshBlock : Obligations.CfgBuildsAFreshBlock := by
  intro s n b hzero hmax
  have hwidth : (BitVec.ofNat 5 (clog2 (n.toNat + 1))).setWidth 32 = BitVec.ofNat 32 (clog2 (n.toNat + 1)) := by
    apply BitVec.eq_of_toNat_eq
    rw [BitVec.toNat_setWidth, toNat_ofNat_clog2_succ, BitVec.toNat_ofNat]
  constructor
  · rw [SucceedsWith, exec_cfg, configureChecked_of_legal hzero hmax]
    rfl
  · rw [SucceedsWith, exec_cfgA, execCfgA, configureChecked_of_legal hzero hmax, hwidth]
    rfl

/-- Settles O38: the two commands share the check. -/
theorem cfgRefusesAnIllegalDimension : Obligations.CfgRefusesAnIllegalDimension := fun _ _ _ h =>
  ⟨failsWith_of_raise .constructionError rfl (congrArg _ (configureChecked_of_illegal h _ _ _)),
    failsWith_of_raise .constructionError rfl (congrArg _ (configureChecked_of_illegal h _ _ _))⟩

theorem exec_clr_of_configured {s : State} (h : s.cfgd = true) :
    exec .clr s = .next (respond 0 { fresh s with phase := .active }) := by
  rw [exec, execClr, if_pos h]

theorem exec_clr_of_unconfigured {s : State} (h : s.cfgd = false) :
    exec .clr s = .next (respond 0 { s with phase := .uncfg }) := by
  rw [exec, execClr, if_neg (by simp [h])]

/-- Settles O41: with a configuration `CLR` is `Fresh`, without one there is nothing to clear. -/
theorem clrStartsANewBlock : Obligations.ClrStartsANewBlock := fun _ =>
  ⟨exec_clr_of_configured, exec_clr_of_unconfigured⟩

theorem exec_rst (s : State) : exec .rst s = .next (respond 0 (resetBlock s)) := rfl

/-- Settles O42: `RST` is `resetBlock` and a response. -/
theorem rstResetsEveryElement : Obligations.RstResetsEveryElement := fun s => by
  rw [SucceedsWith, exec_rst, resetBlock_eq]
  rfl

end Sys2Proof.Machine
end

section
/-! The requests of the CSM (46_csm_option R362 to R367) inside the grid, and without the port. -/

namespace Sys2Proof.Machine

open Sys2Proof.Safety

theorem withCell_of_inside {s : State} {r c : Half} (body : State → State) (hr : r < s.csz) (hc : c < s.csz) :
    withCell r c body s = body s := by
  rw [withCell, if_neg (BitVec.not_le.2 hr), if_neg (BitVec.not_le.2 hc)]

/-- A request that writes `t` and responds is answered. -/
theorem answers_of_body {i : Instr} {s t : State} {body : State → State} {status : BitVec 4} {data : Word}
    (hport : s.params.hasCsm = true) (hexec : exec i s = onCsmPort s body) (hbody : body s = csmRespond status data t)
    (hlog : t.csmRsp = s.csmRsp) : Answers i s status data t := by
  rw [Answers, hexec, onCsmPort_eq_next_iff.2 ⟨hport, rfl⟩, hbody, csmRespond, hlog]

/-! ## `CSM.RESIZE` and `CSM.SIZE` -/

/-- `CSM.RESIZE` behind the port, with the error's code written out. -/
theorem exec_csmResize (n : Half) (s : State) :
    exec (.csmResize n) s = onCsmPort s fun s =>
      if n = 0 then csmRespond 3 0 s
      else if s.params.sMax < n then csmRespond 3 (n.setWidth 32) s
      else csmRespond 0 (n.setWidth 32) { s with csz := n, cval := [], clk := [] } := by
  rw [exec, execCsmResize, errorCode]

/-- Settles O46: the checks of the size in their order, then an empty grid. -/
theorem csmResizeClearsTheGrid : Obligations.CsmResizeClearsTheGrid := by
  intro s n hport
  have hexec := exec_csmResize n s
  rw [BitVec.ofNat_toNat]
  refine ⟨fun hzero => ?_, fun hlarge => ?_, fun hzero hmax => ⟨?_, fun _ _ => rfl⟩⟩
  · exact answers_of_csmRespond hport hexec (if_pos hzero)
  · have hzero : n ≠ 0 := fun h => BitVec.not_lt_zero (h ▸ hlarge)
    exact answers_of_csmRespond hport hexec ((if_neg hzero).trans (if_pos hlarge))
  · exact answers_of_body hport hexec ((if_neg hzero).trans (if_neg (BitVec.not_lt.2 hmax))) rfl

/-! ## The requests that name a cell -/

/-- A cell's bit as data. -/
theorem setWidth_cellRead (cells : List Nat) (k : Nat) :
    (BitVec.ofBool (cellRead cells k)).setWidth 32 = if k ∈ cells then (1 : Word) else 0 := by
  rw [setWidth_ofBool, cellRead]
  simp only [List.contains_iff_mem]

/-- Settles O47: the three reads respond and write nothing. -/
theorem csmReadsAnswerTheCell : Obligations.CsmReadsAnswerTheCell := by
  intro s r c hport
  rw [BitVec.ofNat_toNat]
  refine ⟨fun hr hc => ⟨?_, ?_⟩, answers_of_csmRespond hport rfl rfl⟩
  · rw [← setWidth_cellRead]
    exact answers_of_csmRespond hport rfl (withCell_of_inside _ hr hc)
  · rw [← setWidth_cellRead]
    exact answers_of_csmRespond hport rfl (withCell_of_inside _ hr hc)

/-- Writing one cell leaves the others (46_csm_option R364, R365). -/
theorem cellRead_cellWrite_other {r c r' c' : Half} (cells : List Nat) (b : Bool) (hne : (r', c') ≠ (r, c)) :
    cellRead (cellWrite cells (cellKey r c) b) (cellKey r' c') = cellRead cells (cellKey r' c') := by
  refine cellRead_cellWrite_of_ne fun hkey => hne ?_
  obtain ⟨rfl, rfl⟩ := cellKey_inj hkey
  rfl

/-- `CSM.SET` behind the port, with the error's code written out. -/
theorem exec_csmSet (r c : Half) (v : Byte) (s : State) :
    exec (.csmSet r c v) s = onCsmPort s (withCell r c fun s =>
      if 1 < v.toNat then csmRespond 2 (v.setWidth 32) s
      else csmRespond 0 0 { s with cval := cellWrite s.cval (cellKey r c) (v == 1) }) := by
  rw [exec, execCsmSet, errorCode]

/-- Settles O48: past the check of the value, `CSM.SET` is a write of the cell. -/
theorem csmSetWritesOneCell : Obligations.CsmSetWritesOneCell := by
  intro s r c v hport hr hc
  have hexec := exec_csmSet r c v s
  refine ⟨fun hinvalid => ?_, fun hvalid => ⟨cellWrite s.cval (cellKey r c) (v == 1), ?_, ?_, ?_, cellWrite_wf⟩⟩
  · rw [BitVec.ofNat_toNat]
    exact answers_of_csmRespond hport hexec ((withCell_of_inside _ hr hc).trans (if_pos hinvalid))
  · exact answers_of_body hport hexec ((withCell_of_inside _ hr hc).trans (if_neg (Nat.not_lt.2 hvalid))) rfl
  · exact cellRead_cellWrite_self _ _ _
  · exact fun _ _ hne => cellRead_cellWrite_other _ _ hne

/-- Settles O49: `CSM.LOCK` is a write of the lock, which changes nothing when the cell is locked. -/
theorem csmLockLocksOneCell : Obligations.CsmLockLocksOneCell := by
  intro s r c hport hr hc
  refine ⟨cellWrite s.clk (cellKey r c) true, ?_, ?_, ?_, cellWrite_wf, cellInsert_of_mem⟩
  · exact answers_of_body hport rfl (withCell_of_inside _ hr hc) rfl
  · exact cellRead_cellWrite_self _ _ _
  · exact fun _ _ hne => cellRead_cellWrite_other _ _ hne

/-! ## Without the port -/

theorem onCsmPort_of_absent {s : State} (h : s.params.hasCsm = false) (body : State → State) :
    onCsmPort s body = .refused .csmAbsent := by
  rw [onCsmPort, if_neg (by simp [h])]

/-- Settles O51: every request runs behind the port, and a request word is not even decoded without it. -/
theorem absentPortRefusesEveryRequest : Obligations.AbsentPortRefusesEveryRequest := by
  refine fun s habsent => ⟨fun i hi => ?_, fun q rest hinputs => ?_⟩
  · obtain ⟨body, hexec⟩ := exists_onCsmPort_of_request hi s
    rw [hexec, onCsmPort_of_absent habsent]
  · rw [step, fetch, hinputs]
    simp only [fetchWord, habsent, Bool.false_eq_true, if_false]

end Sys2Proof.Machine
end

section
/-! What the invariant says of a configured block (10_state R44). Its registers follow the bits pushed, so a claim about them is a
claim about the bits: the counters by the positions of an index, the rest by where the last bit stands. -/

namespace Sys2Proof.Machine

open Sys2Proof.Safety

/-! ## Bounds and sums of the files (41_cross_sum R197, R199) -/

/-- The index map takes the positions of the block to the indices of a file, `n` positions to each. -/
structure SpreadsEvenly (idx : Nat → Nat → Nat → Nat) (n : Nat) : Prop where
  inRange : ∀ r < n, ∀ c < n, idx r c n < n
  card : ∀ k < n, (positionsOn idx n k).card = n

theorem rowIdx_spreadsEvenly (n : Nat) : SpreadsEvenly rowIdx n :=
  ⟨fun _ hr _ _ => hr, fun _ => card_positionsOn_rowIdx⟩

theorem colIdx_spreadsEvenly (n : Nat) : SpreadsEvenly colIdx n :=
  ⟨fun _ _ _ hc => hc, fun _ => card_positionsOn_colIdx⟩

theorem diagIdx_spreadsEvenly (n : Nat) : SpreadsEvenly diagIdx n :=
  ⟨fun r hr c _ => diagIdx_lt r c (Nat.zero_lt_of_lt hr), fun _ => card_positionsOn_diagIdx⟩

theorem antiIdx_spreadsEvenly (n : Nat) : SpreadsEvenly antiIdx n :=
  ⟨fun r hr c _ => antiIdx_lt r c (Nat.zero_lt_of_lt hr), fun _ => card_positionsOn_antiIdx⟩

section
variable {idx : Nat → Nat → Nat → Nat} {n : Nat} {bits : List Bool}

/-- Counter by counter, a file is the numbers of 1 bits on its indices: nothing wraps. -/
theorem map_toNat_sumFile (hidx : SpreadsEvenly idx n) (hfits : bits.length ≤ n * n) (hn : n < 2 ^ 16) :
    (sumFile idx n bits).map BitVec.toNat = (List.range n).map fun k => (setBitsOn idx n bits k).card := by
  rw [sumFile, List.map_map]
  refine List.map_congr_left fun k hk => ?_
  have hk : k < n := List.mem_range.1 hk
  have hle : (setBitsOn idx n bits k).card ≤ n := (Finset.card_filter_le _ _).trans (hidx.card k hk).le
  rw [Function.comp_apply, bitSum_eq_card_setBitsOn idx k hfits, BitVec.toNat_ofNat, Nat.mod_eq_of_lt (by omega)]

/-- An index collects `n` positions, so no counter exceeds `n`. -/
theorem toNat_le_of_mem_sumFile (hidx : SpreadsEvenly idx n) (hfits : bits.length ≤ n * n) (hn : n < 2 ^ 16) {x : Counter}
    (hx : x ∈ sumFile idx n bits) : x.toNat ≤ n := by
  have hmem : x.toNat ∈ (sumFile idx n bits).map BitVec.toNat := List.mem_map_of_mem hx
  rw [map_toNat_sumFile hidx hfits hn] at hmem
  obtain ⟨k, hk, heq⟩ := List.mem_map.1 hmem
  rw [← heq]
  exact (Finset.card_filter_le _ _).trans (hidx.card k (List.mem_range.1 hk)).le

/-- The 1 bits of a block, wherever they stand. -/
def setBits (n : Nat) (bits : List Bool) : Finset (Nat × Nat) :=
  (Finset.range n ×ˢ Finset.range n).filter fun p => pushedBit bits (p.1 * n + p.2) = true

/-- Every 1 bit counts on exactly one index of a file. -/
theorem sum_sumFile (hidx : SpreadsEvenly idx n) (hfits : bits.length ≤ n * n) (hn : n < 2 ^ 16) :
    ((sumFile idx n bits).map BitVec.toNat).sum = (setBits n bits).card := by
  have hrange : ∀ p ∈ setBits n bits, idx p.1 p.2 n ∈ Finset.range n := fun p hp => by
    obtain ⟨hr, hc⟩ := Finset.mem_product.1 (Finset.mem_filter.1 hp).1
    exact Finset.mem_range.2 (hidx.inRange _ (Finset.mem_range.1 hr) _ (Finset.mem_range.1 hc))
  calc ((sumFile idx n bits).map BitVec.toNat).sum
    _ = ∑ k ∈ Finset.range n, (setBitsOn idx n bits k).card := by rw [map_toNat_sumFile hidx hfits hn]; rfl
    _ = ∑ k ∈ Finset.range n, ((setBits n bits).filter fun p => idx p.1 p.2 n = k).card :=
        Finset.sum_congr rfl fun k _ => congrArg Finset.card (Finset.filter_comm _ _ _)
    _ = (setBits n bits).card := (Finset.card_eq_sum_card_fiberwise hrange).symm

end

/-- Settles O23: each file is the `sumFile` of a map that spreads evenly, and all count the same 1 bits. -/
theorem countersStayWithinTheDimension : Obligations.CountersStayWithinTheDimension := by
  intro s hinv hcfgd
  obtain ⟨-, -, bits, htracks⟩ := hinv.configured hcfgd
  have hn := s.dim.isLt
  rw [htracks.row, htracks.col, htracks.diag, htracks.anti, sum_sumFile (rowIdx_spreadsEvenly _) htracks.fits hn,
    sum_sumFile (colIdx_spreadsEvenly _) htracks.fits hn, sum_sumFile (diagIdx_spreadsEvenly _) htracks.fits hn,
    sum_sumFile (antiIdx_spreadsEvenly _) htracks.fits hn]
  refine ⟨?_, rfl, rfl, rfl⟩
  rintro x (hx | hx | hx | hx)
  · exact toNat_le_of_mem_sumFile (rowIdx_spreadsEvenly _) htracks.fits hn hx
  · exact toNat_le_of_mem_sumFile (colIdx_spreadsEvenly _) htracks.fits hn hx
  · exact toNat_le_of_mem_sumFile (diagIdx_spreadsEvenly _) htracks.fits hn hx
  · exact toNat_le_of_mem_sumFile (antiIdx_spreadsEvenly _) htracks.fits hn hx

/-! ## Position, buffer and rows of a tracked block -/

section
variable {s : State} {bits : List Bool}

theorem row_le_of_tracks (h : Tracks s bits) : s.r ≤ s.dim := by
  rw [BitVec.le_def, h.r]
  exact Nat.div_le_of_le_mul h.fits

/-- A row that is row `S` means that all bits are in. -/
theorem column_eq_zero_of_tracks (h : Tracks s bits) (hrow : s.r = s.dim) : s.c = 0 := by
  have hposition := position_eq_length_of_tracks h
  have hfits := h.fits
  rw [hrow] at hposition
  refine BitVec.eq_of_toNat_eq (show s.c.toNat = 0 from ?_)
  omega

/-- The positions of the row buffer at and after the cursor are not pushed yet (42_row_hash R221). -/
theorem bitAt_hbuf_of_tracks (h : Tracks s bits) {j p : Nat} (hp : p < 8) (hcursor : s.c.toNat ≤ 8 * j + p) :
    bitAt (s.hbuf.getD j 0) p = false := by
  have hposition := position_eq_length_of_tracks h
  by_cases hj : j < ceilBytes s.dim.toNat
  · have hlen : j < (rowBytes s.dim.toNat bits (bits.length / s.dim.toNat)).length := by simpa [rowBytes] using hj
    rw [h.hbuf, List.getD_eq_getElem _ _ hlen]
    simp only [rowBytes, List.getElem_map, List.getElem_range]
    rw [bitAt_byteOf _ _ hp, pushedBit_of_length_le (by rw [← h.r]; omega), Bool.and_false]
  · rw [h.hbuf, List.getD_eq_default _ _ (by simpa [rowBytes] using hj), bitAt_zero]

/-- The counter of a row with no bit pushed is 0. -/
theorem getD_row_of_not_begun (h : Tracks s bits) {k : Nat} (hk : bits.length ≤ k * s.dim.toNat) : s.row.getD k 0 = 0 := by
  rw [h.row]
  by_cases hin : k < s.dim.toNat
  · apply BitVec.eq_of_toNat_eq
    have hcard : (positionsOn rowIdx s.dim.toNat k).card < 2 ^ 16 := (card_positionsOn_rowIdx hin).trans_lt s.dim.isLt
    rw [toNat_getD_sumFile hin h.fits hcard, card_setBitsOn_rowIdx bits hin]
    refine List.countP_eq_zero.2 fun c _ => ?_
    rw [pushedBit_of_length_le (by omega)]
    exact Bool.false_ne_true
  · exact List.getD_eq_default _ _ (by simpa using hin)

/-- A row that is not complete has no digest yet (42_row_hash R229). -/
theorem getD_dig_of_not_captured (h : Tracks s bits) {k : Nat} (hk : s.r.toNat ≤ k) :
    s.dig.getD k Config.zeroDigest = Config.zeroDigest := by
  rw [h.dig]
  by_cases hin : k < s.dim.toNat
  · rw [List.getD_eq_getElem _ _ (by simpa using hin)]
    simp only [digestFile, List.getElem_map, List.getElem_range]
    exact if_neg (Nat.not_lt.2 (h.r ▸ hk))
  · exact List.getD_eq_default _ _ (by simpa using hin)

/-- Rows after the current one, and the current one at column 0, are not begun. -/
theorem length_le_of_row_not_begun (h : Tracks s bits) {k : Nat} (hk : s.r.toNat < k ∨ k = s.r.toNat ∧ s.c = 0) :
    bits.length ≤ k * s.dim.toNat := by
  rw [← position_eq_length_of_tracks h]
  obtain hafter | ⟨rfl, hzero⟩ := hk
  · have hcol := BitVec.lt_def.1 (column_lt_of_tracks h)
    calc s.r.toNat * s.dim.toNat + s.c.toNat
      _ ≤ (s.r.toNat + 1) * s.dim.toNat := by rw [Nat.succ_mul]; omega
      _ ≤ k * s.dim.toNat := Nat.mul_le_mul_right _ hafter
  · rw [hzero]
    exact le_rfl

end

/-- Settles O54: the phases by the clauses on the configuration, the rest by the bits that the block tracks. -/
theorem invariantGivesTheListedClauses : Obligations.InvariantGivesTheListedClauses := by
  intro s hinv
  refine ⟨fun hphase => ?_, fun hphase => ?_, fun hcfgd => ?_⟩
  · exact Bool.eq_false_iff.2 fun hcfgd => (hinv.configured hcfgd).1 hphase
  · exact Bool.of_not_eq_false fun hcfgd => (hinv.unconfigured hcfgd).phase hphase
  · obtain ⟨-, hmax, bits, htracks⟩ := hinv.configured hcfgd
    refine ⟨⟨htracks.dim_pos, hmax, row_le_of_tracks htracks, column_lt_of_tracks htracks, column_eq_zero_of_tracks htracks⟩,
      ⟨?_, ?_⟩, fun j p hp hcursor => ?_, fun k hk => ?_, fun k hk _ => ?_⟩
    · rw [htracks.hbyte, htracks.c]
    · rw [htracks.hbit, htracks.c]
    · exact bitAt_hbuf_of_tracks htracks hp hcursor
    · exact getD_row_of_not_begun htracks (length_le_of_row_not_begun htracks hk)
    · exact getD_dig_of_not_captured htracks hk

end Sys2Proof.Machine
end

section
/-! How an instruction ends (30_encoding R121, 60_exceptions R405 and R408, 46_csm_option R360). A command is refused with the
record of an error, or fails on a byte of output, or leaves its effect and a response; a request responds on its own port. This is
said once for all the instructions; what holds of the whole machine is then a case split on the ending. -/

namespace Sys2Proof.Machine

open Sys2Proof.Safety

/-! ## The endings of a command -/

/-- The commands that offer bytes to the sink. -/
def IsEmitting (i : Instr) : Prop := i = .ser ∨ i = .pkf ∨ ∃ val w, i = .pkw val w

/-- What a command that succeeds in `s` leaves, but for its response. -/
inductive CommandEffect (s : State) : Instr → State → Prop
  | cfg (n : Half) (b : BitVec 5) (hzero : n ≠ 0) (hmax : n ≤ s.params.sMax) :
      CommandEffect s (.cfg n b) (configure n b false s)
  | cfgA (n : Half) (hzero : n ≠ 0) (hmax : n ≤ s.params.sMax) :
      CommandEffect s (.cfgA n) (configure n (BitVec.ofNat 5 (clog2 (n.toNat + 1))) true s)
  | clrConfigured (hcfgd : s.cfgd = true) : CommandEffect s .clr { fresh s with phase := .active }
  | clrUnconfigured (hcfgd : s.cfgd = false) : CommandEffect s .clr { s with phase := .uncfg }
  | rst : CommandEffect s .rst (resetBlock s)
  | rd (sel : BitVec 4) (idx : BitVec 20) : CommandEffect s (.rd sel idx) s
  | pushb (v : Byte) (hphase : s.phase = .active) (hleft : 8 ≤ positionsLeft s) :
      CommandEffect s (.pushb v) (pushBits (byteBits v) s)
  | pushbit (v : Byte) (hphase : s.phase = .active) (hrow : s.r < s.dim) :
      CommandEffect s (.pushbit v) (pushBits [v == 1] s)
  | bitx (byte : Byte) (p : BitVec 4) : CommandEffect s (.bitx byte p) s
  | xtr (val : Half) (w : BitVec 5) : CommandEffect s (.xtr val w) s
  | pkw (val : Half) (w : BitVec 5) {vs : List Byte} {b : Byte} {p : BitVec 3} {c : Word}
      (hemits : Emits (packValue val w 0 s) 0 s vs b p c) (haccepts : Accepts s.sink vs.length) :
      CommandEffect s (.pkw val w) (withPacker b p c (withOutput vs s))
  | pkf {vs : List Byte} {b : Byte} {p : BitVec 3} {c : Word} (hemits : Emits (packFlush 0 s) 0 s vs b p c)
      (haccepts : Accepts s.sink vs.length) : CommandEffect s .pkf (withPacker b p c (withOutput vs s))
  | ser {vs : List Byte} {b : Byte} {p : BitVec 3} {c : Word} (hphase : s.phase = .active) (hidle : s.pkbit = 0)
      (hemits : Emits (serEmit s) 0 s vs b p c) (haccepts : Accepts s.sink vs.length) :
      CommandEffect s .ser (fresh (withPacker b p c (withOutput vs s)))

/-- The state after `IoError`, the bytes `vs` accepted before it (60_exceptions R408). -/
def outputFailed (vs : List Byte) (w : Word) (s : State) : State :=
  afterError 4 vs.length w
    { withOutput vs s with sink := sinkAfter s.sink (vs.length + 1), pkbyte := 0, pkbit := 0, pkcnt := 0, phase := .abort }

/-- How the command with word `w` can end. -/
inductive CommandEnds (i : Instr) (w : Word) (s : State) : State → Prop
  | refused (k : ErrorKind) (info : Nat) (hkind : k ≠ .ioError) : CommandEnds i w s (raise k info w s)
  | failed (vs : List Byte) (hemitting : IsEmitting i) (hfails : FailsAt s.sink vs.length) :
      CommandEnds i w s (outputFailed vs w s)
  | done (data : Word) {u : State} (heffect : CommandEffect s i u) : CommandEnds i w s (respond data u)

section
variable {i : Instr} {w : Word} {s t : State}

theorem CommandEnds.of_raise (k : ErrorKind) {info : Nat} (hkind : k ≠ .ioError)
    (h : (.next (raise k info w s) : Host.Outcome State Fault Refusal) = .next t) : CommandEnds i w s t :=
  Host.Outcome.next.inj h ▸ .refused k info hkind

theorem CommandEnds.of_respond {data : Word} {u : State} (heffect : CommandEffect s i u)
    (h : (.next (respond data u) : Host.Outcome State Fault Refusal) = .next t) : CommandEnds i w s t :=
  Host.Outcome.next.inj h ▸ .done data heffect

/-- An emission ends its command well when all its bytes are accepted, and in `IoError` when one fails. -/
theorem CommandEnds.of_finish {e : Emission} {vs : List Byte} {b : Byte} {p : BitVec 3} {c : Word} {data : Nat → Word}
    {rest : State → State} (hemits : Emits e 0 s vs b p c) (hemitting : IsEmitting i)
    (heffect : Accepts s.sink vs.length → CommandEffect s i (rest (withPacker b p c (withOutput vs s))))
    (h : finish w e (fun k u => respond (data k) (rest u)) = .next t) : CommandEnds i w s t := by
  obtain ⟨ha, heq⟩ | ⟨j, hj, hf, heq⟩ | ⟨j, -, -, heq⟩ := finish_cases hemits w fun k u => respond (data k) (rest u)
  · exact .of_respond (heffect ha) (heq.symm.trans h)
  · have hlen : (vs.take j).length = j := List.length_take_of_le hj.le
    have hend : CommandEnds i w s (outputFailed (vs.take j) w s) := .failed _ hemitting (hlen.symm ▸ hf)
    rw [outputFailed, hlen] at hend
    exact Host.Outcome.next.inj (heq.symm.trans h) ▸ hend
  · exact nomatch heq.symm.trans h

/-! ## Command by command -/

theorem configureChecked_ends {n : Half} {b : BitVec 5} {auto : Bool}
    (heffect : n ≠ 0 → n ≤ s.params.sMax → CommandEffect s i (configure n b auto s)) :
    CommandEnds i w s (configureChecked n b auto w s) := by
  obtain ⟨-, heq⟩ | ⟨-, -, heq⟩ | ⟨hzero, hmax, heq⟩ := configureChecked_cases n b auto w s
  · exact heq ▸ .refused _ _ (by decide)
  · exact heq ▸ .refused _ _ (by decide)
  · exact heq ▸ .done _ (heffect hzero hmax)

theorem clr_ends (h : exec .clr s = .next t) : CommandEnds .clr w s t := by
  cases hcfgd : s.cfgd with
  | true => exact .of_respond (.clrConfigured hcfgd) ((exec_clr_of_configured hcfgd).symm.trans h)
  | false => exact .of_respond (.clrUnconfigured hcfgd) ((exec_clr_of_unconfigured hcfgd).symm.trans h)

theorem rd_ends {sel : BitVec 4} {idx : BitVec 20} (h : exec (.rd sel idx) s = .next t) :
    CommandEnds (.rd sel idx) (wordA opRd sel idx) s t := by
  cases hwin : windowOf sel with
  | none => exact .of_raise .illegalCommand (by decide) ((exec_rd_of_reservedWindow idx s hwin).symm.trans h)
  | some win =>
    by_cases hcsr : win = .csr
    · subst hcsr
      cases hreg : csrOf idx.toNat with
      | none => exact .of_raise .illegalCommand (by decide) ((exec_rd_of_reservedCsr s hwin hreg).symm.trans h)
      | some reg => exact .of_respond (.rd sel idx) ((exec_rd_of_csr s hwin hreg).symm.trans h)
    · rw [exec_rd_of_window idx s hwin hcsr] at h
      split_ifs at h
      · exact .of_raise .sequenceError (by decide) h
      · exact .of_raise .rangeError (by decide) h
      · exact .of_respond (.rd sel idx) h

theorem pushb_ends {v : Byte} (h : exec (.pushb v) s = .next t) : CommandEnds (.pushb v) (wordV opPushb v) s t := by
  by_cases hphase : s.phase = .active
  · obtain hleft | hleft := Nat.lt_or_ge (positionsLeft s) 8
    · exact .of_raise .rangeError (by decide) ((exec_pushb_of_short v hphase hleft).symm.trans h)
    · exact .of_respond (.pushb v hphase hleft) ((exec_pushb_of_room v hphase hleft).symm.trans h)
  · exact .of_raise .sequenceError (by decide) ((exec_pushb_of_not_active v hphase).symm.trans h)

theorem pushbit_ends {v : Byte} (h : exec (.pushbit v) s = .next t) :
    CommandEnds (.pushbit v) (wordV opPushbit v) s t := by
  by_cases hphase : s.phase = .active
  · obtain hv | hv := Nat.lt_or_ge 1 v.toNat
    · exact .of_raise .invalidValue (by decide) ((exec_pushbit_of_invalid hphase hv).symm.trans h)
    · by_cases hrow : s.r < s.dim
      · exact .of_respond (.pushbit v hphase hrow) ((exec_pushbit_of_room hphase hv hrow).symm.trans h)
      · exact .of_raise .rangeError (by decide) ((exec_pushbit_of_complete hphase hv (BitVec.not_lt.1 hrow)).symm.trans h)
  · exact .of_raise .sequenceError (by decide) ((exec_pushbit_of_not_active v hphase).symm.trans h)

theorem bitx_ends {byte : Byte} {p : BitVec 4} (h : exec (.bitx byte p) s = .next t) :
    CommandEnds (.bitx byte p) (wordX opBitx p byte) s t := by
  rw [exec_bitx] at h
  obtain hinside | hpast := le_or_gt p.toNat 7
  · exact .of_respond (.bitx byte p) ((execBitx_of_le byte s hinside).symm.trans h)
  · exact .of_raise .rangeError (by decide) ((execBitx_of_gt byte s hpast).symm.trans h)

theorem pkw_ends {val : Half} {width : BitVec 5} (h : exec (.pkw val width) s = .next t) :
    CommandEnds (.pkw val width) (wordW opPkw width val) s t := by
  by_cases habort : s.phase = .abort
  · rw [exec, execPkw, if_pos habort] at h
    exact .of_raise .sequenceError (by decide) h
  · obtain ⟨vs, b, p, c, hemits⟩ := emits_packValue val width 0 s
    exact .of_finish (rest := id) hemits (.inr (.inr ⟨val, width, rfl⟩)) (.pkw val width hemits)
      ((exec_pkw_of_open val width habort).symm.trans h)

theorem pkf_ends (h : exec .pkf s = .next t) : CommandEnds .pkf (wordZ opPkf) s t := by
  by_cases habort : s.phase = .abort
  · exact .of_raise .sequenceError (by decide) ((if_pos habort).symm.trans h)
  · obtain ⟨vs, b, p, c, hemits⟩ := emits_packFlush 0 s
    exact .of_finish (rest := id) hemits (.inr (.inl rfl)) (.pkf hemits) ((exec_pkf_of_open habort).symm.trans h)

theorem ser_ends (h : exec .ser s = .next t) : CommandEnds .ser (wordZ opSer) s t := by
  rw [exec, execSer] at h
  split_ifs at h with hphase hwidth hrow hpending
  · exact .of_raise .sequenceError (by decide) h
  · exact .of_raise .rangeError (by decide) h
  · exact .of_raise .sequenceError (by decide) h
  · exact .of_raise .sequenceError (by decide) h
  · obtain ⟨vs, b, p, c, hemits⟩ := emits_serEmit s
    exact .of_finish hemits (.inl rfl) (.ser (not_not.1 hphase) (not_not.1 hpending) hemits) h

/-- Every command ends in one of the three ways. -/
theorem command_ends (hword : encode i = .cmd w) (h : exec i s = .next t) : CommandEnds i w s t := by
  cases i with
  | cfg n b => exact PortWord.cmd.inj hword ▸ Host.Outcome.next.inj h ▸ configureChecked_ends (.cfg n b)
  | cfgA n => exact PortWord.cmd.inj hword ▸ Host.Outcome.next.inj h ▸ configureChecked_ends (.cfgA n)
  | clr => exact clr_ends h
  | rst => exact .of_respond .rst h
  | rd sel idx => exact PortWord.cmd.inj hword ▸ rd_ends h
  | pushb v => exact PortWord.cmd.inj hword ▸ pushb_ends h
  | pushbit v => exact PortWord.cmd.inj hword ▸ pushbit_ends h
  | bitx byte p => exact PortWord.cmd.inj hword ▸ bitx_ends h
  | xtr val width => exact .of_respond (.xtr val width) h
  | pkw val width => exact PortWord.cmd.inj hword ▸ pkw_ends h
  | pkf => exact PortWord.cmd.inj hword ▸ pkf_ends h
  | ser => exact PortWord.cmd.inj hword ▸ ser_ends h
  | csmResize | csmGet | csmSet | csmLock | csmIslocked | csmSize => exact nomatch hword

end

end Sys2Proof.Machine
end

section
/-! The whole machine: what each ending leaves alone, and from that the statements over all instructions (60_exceptions R405,
R408, 10_state R34, 46_csm_option R360). -/

namespace Sys2Proof.Machine

open Sys2Proof.Safety

/-! ## The endings of a request -/

/-- What a request can leave of the grid, but for its response. -/
inductive GridEffect (s : State) : State → Prop
  | kept : GridEffect s s
  | resized (n : Half) (hmax : n ≤ s.params.sMax) : GridEffect s { s with csz := n, cval := [], clk := [] }
  | wrote (r c : Half) (b : Bool) (hr : r < s.csz) (hc : c < s.csz) :
      GridEffect s { s with cval := cellWrite s.cval (cellKey r c) b }
  | locked (r c : Half) (hr : r < s.csz) (hc : c < s.csz) :
      GridEffect s { s with clk := cellWrite s.clk (cellKey r c) true }

/-- A request's response and the grid it leaves. -/
inductive RequestEnds (s : State) : State → Prop
  | answered (status : BitVec 4) (data : Word) {u : State} (heffect : GridEffect s u) :
      RequestEnds s (csmRespond status data u)

section
variable {s t : State}

/-- A request that names a cell is refused by the bounds check or has its effect inside the grid. -/
theorem withCell_ends {r c : Half} {body : State → State}
    (hbody : r < s.csz → c < s.csz → RequestEnds s (body s)) : RequestEnds s (withCell r c body s) := by
  obtain ⟨-, heq⟩ | ⟨-, -, heq⟩ | ⟨hr, hc, heq⟩ := withCell_cases r c body s
  · exact heq ▸ .answered _ _ .kept
  · exact heq ▸ .answered _ _ .kept
  · exact heq ▸ hbody hr hc

theorem csmResize_ends {n : Half} (h : exec (.csmResize n) s = .next t) : RequestEnds s t := by
  rw [exec_csmResize] at h
  obtain ⟨-, rfl⟩ := onCsmPort_eq_next_iff.1 h
  split_ifs with hzero hlarge
  · exact .answered _ _ .kept
  · exact .answered _ _ .kept
  · exact .answered _ _ (.resized n (BitVec.not_lt.1 hlarge))

theorem csmSet_ends {r c : Half} {v : Byte} (h : exec (.csmSet r c v) s = .next t) : RequestEnds s t := by
  rw [exec_csmSet] at h
  obtain ⟨-, rfl⟩ := onCsmPort_eq_next_iff.1 h
  refine withCell_ends fun hr hc => ?_
  split_ifs
  · exact .answered _ _ .kept
  · exact .answered _ _ (.wrote r c _ hr hc)

/-- Every request answers, and leaves the grid as it was, resized, or with one cell written. -/
theorem request_ends {i : Instr} (hrequest : isCommand i = false) (h : exec i s = .next t) : RequestEnds s t := by
  cases i with
  | csmResize n => exact csmResize_ends h
  | csmSet r c v => exact csmSet_ends h
  | csmGet r c | csmIslocked r c =>
    obtain ⟨-, rfl⟩ := onCsmPort_eq_next_iff.1 h
    exact withCell_ends fun _ _ => .answered _ _ .kept
  | csmLock r c =>
    obtain ⟨-, rfl⟩ := onCsmPort_eq_next_iff.1 h
    exact withCell_ends fun hr hc => .answered _ _ (.locked r c hr hc)
  | csmSize =>
    obtain ⟨-, rfl⟩ := onCsmPort_eq_next_iff.1 h
    exact .answered _ _ .kept
  | cfg | cfgA | clr | rst | rd | pushb | pushbit | bitx | xtr | pkw | pkf | ser =>
    exact absurd hrequest.symm Bool.false_ne_true

/-- A request touches the grid and its own record of responses (46_csm_option R360). -/
theorem RequestEnds.frame (h : RequestEnds s t) :
    t = { s with csz := t.csz, cval := t.cval, clk := t.clk, csmRsp := t.csmRsp } := by
  obtain ⟨status, data, heffect⟩ := h
  cases heffect <;> rfl

end

/-! ## What a command's effect leaves alone -/

/-- What every effect leaves alone, what all but that of `RST` do, and what all but those of the emitting commands do. -/
structure CommandFrame (i : Instr) (s u : State) : Prop where
  environment : u.params = s.params ∧ u.inputs = s.inputs ∧ u.rsp = s.rsp ∧ u.csmRsp = s.csmRsp
  errors : i ≠ .rst → u.esticky = s.esticky ∧ u.ecode = s.ecode ∧ u.einfo = s.einfo ∧ u.ecmd = s.ecmd
  grid : i ≠ .rst → u.csz = s.csz ∧ u.cval = s.cval ∧ u.clk = s.clk
  output : i ≠ .rst → s.out <+: u.out
  quiet : ¬ IsEmitting i → u.sink = s.sink ∧ (i ≠ .rst → u.out = s.out ∧ u.outcnt = s.outcnt)

section
variable {i : Instr} {s t u : State}

/-- An effect on the configuration, the phase and the block alone. -/
theorem commandFrame_of_block (i : Instr) (s : State) (cfgd : Bool) (dim : Half) (width : BitVec 5) (auto : Bool) (phase : Phase)
    (r c : Half) (row col diag anti : List Counter) (dig : List Config.Digest) (hbuf : List Byte) (hbit : BitVec 3)
    (hbyte : Half) :
    CommandFrame i s { s with
      cfgd := cfgd, dim := dim, width := width, auto := auto, phase := phase, r := r, c := c, row := row, col := col,
      diag := diag, anti := anti, dig := dig, hbuf := hbuf, hbit := hbit, hbyte := hbyte } where
  environment := ⟨rfl, rfl, rfl, rfl⟩
  errors _ := ⟨rfl, rfl, rfl, rfl⟩
  grid _ := ⟨rfl, rfl, rfl⟩
  output _ := List.prefix_rfl
  quiet _ := ⟨rfl, fun _ => ⟨rfl, rfl⟩⟩

/-- An emission touches the packer, the output and the sink. -/
theorem commandFrame_of_emission (hemitting : IsEmitting i) (s : State) (b : Byte) (p : BitVec 3) (c : Word)
    (vs : List Byte) : CommandFrame i s (withPacker b p c (withOutput vs s)) where
  environment := ⟨rfl, rfl, rfl, rfl⟩
  errors _ := ⟨rfl, rfl, rfl, rfl⟩
  grid _ := ⟨rfl, rfl, rfl⟩
  output _ := List.prefix_append _ _
  quiet hquiet := absurd hemitting hquiet

theorem CommandEffect.frame (h : CommandEffect s i u) : CommandFrame i s u := by
  cases h with
  | cfg | cfgA | clrConfigured | clrUnconfigured | rd | bitx | xtr => apply commandFrame_of_block
  | pushb | pushbit =>
    rw [pushBits_frame]
    apply commandFrame_of_block
  | rst =>
    exact ⟨⟨rfl, rfl, rfl, rfl⟩, fun h => absurd rfl h, fun h => absurd rfl h, fun h => absurd rfl h,
      fun _ => ⟨rfl, fun h => absurd rfl h⟩⟩
  | pkw val w => exact commandFrame_of_emission (.inr (.inr ⟨val, w, rfl⟩)) _ _ _ _ _
  | pkf => exact commandFrame_of_emission (.inr (.inl rfl)) _ _ _ _ _
  | @ser vs b p c =>
    obtain ⟨henvironment, herrors, hgrid, houtput, hquiet⟩ := commandFrame_of_emission (i := .ser) (.inl rfl) s b p c vs
    exact ⟨henvironment, herrors, hgrid, houtput, hquiet⟩

/-! ## The statements over all instructions -/

theorem isCommand_eq_false_of_request {q : Request} (hword : encode i = .csm q) : isCommand i = false := by
  simp only [isCommand, hword]

theorem afterError_toNat (code : BitVec 4) (info : Nat) (w : Word) (s : State) :
    afterError code (BitVec.ofNat 32 info).toNat w s = afterError code info w s := by
  simp only [afterError, BitVec.ofNat_toNat, BitVec.setWidth_eq]

theorem errorCode_mem (k : ErrorKind) : errorCode k ≠ 0 ∧ (errorCode k).toNat ≤ 6 := by cases k <;> decide

theorem errorCode_eq_four_iff (k : ErrorKind) : errorCode k = 4 ↔ k = .ioError := by cases k <;> decide

end

/-- Settles O55: a refusal is its record alone, `IoError` has the same record, and success leaves the registers. -/
theorem everyErrorIsRecordedAndPrecise : Obligations.EveryErrorIsRecordedAndPrecise := by
  intro i w s t hword hexec
  cases command_ends hword hexec with
  | refused k info hkind =>
    obtain ⟨hnonzero, hcode⟩ := errorCode_mem k
    refine ⟨⟨errorCode k, BitVec.ofNat 32 info⟩, rfl, rfl, fun hzero => absurd hzero hnonzero,
      fun _ => ⟨hcode, rfl, rfl, rfl, rfl⟩, fun _ _ => ?_⟩
    rw [afterError_toNat, raise_eq_afterError]
  | failed vs =>
    exact ⟨⟨4, BitVec.ofNat 32 vs.length⟩, rfl, rfl, fun hzero => absurd hzero (by decide : (4 : BitVec 4) ≠ 0),
      fun _ => ⟨(by decide : (4 : BitVec 4).toNat ≤ 6), rfl, rfl, rfl, rfl⟩, fun _ hfour => absurd rfl hfour⟩
  | done data heffect =>
    obtain ⟨⟨-, -, hrsp, hcsmRsp⟩, herrors, -, -, -⟩ := heffect.frame
    exact ⟨⟨0, data⟩, by rw [respond_rsp, hrsp], hcsmRsp, fun _ => herrors, fun h => absurd rfl h, fun h => absurd rfl h⟩

/-- Settles O56: status 4 is neither a refusal's code nor a success, and a request gives no response on port `rsp`. -/
theorem ioErrorKeepsTheBlock : Obligations.IoErrorKeepsTheBlock := by
  intro i s t answer hexec hrsp hstatus
  have same {a : Response} (h : s.rsp ++ [a] = s.rsp ++ [answer]) : a = answer := by simpa using h
  cases hword : encode i with
  | cmd w =>
    cases command_ends hword hexec with
    | refused k info hkind =>
      obtain rfl := same hrsp
      exact absurd ((errorCode_eq_four_iff k).1 hstatus) hkind
    | failed vs hemitting hfails =>
      obtain rfl := same hrsp
      exact ⟨hemitting, vs, rfl, hfails, w, hword, hexec⟩
    | done data heffect =>
      obtain ⟨-, -, hkept, -⟩ := heffect.frame.environment
      rw [respond_rsp, hkept] at hrsp
      obtain rfl := same hrsp
      exact absurd hstatus (by decide : (0 : BitVec 4) ≠ 4)
  | csm q =>
    rw [(request_ends (isCommand_eq_false_of_request hword) hexec).frame] at hrsp
    exact absurd hrsp (by simp)

/-- Settles O57: the environment is in every frame, and the sink and the output are in all but those of the three. -/
theorem onlyEmittingCommandsWriteOutput : Obligations.OnlyEmittingCommandsWriteOutput := by
  intro i s t hexec
  cases hword : encode i with
  | cmd w =>
    cases command_ends hword hexec with
    | refused => exact ⟨rfl, rfl, fun _ => List.prefix_rfl, fun _ _ _ => ⟨rfl, fun _ => ⟨rfl, rfl⟩⟩⟩
    | failed vs hemitting =>
      refine ⟨rfl, rfl, fun _ => List.prefix_append _ _, fun hser hpkf hpkw => ?_⟩
      obtain heq | heq | ⟨val, w, heq⟩ := hemitting
      · exact absurd heq hser
      · exact absurd heq hpkf
      · exact absurd heq (hpkw val w)
    | done data heffect =>
      obtain ⟨⟨hparams, hinputs, -, -⟩, -, -, houtput, hquiet⟩ := heffect.frame
      refine ⟨hparams, hinputs, houtput, fun hser hpkf hpkw => hquiet ?_⟩
      rintro (heq | heq | ⟨val, w, heq⟩)
      · exact hser heq
      · exact hpkf heq
      · exact hpkw val w heq
  | csm q =>
    rw [(request_ends (isCommand_eq_false_of_request hword) hexec).frame]
    exact ⟨rfl, rfl, fun _ => List.prefix_rfl, fun _ _ _ => ⟨rfl, fun _ => ⟨rfl, rfl⟩⟩⟩

/-- Settles O58: errors and requests keep the phase or abort, the feed and `SER` need `ACTIVE`, and the other commands keep it. -/
theorem onlyClrCfgRstLeaveAbort : Obligations.OnlyClrCfgRstLeaveAbort := by
  intro i s t hexec habort hleft
  have notActive : s.phase ≠ .active := by rw [habort]; decide
  cases hword : encode i with
  | cmd w =>
    cases command_ends hword hexec with
    | refused => exact absurd habort hleft
    | failed => exact absurd rfl hleft
    | done data heffect =>
      cases heffect with
      | cfg n b => exact .inr (.inr (.inl ⟨n, b, rfl⟩))
      | cfgA n => exact .inr (.inr (.inr ⟨n, rfl⟩))
      | clrConfigured | clrUnconfigured => exact .inl rfl
      | rst => exact .inr (.inl rfl)
      | pushb _ hphase | pushbit _ hphase | ser hphase => exact absurd hphase notActive
      | rd | bitx | xtr | pkw | pkf => exact absurd habort hleft
  | csm q =>
    rw [(request_ends (isCommand_eq_false_of_request hword) hexec).frame] at hleft
    exact absurd habort hleft

/-- Settles O59: the frames of the two ports. -/
theorem csmAndPipelineShareNothing : Obligations.CsmAndPipelineShareNothing := by
  refine fun i s t hexec => ⟨fun hrequest => (request_ends hrequest hexec).frame, fun hcommand => ?_⟩
  obtain ⟨w, hword⟩ := (isCommand_iff i).1 hcommand
  cases command_ends hword hexec with
  | refused | failed => exact ⟨rfl, fun _ => ⟨rfl, rfl, rfl⟩⟩
  | done data heffect =>
    obtain ⟨⟨-, -, -, hcsmRsp⟩, -, hgrid, -, -⟩ := heffect.frame
    exact ⟨hcsmRsp, hgrid⟩

end Sys2Proof.Machine
end

section
/-! The invariant (10_state R44 and what it rests on). One lemma for each thing an instruction can do to the state; a step is one
of the endings said before, so each ending keeps the invariant by the lemmas of its parts. -/

namespace Sys2Proof.Machine

open Sys2Proof.Safety

/-! ## The clauses on configuration, phase and block -/

/-- The clauses of the invariant that speak of the configuration, the phase and the block. -/
structure BlockInv (s : State) : Prop where
  unconfigured : s.cfgd = false → Unconfigured s
  configured : s.cfgd = true → s.phase ≠ .uncfg ∧ s.dim ≤ s.params.sMax ∧ ∃ bits, Tracks s bits
  autoWidth : s.auto = true → s.width.toNat = clog2 (s.dim.toNat + 1)

/-- `t` has the parameters, the configuration and the block of `s`, and its phase or `ABORT`. -/
structure KeepsBlock (s t : State) : Prop where
  block : SameBlock s t
  config : t.cfgd = s.cfgd ∧ t.width = s.width ∧ t.auto = s.auto
  params : t.params = s.params
  phase : t.phase = s.phase ∨ t.phase = .abort

section
variable {s t : State}

theorem blockInv_of_keepsBlock (hkeeps : KeepsBlock s t) (h : Inv s) : BlockInv t := by
  obtain ⟨hblock, ⟨hcfgd, hwidth, hauto⟩, hparams, hphase⟩ := hkeeps
  have hdim : t.dim = s.dim := by rw [hblock]
  refine ⟨fun hc => ?_, fun hc => ?_, fun ha => ?_⟩
  · obtain ⟨hnot, ⟨hd, hw, ha⟩, hposition, hfiles, hbuffer⟩ := h.unconfigured (hcfgd ▸ hc)
    refine ⟨?_, ⟨hdim ▸ hd, hwidth ▸ hw, hauto ▸ ha⟩, ?_, ?_, ?_⟩
    · obtain heq | heq := hphase <;> rw [heq]
      · exact hnot
      · decide
    · rw [hblock]; exact hposition
    · rw [hblock]; exact hfiles
    · rw [hblock]; exact hbuffer
  · obtain ⟨hnot, hmax, bits, htracks⟩ := h.configured (hcfgd ▸ hc)
    refine ⟨?_, by rw [hdim, hparams]; exact hmax, bits, tracks_of_sameBlock hblock htracks⟩
    obtain heq | heq := hphase <;> rw [heq]
    · exact hnot
    · decide
  · rw [hwidth, hdim]
    exact h.autoWidth (hauto ▸ ha)

/-! ## Responses, errors and deliveries -/

theorem inv_withInputs (h : Inv s) (rest : List Input) : Inv { s with inputs := rest } :=
  { blockInv_of_keepsBlock (t := { s with inputs := rest }) ⟨rfl, ⟨rfl, rfl, rfl⟩, rfl, .inl rfl⟩ h, h with }

theorem inv_respond (h : Inv s) (data : Word) : Inv (respond data s) :=
  { blockInv_of_keepsBlock (t := respond data s) ⟨rfl, ⟨rfl, rfl, rfl⟩, rfl, .inl rfl⟩ h, h with }

theorem inv_csmRespond (h : Inv s) (status : BitVec 4) (data : Word) : Inv (csmRespond status data s) :=
  { blockInv_of_keepsBlock (t := csmRespond status data s) ⟨rfl, ⟨rfl, rfl, rfl⟩, rfl, .inl rfl⟩ h, h with }

/-- The sticky bit of a kind is its code's, and bit 0 is no kind's (10_state R41). -/
theorem stickyWith_bits (k : ErrorKind) (sticky : BitVec 7) :
    (stickyWith k sticky).getLsbD 0 = sticky.getLsbD 0 ∧ (stickyWith k sticky).getLsbD (errorCode k).toNat = true := by
  cases k <;> simp [stickyWith, errorCode]

theorem inv_raise (h : Inv s) (k : ErrorKind) (info : Nat) (w : Word) : Inv (raise k info w s) :=
  { blockInv_of_keepsBlock (t := raise k info w s) ⟨rfl, ⟨rfl, rfl, rfl⟩, rfl, .inl rfl⟩ h, h with
    stickyZero := (stickyWith_bits k s.esticky).1.trans h.stickyZero
    lastError := ⟨(errorCode_mem k).2, .inr (stickyWith_bits k s.esticky).2⟩ }

/-! ## Output and packer -/

/-- `OUTCNT` counts the bytes it is told of (10_state R40). -/
theorem outcnt_withOutput (h : Inv s) (vs : List Byte) :
    s.outcnt + BitVec.ofNat 32 vs.length = BitVec.ofNat 32 (s.out ++ vs).length := by
  rw [h.outcnt, List.length_append, BitVec.ofNat_add]

theorem inv_emission (h : Inv s) {b : Byte} {p : BitVec 3} (c : Word) (vs : List Byte)
    (hclean : ∀ j, p.toNat ≤ j → j < 8 → bitAt b j = false) : Inv (withPacker b p c (withOutput vs s)) :=
  { blockInv_of_keepsBlock (s := s) (t := withPacker b p c (withOutput vs s))
      ⟨rfl, ⟨rfl, rfl, rfl⟩, rfl, .inl rfl⟩ h, h with
    packer := hclean
    outcnt := outcnt_withOutput h vs }

/-- `IoError` records its kind and clears the packer. -/
theorem inv_outputFailed (h : Inv s) (vs : List Byte) (w : Word) : Inv (outputFailed vs w s) :=
  { blockInv_of_keepsBlock (s := s) (t := outputFailed vs w s) ⟨rfl, ⟨rfl, rfl, rfl⟩, rfl, .inr rfl⟩ h, h with
    packer := fun _ _ _ => bitAt_zero _
    outcnt := outcnt_withOutput h vs
    stickyZero := (stickyWith_bits .ioError s.esticky).1.trans h.stickyZero
    lastError := ⟨(errorCode_mem .ioError).2, .inr (stickyWith_bits .ioError s.esticky).2⟩ }

/-! ## The block -/

theorem fresh_tracks_of_tracks {bits : List Bool} (h : Tracks s bits) : Tracks (fresh s) [] :=
  freshBlockTracksNoBits s fun hzero => absurd h.dim_pos (by rw [hzero]; decide)

theorem phase_ne_uncfg_of_active (h : t.phase = .active) : t.phase ≠ .uncfg := by
  rw [h]
  decide

theorem cfgd_of_active (h : Inv s) (hphase : s.phase = .active) : s.cfgd = true :=
  Bool.of_not_eq_false fun hc => (h.unconfigured hc).phase hphase

/-- `Fresh` of a configured block, which is or becomes `ACTIVE` (45_control R322, R324). -/
theorem inv_fresh_active (h : Inv s) (hcfgd : s.cfgd = true) : Inv { fresh s with phase := .active } :=
  { h with
    unconfigured := fun hc => absurd (hcfgd.symm.trans hc) (by decide)
    configured := fun _ => by
      obtain ⟨-, hmax, bits, htracks⟩ := h.configured hcfgd
      exact ⟨phase_ne_uncfg_of_active rfl, hmax, [],
        tracks_of_sameBlock (s := fresh s) rfl (fresh_tracks_of_tracks htracks)⟩ }

/-- `Fresh` of an `ACTIVE` block, which stays `ACTIVE`. -/
theorem inv_fresh_of_active (h : Inv s) (hphase : s.phase = .active) : Inv (fresh s) := by
  have hsame : fresh s = { fresh s with phase := .active } := by rw [← hphase]; rfl
  exact hsame ▸ inv_fresh_active h (cfgd_of_active h hphase)

/-- Without a configuration `CLR` has no block to clear (45_control R324). -/
theorem inv_unconfigured (h : Inv s) (hcfgd : s.cfgd = false) : Inv { s with phase := .uncfg } :=
  { h with
    unconfigured := fun _ => by
      obtain ⟨-, hconfig, hposition, hfiles, hbuffer⟩ := h.unconfigured hcfgd
      exact ⟨(by decide : Phase.uncfg ≠ .active), hconfig, hposition, hfiles, hbuffer⟩
    configured := fun hc => absurd (hcfgd.symm.trans hc) (by decide) }

theorem inv_configure (h : Inv s) {n : Half} {b : BitVec 5} {auto : Bool} (hzero : n ≠ 0) (hmax : n ≤ s.params.sMax)
    (hauto : auto = true → b.toNat = clog2 (n.toNat + 1)) : Inv (configure n b auto s) :=
  { h with
    unconfigured := fun hc => absurd hc (by decide : ¬ true = false)
    configured := fun _ => ⟨phase_ne_uncfg_of_active rfl, hmax, [], tracks_of_sameBlock
      (s := fresh { s with dim := n, auto := auto, cfgd := true, width := b }) rfl (freshBlockTracksNoBits _ hzero)⟩
    autoWidth := hauto }

/-- Bits that fit in the block (40_bit_extractor R166). -/
theorem inv_pushBits (h : Inv s) {bits : List Bool} (hphase : s.phase = .active) (hleft : bits.length ≤ positionsLeft s) :
    Inv (pushBits bits s) := by
  have hcfgd := cfgd_of_active h hphase
  obtain ⟨hnot, hmax, before, htracks⟩ := h.configured hcfgd
  have hfits : before.length + bits.length ≤ s.dim.toNat * s.dim.toNat := by
    rw [positionsLeft_of_tracks htracks] at hleft
    have := htracks.fits
    omega
  have htracksNext := tracks_pushBits bits s before htracks hfits
  rw [pushBits_frame] at htracksNext ⊢
  exact { h with
    unconfigured := fun hc => absurd (hcfgd.symm.trans hc) (by decide)
    configured := fun _ => ⟨hnot, hmax, _, htracksNext⟩ }

/-- An `ACTIVE` block whose row index is inside has room for a bit (40_bit_extractor R165). -/
theorem positionsLeft_pos_of_row_lt (h : Inv s) (hphase : s.phase = .active) (hrow : s.r < s.dim) : 1 ≤ positionsLeft s :=
  positionsLeft_eq_bitsMissing s ▸ bitsMissing_pos h hphase (BitVec.ne_of_lt hrow)

/-- No cells are in the one form in any grid (log entry 11). -/
theorem cellsForm_nil (n : Nat) : cellsWf [] ∧ cellsWf [] ∧ cellsInside n [] ∧ cellsInside n [] :=
  ⟨.nil, .nil, fun _ hk => absurd hk List.not_mem_nil, fun _ hk => absurd hk List.not_mem_nil⟩

/-- The reset values meet the invariant whatever the parameters are (10_state R47). -/
theorem inv_zeroBlock (hwf : s.params.wf) : Inv (zeroBlock s) where
  sMax := hwf
  unconfigured _ :=
    ⟨(by decide : Phase.uncfg ≠ .active), ⟨rfl, rfl, rfl⟩, ⟨rfl, rfl⟩, ⟨rfl, rfl, rfl, rfl, rfl⟩, ⟨rfl, rfl, rfl⟩⟩
  configured h := absurd h (by decide : ¬ false = true)
  autoWidth h := absurd h (by decide : ¬ false = true)
  packer _ _ _ := bitAt_zero _
  outcnt := rfl
  stickyZero := BitVec.getLsbD_zero
  lastError := ⟨(by decide : (0 : BitVec 4).toNat ≤ 6), .inl rfl⟩
  csmSize := BitVec.not_lt.1 BitVec.not_lt_zero
  csmCells := cellsForm_nil 0
  csmAbsent _ := rfl

/-- Settles O52: the reset state is the block of reset values with the default parameters. -/
theorem invariantHoldsAtReset : Obligations.InvariantHoldsAtReset := by
  have hreset : State.reset = zeroBlock State.reset := resetHoldsTheListedValues.1
  rw [Obligations.InvariantHoldsAtReset, hreset]
  exact inv_zeroBlock (by decide)

/-! ## The packer that an emission leaves -/

/-- The packer that accepted bytes leave is determined. -/
theorem emits_packer_unique {e : Emission} {k : Nat} {vs vs' : List Byte} {b b' : Byte} {p p' : BitVec 3} {c c' : Word}
    (h : Emits e k s vs b p c) (h' : Emits e k s vs' b' p' c') (ha : Accepts s.sink vs.length) : b = b' ∧ p = p' := by
  have heq := h.accepted ha
  obtain ha' | ⟨j, hj, hf⟩ | ⟨j, hj, hs⟩ := sink_cases s.sink vs'.length
  · have hstate := (Emission.ok.inj (heq.symm.trans (h'.accepted ha'))).2
    exact ⟨congrArg State.pkbyte hstate, congrArg State.pkbit hstate⟩
  · obtain ⟨_, _, _, hfailed⟩ := h'.failed j hj hf
    exact nomatch heq.symm.trans hfailed
  · exact nomatch heq.symm.trans (h'.silent j hj hs)

/-- What is held behind the whole bytes of a stream has zeros after it (10_state R44 g). -/
theorem bitAt_rest (bits : List Bool) {j : Nat} (hj : (BitVec.ofNat 3 (bits.length % 8)).toNat ≤ j) (hlt : j < 8) :
    bitAt (byteOfBits bits (bits.length / 8)) j = false := by
  rw [BitVec.toNat_ofNat] at hj
  rw [byteOfBits, bitAt_byteOf _ _ hlt]
  exact pushedBit_of_length_le (by omega)

/-- An idle packer's byte is zero. -/
theorem pkbyte_of_idle (h : Inv s) (hidle : s.pkbit = 0) : s.pkbyte = 0 :=
  byte_ext fun p hp => (h.packer p (by rw [hidle]; exact Nat.zero_le p) hp).trans (bitAt_zero p).symm

section
variable {vs : List Byte} {b : Byte} {p : BitVec 3} {c : Word}

theorem packer_clean_of_packValue (h : Inv s) {val : Half} {w : BitVec 5} (hemits : Emits (packValue val w 0 s) 0 s vs b p c)
    (ha : Accepts s.sink vs.length) : ∀ j, p.toNat ≤ j → j < 8 → bitAt b j = false := by
  obtain ⟨rfl, rfl⟩ := emits_packer_unique hemits (packsBits_packValue val w 0 (packerHolds_pending h.packer)) ha
  exact fun j => bitAt_rest _

theorem packer_clean_of_packFlush (h : Inv s) (hemits : Emits (packFlush 0 s) 0 s vs b p c) (ha : Accepts s.sink vs.length) :
    ∀ j, p.toNat ≤ j → j < 8 → bitAt b j = false := by
  by_cases hidle : s.pkbit = 0
  · obtain ⟨rfl, rfl⟩ := emits_packer_unique hemits (emits_packFlush_idle 0 s hidle) ha
    exact h.packer
  · obtain ⟨rfl, rfl⟩ := emits_packer_unique hemits (emits_packFlush_pending 0 s hidle) ha
    exact fun j _ _ => bitAt_zero j

theorem packer_clean_of_serEmit (h : Inv s) (hidle : s.pkbit = 0) (hemits : Emits (serEmit s) 0 s vs b p c)
    (ha : Accepts s.sink vs.length) : ∀ j, p.toNat ≤ j → j < 8 → bitAt b j = false := by
  obtain ⟨rfl, rfl⟩ := emits_packer_unique hemits (emits_serEmit_idle hidle (pkbyte_of_idle h hidle)) ha
  exact fun j _ _ => bitAt_zero j

end

/-! ## Every ending keeps the invariant -/

theorem inv_of_commandEffect {i : Instr} (h : Inv s) (heffect : CommandEffect s i t) : Inv t := by
  cases heffect with
  | cfg n b hzero hmax => exact inv_configure h hzero hmax fun hauto => absurd hauto (by decide)
  | cfgA n hzero hmax => exact inv_configure h hzero hmax fun _ => toNat_ofNat_clog2_succ n
  | clrConfigured hcfgd => exact inv_fresh_active h hcfgd
  | clrUnconfigured hcfgd => exact inv_unconfigured h hcfgd
  | rst => exact inv_zeroBlock h.sMax
  | rd | bitx | xtr => exact h
  | pushb v hphase hleft => exact inv_pushBits h hphase hleft
  | pushbit v hphase hrow => exact inv_pushBits h hphase (positionsLeft_pos_of_row_lt h hphase hrow)
  | pkw val w hemits ha => exact inv_emission h _ _ (packer_clean_of_packValue h hemits ha)
  | pkf hemits ha => exact inv_emission h _ _ (packer_clean_of_packFlush h hemits ha)
  | ser hphase hidle hemits ha =>
    exact inv_fresh_of_active (inv_emission h _ _ (packer_clean_of_serEmit h hidle hemits ha)) hphase

theorem inv_of_commandEnds {i : Instr} {w : Word} (h : Inv s) (hends : CommandEnds i w s t) : Inv t := by
  cases hends with
  | refused k info => exact inv_raise h k info w
  | failed vs => exact inv_outputFailed h vs w
  | done data heffect => exact inv_respond (inv_of_commandEffect h heffect) data

/-- A grid within `S_MAX`, its cells in their form, where there is a port (46_csm_option R360). -/
theorem inv_withGrid (h : Inv s) {n : Half} {cval clk : List Nat} (hport : s.params.hasCsm = true) (hsize : n ≤ s.params.sMax)
    (hcells : cellsWf cval ∧ cellsWf clk ∧ cellsInside n.toNat cval ∧ cellsInside n.toNat clk) :
    Inv { s with csz := n, cval := cval, clk := clk } :=
  { blockInv_of_keepsBlock (s := s) (t := { s with csz := n, cval := cval, clk := clk })
      ⟨rfl, ⟨rfl, rfl, rfl⟩, rfl, .inl rfl⟩ h, h with
    csmSize := hsize
    csmCells := hcells
    csmAbsent := fun habsent => absurd (hport.symm.trans habsent) (by decide) }

theorem inv_of_gridEffect (h : Inv s) (hport : s.params.hasCsm = true) (heffect : GridEffect s t) : Inv t := by
  obtain ⟨hval, hlock, hvalIn, hlockIn⟩ := h.csmCells
  cases heffect with
  | kept => exact h
  | resized n hmax => exact inv_withGrid h hport hmax (cellsForm_nil n.toNat)
  | wrote r c b hr hc =>
    exact inv_withGrid h hport h.csmSize ⟨cellWrite_wf hval, hlock, cellWrite_inside hr hc hvalIn, hlockIn⟩
  | locked r c hr hc =>
    exact inv_withGrid h hport h.csmSize ⟨hval, cellWrite_wf hlock, hvalIn, cellWrite_inside hr hc hlockIn⟩

theorem inv_of_requestEnds (h : Inv s) (hport : s.params.hasCsm = true) (hends : RequestEnds s t) : Inv t := by
  obtain ⟨status, data, heffect⟩ := hends
  exact inv_csmRespond (inv_of_gridEffect h hport heffect) status data

/-- A request ran, so its port exists. -/
theorem hasCsm_of_request {i : Instr} (hrequest : isCommand i = false) (hexec : exec i s = .next t) :
    s.params.hasCsm = true := by
  obtain ⟨body, hbody⟩ := exists_onCsmPort_of_request hrequest s
  exact (onCsmPort_eq_next_iff.1 (hbody.symm.trans hexec)).1

theorem inv_of_exec {i : Instr} (h : Inv s) (hexec : exec i s = .next t) : Inv t := by
  cases hword : encode i with
  | cmd w => exact inv_of_commandEnds h (command_ends hword hexec)
  | csm q =>
    have hrequest := isCommand_eq_false_of_request hword
    exact inv_of_requestEnds h (hasCsm_of_request hrequest hexec) (request_ends hrequest hexec)

end

/-- Settles O53: a step waits, resets, refuses an undecodable word or runs an instruction, which ends in one of its ways. -/
theorem everyStepKeepsTheInvariant : Obligations.EveryStepKeepsTheInvariant := by
  intro s t h hstep
  obtain ⟨-, rfl⟩ | ⟨rest, -, rfl⟩ | ⟨w, rest, -, -, -, rfl⟩ | ⟨-, rest, -, -, -, -, rfl⟩ |
    ⟨-, rest, i, -, -, hexec⟩ :=
    step_cases hstep
  · exact h
  · exact inv_zeroBlock h.sMax
  · exact inv_raise (inv_withInputs h rest) .illegalCommand 0 w
  · exact inv_csmRespond (inv_withInputs h rest) 6 0
  · exact inv_of_exec (inv_withInputs h rest) hexec

end Sys2Proof.Machine
end
